-- ==== Sys2Proof/Word.lean ====
section
/-! DEFINITION. The word types of the ARM810 (spec/00_scope.md R6, R7). -/

namespace Sys2Proof

/-- A register, PSR or memory word: 32 bits, bit 0 least significant (R7). -/
abbrev Word := BitVec 32

/-- One byte of memory (R60). -/
abbrev Byte := BitVec 8

/-- The number of an aligned 32-bit word: address bits 31:2 (R63, R64). Byte `k` of word `w` has
address `4 * w + k`. -/
abbrev WordAddr := BitVec 30

/-- The mode field `M[4:0]` of a PSR (R26). -/
abbrev ModeBits := BitVec 5

/-- A register number of an instruction, 0 to 15 (R21). -/
abbrev RegNo := Fin 16

end Sys2Proof
end

