-- ==== Sys2Proof/Syntax.lean ====
section
/-! DEFINITION. The instructions: one constructor for each of the 71 rows of spec/opcode_table.json
(spec/30_encoding.md R111), and the operand and condition types they carry. -/

namespace Sys2Proof

/-- The fifteen conditions of R91. Bits 1111 (NV) are no condition: R92 refuses them. -/
inductive Cond
  | eq | ne | cs | cc | mi | pl | vs | vc | hi | ls | ge | lt | gt | le | al
  deriving DecidableEq, Repr

/-- The shift types of operand 2 (R97, R98). -/
inductive ShiftType
  | lsl | lsr | asr | ror
  deriving DecidableEq, Repr

/-- Operand 2, immediate form (R96). -/
structure ImmOp where
  rotate : BitVec 4
  imm8   : BitVec 8
  deriving DecidableEq, Repr

/-- Operand 2, register shifted by an immediate amount (R97). -/
structure ImmShiftOp where
  amount : BitVec 5
  ty     : ShiftType
  rm     : RegNo
  deriving DecidableEq, Repr

/-- Operand 2, register shifted by a register (R98). -/
structure RegShiftOp where
  rs : RegNo
  ty : ShiftType
  rm : RegNo
  deriving DecidableEq, Repr

/-- The three forms of operand 2 (R96 to R98). -/
inductive Operand2
  | imm      (o : ImmOp)
  | immShift (o : ImmShiftOp)
  | regShift (o : RegShiftOp)
  deriving DecidableEq, Repr

/-- The twelve data-processing operations that write a destination (R95, R155 to R166). -/
inductive DpOp
  | and | eor | sub | rsb | add | adc | sbc | rsc | orr | mov | bic | mvn
  deriving DecidableEq, Repr

/-- The four compare operations (R95, R131 to R134). -/
inductive CmpOp
  | tst | teq | cmp | cmn
  deriving DecidableEq, Repr

/-- The fields of a block transfer besides the L bit (R102). -/
structure BlockOp where
  p    : Bool
  u    : Bool
  s    : Bool
  w    : Bool
  rn   : RegNo
  list : BitVec 16
  deriving DecidableEq, Repr

/-- The instructions. The suffix names the table's format: `Imm` dp_imm, `ImmShift` dp_reg_immshift,
`RegShift` dp_reg_regshift. Arguments: condition; for data processing the S bit, Rd, Rn (MOV and MVN
have no Rn) and operand 2; for the compares Rn and operand 2. -/
inductive Instr
  /-- MRS (R210): Rd <- CPSR, or the current mode's SPSR when `spsr` (bit 22). -/
  | mrs (c : Cond) (spsr : Bool) (rd : RegNo)
  /-- MSR, register source (R211): field mask bits 19:16. -/
  | msrReg (c : Cond) (spsr : Bool) (mask : BitVec 4) (rm : RegNo)
  /-- MSR, immediate source (R211). -/
  | msrImm (c : Cond) (spsr : Bool) (mask : BitVec 4) (o : ImmOp)
  /-- AND (R155). -/
  | andImm (c : Cond) (sb : Bool) (rd rn : RegNo) (o : ImmOp)
  /-- EOR (R156). -/
  | eorImm (c : Cond) (sb : Bool) (rd rn : RegNo) (o : ImmOp)
  /-- SUB (R157). -/
  | subImm (c : Cond) (sb : Bool) (rd rn : RegNo) (o : ImmOp)
  /-- RSB (R158). -/
  | rsbImm (c : Cond) (sb : Bool) (rd rn : RegNo) (o : ImmOp)
  /-- ADD (R159). -/
  | addImm (c : Cond) (sb : Bool) (rd rn : RegNo) (o : ImmOp)
  /-- ADC (R160). -/
  | adcImm (c : Cond) (sb : Bool) (rd rn : RegNo) (o : ImmOp)
  /-- SBC (R161). -/
  | sbcImm (c : Cond) (sb : Bool) (rd rn : RegNo) (o : ImmOp)
  /-- RSC (R162). -/
  | rscImm (c : Cond) (sb : Bool) (rd rn : RegNo) (o : ImmOp)
  /-- TST (R131). -/
  | tstImm (c : Cond) (rn : RegNo) (o : ImmOp)
  /-- TSTP (R138). -/
  | tstpImm (c : Cond) (rn : RegNo) (o : ImmOp)
  /-- TEQ (R132). -/
  | teqImm (c : Cond) (rn : RegNo) (o : ImmOp)
  /-- TEQP (R139). -/
  | teqpImm (c : Cond) (rn : RegNo) (o : ImmOp)
  /-- CMP (R133). -/
  | cmpImm (c : Cond) (rn : RegNo) (o : ImmOp)
  /-- CMPP (R140). -/
  | cmppImm (c : Cond) (rn : RegNo) (o : ImmOp)
  /-- CMN (R134). -/
  | cmnImm (c : Cond) (rn : RegNo) (o : ImmOp)
  /-- CMNP (R141). -/
  | cmnpImm (c : Cond) (rn : RegNo) (o : ImmOp)
  /-- ORR (R163). -/
  | orrImm (c : Cond) (sb : Bool) (rd rn : RegNo) (o : ImmOp)
  /-- MOV (R164). -/
  | movImm (c : Cond) (sb : Bool) (rd : RegNo) (o : ImmOp)
  /-- BIC (R165). -/
  | bicImm (c : Cond) (sb : Bool) (rd rn : RegNo) (o : ImmOp)
  /-- MVN (R166). -/
  | mvnImm (c : Cond) (sb : Bool) (rd : RegNo) (o : ImmOp)
  /-- AND (R155). -/
  | andImmShift (c : Cond) (sb : Bool) (rd rn : RegNo) (o : ImmShiftOp)
  /-- EOR (R156). -/
  | eorImmShift (c : Cond) (sb : Bool) (rd rn : RegNo) (o : ImmShiftOp)
  /-- SUB (R157). -/
  | subImmShift (c : Cond) (sb : Bool) (rd rn : RegNo) (o : ImmShiftOp)
  /-- RSB (R158). -/
  | rsbImmShift (c : Cond) (sb : Bool) (rd rn : RegNo) (o : ImmShiftOp)
  /-- ADD (R159). -/
  | addImmShift (c : Cond) (sb : Bool) (rd rn : RegNo) (o : ImmShiftOp)
  /-- ADC (R160). -/
  | adcImmShift (c : Cond) (sb : Bool) (rd rn : RegNo) (o : ImmShiftOp)
  /-- SBC (R161). -/
  | sbcImmShift (c : Cond) (sb : Bool) (rd rn : RegNo) (o : ImmShiftOp)
  /-- RSC (R162). -/
  | rscImmShift (c : Cond) (sb : Bool) (rd rn : RegNo) (o : ImmShiftOp)
  /-- TST (R131). -/
  | tstImmShift (c : Cond) (rn : RegNo) (o : ImmShiftOp)
  /-- TSTP (R138). -/
  | tstpImmShift (c : Cond) (rn : RegNo) (o : ImmShiftOp)
  /-- TEQ (R132). -/
  | teqImmShift (c : Cond) (rn : RegNo) (o : ImmShiftOp)
  /-- TEQP (R139). -/
  | teqpImmShift (c : Cond) (rn : RegNo) (o : ImmShiftOp)
  /-- CMP (R133). -/
  | cmpImmShift (c : Cond) (rn : RegNo) (o : ImmShiftOp)
  /-- CMPP (R140). -/
  | cmppImmShift (c : Cond) (rn : RegNo) (o : ImmShiftOp)
  /-- CMN (R134). -/
  | cmnImmShift (c : Cond) (rn : RegNo) (o : ImmShiftOp)
  /-- CMNP (R141). -/
  | cmnpImmShift (c : Cond) (rn : RegNo) (o : ImmShiftOp)
  /-- ORR (R163). -/
  | orrImmShift (c : Cond) (sb : Bool) (rd rn : RegNo) (o : ImmShiftOp)
  /-- MOV (R164). -/
  | movImmShift (c : Cond) (sb : Bool) (rd : RegNo) (o : ImmShiftOp)
  /-- BIC (R165). -/
  | bicImmShift (c : Cond) (sb : Bool) (rd rn : RegNo) (o : ImmShiftOp)
  /-- MVN (R166). -/
  | mvnImmShift (c : Cond) (sb : Bool) (rd : RegNo) (o : ImmShiftOp)
  /-- AND (R155). -/
  | andRegShift (c : Cond) (sb : Bool) (rd rn : RegNo) (o : RegShiftOp)
  /-- EOR (R156). -/
  | eorRegShift (c : Cond) (sb : Bool) (rd rn : RegNo) (o : RegShiftOp)
  /-- SUB (R157). -/
  | subRegShift (c : Cond) (sb : Bool) (rd rn : RegNo) (o : RegShiftOp)
  /-- RSB (R158). -/
  | rsbRegShift (c : Cond) (sb : Bool) (rd rn : RegNo) (o : RegShiftOp)
  /-- ADD (R159). -/
  | addRegShift (c : Cond) (sb : Bool) (rd rn : RegNo) (o : RegShiftOp)
  /-- ADC (R160). -/
  | adcRegShift (c : Cond) (sb : Bool) (rd rn : RegNo) (o : RegShiftOp)
  /-- SBC (R161). -/
  | sbcRegShift (c : Cond) (sb : Bool) (rd rn : RegNo) (o : RegShiftOp)
  /-- RSC (R162). -/
  | rscRegShift (c : Cond) (sb : Bool) (rd rn : RegNo) (o : RegShiftOp)
  /-- TST (R131). -/
  | tstRegShift (c : Cond) (rn : RegNo) (o : RegShiftOp)
  /-- TSTP (R138). -/
  | tstpRegShift (c : Cond) (rn : RegNo) (o : RegShiftOp)
  /-- TEQ (R132). -/
  | teqRegShift (c : Cond) (rn : RegNo) (o : RegShiftOp)
  /-- TEQP (R139). -/
  | teqpRegShift (c : Cond) (rn : RegNo) (o : RegShiftOp)
  /-- CMP (R133). -/
  | cmpRegShift (c : Cond) (rn : RegNo) (o : RegShiftOp)
  /-- CMPP (R140). -/
  | cmppRegShift (c : Cond) (rn : RegNo) (o : RegShiftOp)
  /-- CMN (R134). -/
  | cmnRegShift (c : Cond) (rn : RegNo) (o : RegShiftOp)
  /-- CMNP (R141). -/
  | cmnpRegShift (c : Cond) (rn : RegNo) (o : RegShiftOp)
  /-- ORR (R163). -/
  | orrRegShift (c : Cond) (sb : Bool) (rd rn : RegNo) (o : RegShiftOp)
  /-- MOV (R164). -/
  | movRegShift (c : Cond) (sb : Bool) (rd : RegNo) (o : RegShiftOp)
  /-- BIC (R165). -/
  | bicRegShift (c : Cond) (sb : Bool) (rd rn : RegNo) (o : RegShiftOp)
  /-- MVN (R166). -/
  | mvnRegShift (c : Cond) (sb : Bool) (rd : RegNo) (o : RegShiftOp)
  /-- LDM (R182). -/
  | ldm (c : Cond) (o : BlockOp)
  /-- STM (R183). -/
  | stm (c : Cond) (o : BlockOp)
  /-- B (R200): the offset in words. -/
  | b (c : Cond) (offset : BitVec 24)
  /-- BL (R201). -/
  | bl (c : Cond) (offset : BitVec 24)
  /-- IMB (R232): SWI 0xF00000. -/
  | imb (c : Cond)
  /-- IMBRange (R233): SWI 0xF00001. -/
  | imbRange (c : Cond)
  /-- SWI (R230) with any other comment field. -/
  | swi (c : Cond) (comment : BitVec 24)
  /-- The architecturally undefined space (R107): bits 24:5 and 3:0 are free. -/
  | undefined (c : Cond) (hi : BitVec 20) (lo : BitVec 4)
  deriving DecidableEq, Repr

/-- An instruction sorted by format, with the operation as a value: what decoding, encoding and the
hazard checks need to know of it. `Instr.form` (Sys2Proof/Decode.lean) gives the form of each constructor. -/
inductive Form
  | dp     (op : DpOp) (c : Cond) (sb : Bool) (rd rn : RegNo) (o : Operand2)
  | cmp    (op : CmpOp) (p : Bool) (c : Cond) (rn : RegNo) (o : Operand2)
  | mrs    (c : Cond) (spsr : Bool) (rd : RegNo)
  | msrReg (c : Cond) (spsr : Bool) (mask : BitVec 4) (rm : RegNo)
  | msrImm (c : Cond) (spsr : Bool) (mask : BitVec 4) (o : ImmOp)
  | block  (load : Bool) (c : Cond) (o : BlockOp)
  | branch (link : Bool) (c : Cond) (offset : BitVec 24)
  | imb    (c : Cond)
  | imbRange (c : Cond)
  | swi    (c : Cond) (comment : BitVec 24)
  | undefined (c : Cond) (hi : BitVec 20) (lo : BitVec 4)
  deriving DecidableEq, Repr

end Sys2Proof
end

