-- ==== Sys2Proof/Decode.lean ====
section
/-! DEFINITION. The decoder, total on every 32-bit word and rejecting by name, and after it the encoder
(spec/30_encoding.md R90 to R111). -/

namespace Sys2Proof

/-! ### Bytes and fields -/

/-- The word made of the bytes at addresses `a`, `a+1`, `a+2`, `a+3`, in the byte order of R61. -/
def wordOfBytes (bigEndian : Bool) (b0 b1 b2 b3 : Byte) : Word :=
  if bigEndian then b0 ++ b1 ++ b2 ++ b3 else b3 ++ b2 ++ b1 ++ b0

/-- Byte `k` (0 to 3, in address order) of a word stored in the byte order of R61. -/
def byteOfWord (bigEndian : Bool) (w : Word) (k : Nat) : Byte :=
  w.extractLsb' (8 * (if bigEndian then 3 - k else k)) 8

/-- The bit field of `len` bits whose lowest bit is bit `lo`. -/
abbrev fieldOf (w : Word) (lo len : Nat) : BitVec len := w.extractLsb' lo len

/-- A 4-bit register field as a register number. -/
def regOf (b : BitVec 4) : RegNo := b.toFin

/-- The 4-bit field of a register number. -/
def regBits (r : RegNo) : BitVec 4 := BitVec.ofFin r

/-! ### Field values -/

/-- R91: the conditions in the order of their numbers. -/
def condTable : List Cond :=
  [.eq, .ne, .cs, .cc, .mi, .pl, .vs, .vc, .hi, .ls, .ge, .lt, .gt, .le, .al]

/-- The condition of a condition field; `none` for 1111 (R92). -/
def Cond.ofBits (b : BitVec 4) : Option Cond := condTable[b.toNat]?

/-- R91, first column. -/
def Cond.bits : Cond → BitVec 4
  | .eq => 0b0000#4 | .ne => 0b0001#4 | .cs => 0b0010#4 | .cc => 0b0011#4
  | .mi => 0b0100#4 | .pl => 0b0101#4 | .vs => 0b0110#4 | .vc => 0b0111#4
  | .hi => 0b1000#4 | .ls => 0b1001#4 | .ge => 0b1010#4 | .lt => 0b1011#4
  | .gt => 0b1100#4 | .le => 0b1101#4 | .al => 0b1110#4

/-- R97, R98: the shift types in the order of their numbers. -/
def ShiftType.ofBits (b : BitVec 2) : ShiftType := [.lsl, .lsr, .asr, .ror].getD b.toNat .lsl

/-- R97, R98, the `type` column. -/
def ShiftType.bits : ShiftType → BitVec 2
  | .lsl => 0b00#2 | .lsr => 0b01#2 | .asr => 0b10#2 | .ror => 0b11#2

/-- An entry of the opcode column of R95. -/
inductive Opcode
  | dp  (op : DpOp)
  | cmp (op : CmpOp)
  deriving DecidableEq, Repr

/-- R95: the sixteen opcodes in the order of their numbers. -/
def opcodeTable : List Opcode :=
  [.dp .and, .dp .eor, .dp .sub, .dp .rsb, .dp .add, .dp .adc, .dp .sbc, .dp .rsc,
   .cmp .tst, .cmp .teq, .cmp .cmp, .cmp .cmn, .dp .orr, .dp .mov, .dp .bic, .dp .mvn]

/-- The opcode of bits 24:21 (R95). -/
def Opcode.ofBits (b : BitVec 4) : Opcode := opcodeTable.getD b.toNat (.dp .and)

/-- R95, first column, the operations that write a destination. -/
def DpOp.bits : DpOp → BitVec 4
  | .and => 0b0000#4 | .eor => 0b0001#4 | .sub => 0b0010#4 | .rsb => 0b0011#4
  | .add => 0b0100#4 | .adc => 0b0101#4 | .sbc => 0b0110#4 | .rsc => 0b0111#4
  | .orr => 0b1100#4 | .mov => 0b1101#4 | .bic => 0b1110#4 | .mvn => 0b1111#4

/-- R95, first column, the compares. -/
def CmpOp.bits : CmpOp → BitVec 4
  | .tst => 0b1000#4 | .teq => 0b1001#4 | .cmp => 0b1010#4 | .cmn => 0b1011#4

/-- MOV and MVN have no first operand: their Rn field must be 0000 (R100). -/
def DpOp.hasNoRn : DpOp → Bool
  | .mov | .mvn => true
  | _ => false

/-! ### Forms and constructors -/

/-- The form of an instruction: which operation, which operand format. -/
def Instr.form : Instr → Form
  | .mrs c p rd => .mrs c p rd
  | .msrReg c p m rm => .msrReg c p m rm
  | .msrImm c p m o => .msrImm c p m o
  | .andImm c sb rd rn o => .dp .and c sb rd rn (.imm o)
  | .eorImm c sb rd rn o => .dp .eor c sb rd rn (.imm o)
  | .subImm c sb rd rn o => .dp .sub c sb rd rn (.imm o)
  | .rsbImm c sb rd rn o => .dp .rsb c sb rd rn (.imm o)
  | .addImm c sb rd rn o => .dp .add c sb rd rn (.imm o)
  | .adcImm c sb rd rn o => .dp .adc c sb rd rn (.imm o)
  | .sbcImm c sb rd rn o => .dp .sbc c sb rd rn (.imm o)
  | .rscImm c sb rd rn o => .dp .rsc c sb rd rn (.imm o)
  | .tstImm c rn o => .cmp .tst false c rn (.imm o)
  | .tstpImm c rn o => .cmp .tst true c rn (.imm o)
  | .teqImm c rn o => .cmp .teq false c rn (.imm o)
  | .teqpImm c rn o => .cmp .teq true c rn (.imm o)
  | .cmpImm c rn o => .cmp .cmp false c rn (.imm o)
  | .cmppImm c rn o => .cmp .cmp true c rn (.imm o)
  | .cmnImm c rn o => .cmp .cmn false c rn (.imm o)
  | .cmnpImm c rn o => .cmp .cmn true c rn (.imm o)
  | .orrImm c sb rd rn o => .dp .orr c sb rd rn (.imm o)
  | .movImm c sb rd o => .dp .mov c sb rd 0 (.imm o)
  | .bicImm c sb rd rn o => .dp .bic c sb rd rn (.imm o)
  | .mvnImm c sb rd o => .dp .mvn c sb rd 0 (.imm o)
  | .andImmShift c sb rd rn o => .dp .and c sb rd rn (.immShift o)
  | .eorImmShift c sb rd rn o => .dp .eor c sb rd rn (.immShift o)
  | .subImmShift c sb rd rn o => .dp .sub c sb rd rn (.immShift o)
  | .rsbImmShift c sb rd rn o => .dp .rsb c sb rd rn (.immShift o)
  | .addImmShift c sb rd rn o => .dp .add c sb rd rn (.immShift o)
  | .adcImmShift c sb rd rn o => .dp .adc c sb rd rn (.immShift o)
  | .sbcImmShift c sb rd rn o => .dp .sbc c sb rd rn (.immShift o)
  | .rscImmShift c sb rd rn o => .dp .rsc c sb rd rn (.immShift o)
  | .tstImmShift c rn o => .cmp .tst false c rn (.immShift o)
  | .tstpImmShift c rn o => .cmp .tst true c rn (.immShift o)
  | .teqImmShift c rn o => .cmp .teq false c rn (.immShift o)
  | .teqpImmShift c rn o => .cmp .teq true c rn (.immShift o)
  | .cmpImmShift c rn o => .cmp .cmp false c rn (.immShift o)
  | .cmppImmShift c rn o => .cmp .cmp true c rn (.immShift o)
  | .cmnImmShift c rn o => .cmp .cmn false c rn (.immShift o)
  | .cmnpImmShift c rn o => .cmp .cmn true c rn (.immShift o)
  | .orrImmShift c sb rd rn o => .dp .orr c sb rd rn (.immShift o)
  | .movImmShift c sb rd o => .dp .mov c sb rd 0 (.immShift o)
  | .bicImmShift c sb rd rn o => .dp .bic c sb rd rn (.immShift o)
  | .mvnImmShift c sb rd o => .dp .mvn c sb rd 0 (.immShift o)
  | .andRegShift c sb rd rn o => .dp .and c sb rd rn (.regShift o)
  | .eorRegShift c sb rd rn o => .dp .eor c sb rd rn (.regShift o)
  | .subRegShift c sb rd rn o => .dp .sub c sb rd rn (.regShift o)
  | .rsbRegShift c sb rd rn o => .dp .rsb c sb rd rn (.regShift o)
  | .addRegShift c sb rd rn o => .dp .add c sb rd rn (.regShift o)
  | .adcRegShift c sb rd rn o => .dp .adc c sb rd rn (.regShift o)
  | .sbcRegShift c sb rd rn o => .dp .sbc c sb rd rn (.regShift o)
  | .rscRegShift c sb rd rn o => .dp .rsc c sb rd rn (.regShift o)
  | .tstRegShift c rn o => .cmp .tst false c rn (.regShift o)
  | .tstpRegShift c rn o => .cmp .tst true c rn (.regShift o)
  | .teqRegShift c rn o => .cmp .teq false c rn (.regShift o)
  | .teqpRegShift c rn o => .cmp .teq true c rn (.regShift o)
  | .cmpRegShift c rn o => .cmp .cmp false c rn (.regShift o)
  | .cmppRegShift c rn o => .cmp .cmp true c rn (.regShift o)
  | .cmnRegShift c rn o => .cmp .cmn false c rn (.regShift o)
  | .cmnpRegShift c rn o => .cmp .cmn true c rn (.regShift o)
  | .orrRegShift c sb rd rn o => .dp .orr c sb rd rn (.regShift o)
  | .movRegShift c sb rd o => .dp .mov c sb rd 0 (.regShift o)
  | .bicRegShift c sb rd rn o => .dp .bic c sb rd rn (.regShift o)
  | .mvnRegShift c sb rd o => .dp .mvn c sb rd 0 (.regShift o)
  | .ldm c o => .block true c o
  | .stm c o => .block false c o
  | .b c off => .branch false c off
  | .bl c off => .branch true c off
  | .imb c => .imb c
  | .imbRange c => .imbRange c
  | .swi c n => .swi c n
  | .undefined c hi lo => .undefined c hi lo

/-- The constructor of a data-processing form. -/
def dpInstr (op : DpOp) (c : Cond) (sb : Bool) (rd rn : RegNo) (o : Operand2) : Instr :=
  match op, o with
  | .and, .imm o => .andImm c sb rd rn o
  | .eor, .imm o => .eorImm c sb rd rn o
  | .sub, .imm o => .subImm c sb rd rn o
  | .rsb, .imm o => .rsbImm c sb rd rn o
  | .add, .imm o => .addImm c sb rd rn o
  | .adc, .imm o => .adcImm c sb rd rn o
  | .sbc, .imm o => .sbcImm c sb rd rn o
  | .rsc, .imm o => .rscImm c sb rd rn o
  | .orr, .imm o => .orrImm c sb rd rn o
  | .mov, .imm o => .movImm c sb rd o
  | .bic, .imm o => .bicImm c sb rd rn o
  | .mvn, .imm o => .mvnImm c sb rd o
  | .and, .immShift o => .andImmShift c sb rd rn o
  | .eor, .immShift o => .eorImmShift c sb rd rn o
  | .sub, .immShift o => .subImmShift c sb rd rn o
  | .rsb, .immShift o => .rsbImmShift c sb rd rn o
  | .add, .immShift o => .addImmShift c sb rd rn o
  | .adc, .immShift o => .adcImmShift c sb rd rn o
  | .sbc, .immShift o => .sbcImmShift c sb rd rn o
  | .rsc, .immShift o => .rscImmShift c sb rd rn o
  | .orr, .immShift o => .orrImmShift c sb rd rn o
  | .mov, .immShift o => .movImmShift c sb rd o
  | .bic, .immShift o => .bicImmShift c sb rd rn o
  | .mvn, .immShift o => .mvnImmShift c sb rd o
  | .and, .regShift o => .andRegShift c sb rd rn o
  | .eor, .regShift o => .eorRegShift c sb rd rn o
  | .sub, .regShift o => .subRegShift c sb rd rn o
  | .rsb, .regShift o => .rsbRegShift c sb rd rn o
  | .add, .regShift o => .addRegShift c sb rd rn o
  | .adc, .regShift o => .adcRegShift c sb rd rn o
  | .sbc, .regShift o => .sbcRegShift c sb rd rn o
  | .rsc, .regShift o => .rscRegShift c sb rd rn o
  | .orr, .regShift o => .orrRegShift c sb rd rn o
  | .mov, .regShift o => .movRegShift c sb rd o
  | .bic, .regShift o => .bicRegShift c sb rd rn o
  | .mvn, .regShift o => .mvnRegShift c sb rd o

/-- The constructor of a compare form. -/
def cmpInstr (op : CmpOp) (p : Bool) (c : Cond) (rn : RegNo) (o : Operand2) : Instr :=
  match op, p, o with
  | .tst, false, .imm o => .tstImm c rn o
  | .tst, true, .imm o => .tstpImm c rn o
  | .teq, false, .imm o => .teqImm c rn o
  | .teq, true, .imm o => .teqpImm c rn o
  | .cmp, false, .imm o => .cmpImm c rn o
  | .cmp, true, .imm o => .cmppImm c rn o
  | .cmn, false, .imm o => .cmnImm c rn o
  | .cmn, true, .imm o => .cmnpImm c rn o
  | .tst, false, .immShift o => .tstImmShift c rn o
  | .tst, true, .immShift o => .tstpImmShift c rn o
  | .teq, false, .immShift o => .teqImmShift c rn o
  | .teq, true, .immShift o => .teqpImmShift c rn o
  | .cmp, false, .immShift o => .cmpImmShift c rn o
  | .cmp, true, .immShift o => .cmppImmShift c rn o
  | .cmn, false, .immShift o => .cmnImmShift c rn o
  | .cmn, true, .immShift o => .cmnpImmShift c rn o
  | .tst, false, .regShift o => .tstRegShift c rn o
  | .tst, true, .regShift o => .tstpRegShift c rn o
  | .teq, false, .regShift o => .teqRegShift c rn o
  | .teq, true, .regShift o => .teqpRegShift c rn o
  | .cmp, false, .regShift o => .cmpRegShift c rn o
  | .cmp, true, .regShift o => .cmppRegShift c rn o
  | .cmn, false, .regShift o => .cmnRegShift c rn o
  | .cmn, true, .regShift o => .cmnpRegShift c rn o

/-- The instruction of a form. -/
def Form.instr : Form → Instr
  | .dp op c sb rd rn o => dpInstr op c sb rd rn o
  | .cmp op p c rn o => cmpInstr op p c rn o
  | .mrs c p rd => .mrs c p rd
  | .msrReg c p m rm => .msrReg c p m rm
  | .msrImm c p m o => .msrImm c p m o
  | .block true c o => .ldm c o
  | .block false c o => .stm c o
  | .branch false c off => .b c off
  | .branch true c off => .bl c off
  | .imb c => .imb c
  | .imbRange c => .imbRange c
  | .swi c n => .swi c n
  | .undefined c hi lo => .undefined c hi lo

/-- The condition of a form. -/
def Form.cond : Form → Cond
  | .dp _ c _ _ _ _ | .cmp _ _ c _ _ | .mrs c _ _ | .msrReg c _ _ _ | .msrImm c _ _ _ => c
  | .block _ c _ | .branch _ c _ | .imb c | .imbRange c | .swi c _ | .undefined c _ _ => c

/-! ### The decoder -/

/-- Why a word is no instruction of the model: the names of R106. -/
inductive Reject
  | condNv
  | multiply
  | swap
  | halfword
  | singleTransfer
  | coprocessor
  | reservedEncoding
  | compareRd
  | movRn
  deriving DecidableEq, Repr

/-- The classes of R93. -/
inductive DecodeClass
  | multiply
  | longMultiply
  | swap
  | halfword
  | psrReg
  | dpImmShift
  | dpRegShift
  | psrImm
  | unallocated
  | dpImm
  | singleTransfer
  | undefinedSpace
  | block
  | branch
  | coprocessor
  | swi
  deriving DecidableEq, Repr

/-- R93: the first line that matches decides. -/
def classify (w : Word) : DecodeClass :=
  match (fieldOf w 25 3).toNat with
  | 0 =>
    if w.getLsbD 7 && w.getLsbD 4 then
      if fieldOf w 5 2 == 0b00#2 then
        match (fieldOf w 23 2).toNat with
        | 0 => .multiply
        | 1 => .longMultiply
        | 2 => .swap
        | _ => .halfword
      else .halfword
    else if fieldOf w 23 2 == 0b10#2 && !w.getLsbD 20 then .psrReg
    else if w.getLsbD 4 then .dpRegShift else .dpImmShift
  | 1 =>
    if fieldOf w 23 2 == 0b10#2 && fieldOf w 20 2 == 0b10#2 then .psrImm
    else if fieldOf w 23 2 == 0b10#2 && fieldOf w 20 2 == 0b00#2 then .unallocated
    else .dpImm
  | 2 => .singleTransfer
  | 3 => if w.getLsbD 4 then .undefinedSpace else .singleTransfer
  | 4 => .block
  | 5 => .branch
  | 6 => .coprocessor
  | _ => if w.getLsbD 24 then .swi else .coprocessor

/-- The immediate operand of bits 11:0 (R96). -/
def immOpOf (w : Word) : ImmOp := { rotate := fieldOf w 8 4, imm8 := fieldOf w 0 8 }

/-- The immediate-shift operand of bits 11:0 (R97). -/
def immShiftOpOf (w : Word) : ImmShiftOp :=
  { amount := fieldOf w 7 5, ty := .ofBits (fieldOf w 5 2), rm := regOf (fieldOf w 0 4) }

/-- The register-shift operand of bits 11:0 (R98). -/
def regShiftOpOf (w : Word) : RegShiftOp :=
  { rs := regOf (fieldOf w 8 4), ty := .ofBits (fieldOf w 5 2), rm := regOf (fieldOf w 0 4) }

/-- The data-processing classes (R94, R95, R100): a compare opcode here has S = 1. -/
def decodeDp (w : Word) (c : Cond) (o : Operand2) : Except Reject Form :=
  let rn := regOf (fieldOf w 16 4)
  let rd := regOf (fieldOf w 12 4)
  match Opcode.ofBits (fieldOf w 21 4) with
  | .dp op =>
    if op.hasNoRn && rn != 0 then .error .movRn
    else .ok (.dp op c (w.getLsbD 20) rd rn o)
  | .cmp op =>
    if rd == 0 then .ok (.cmp op false c rn o)
    else if rd == 15 then .ok (.cmp op true c rn o)
    else .error .compareRd

/-- Class 5 (R101): MRS and the register form of MSR; a violated fixed field is reserved. -/
def decodePsrReg (w : Word) (c : Cond) : Except Reject Form :=
  if !w.getLsbD 21 then
    if fieldOf w 16 4 == 0b1111#4 && fieldOf w 0 12 == 0#12
    then .ok (.mrs c (w.getLsbD 22) (regOf (fieldOf w 12 4)))
    else .error .reservedEncoding
  else if fieldOf w 12 4 == 0b1111#4 && fieldOf w 4 8 == 0#8
  then .ok (.msrReg c (w.getLsbD 22) (fieldOf w 16 4) (regOf (fieldOf w 0 4)))
  else .error .reservedEncoding

/-- Class 8 (R101): the immediate form of MSR. -/
def decodePsrImm (w : Word) (c : Cond) : Except Reject Form :=
  if fieldOf w 12 4 == 0b1111#4 then .ok (.msrImm c (w.getLsbD 22) (fieldOf w 16 4) (immOpOf w))
  else .error .reservedEncoding

/-- R102. -/
def blockOpOf (w : Word) : BlockOp :=
  { p := w.getLsbD 24, u := w.getLsbD 23, s := w.getLsbD 22, w := w.getLsbD 21,
    rn := regOf (fieldOf w 16 4), list := fieldOf w 0 16 }

/-- The two IMB comment fields (R105). -/
def imbComment : BitVec 24 := 0xF00000#24
/-- See `imbComment`. -/
def imbRangeComment : BitVec 24 := 0xF00001#24

/-- R104, R105, R111: the two IMB rows are tested before the general SWI row. -/
def decodeSwi (w : Word) (c : Cond) : Form :=
  let n := fieldOf w 0 24
  if n == imbComment then .imb c else if n == imbRangeComment then .imbRange c else .swi c n

/-- Bits 27:0 of a word whose condition is `c` (R93). -/
def decodeBody (w : Word) (c : Cond) : Except Reject Form :=
  match classify w with
  | .multiply | .longMultiply => .error .multiply
  | .swap => .error .swap
  | .halfword => .error .halfword
  | .psrReg => decodePsrReg w c
  | .dpImmShift => decodeDp w c (.immShift (immShiftOpOf w))
  | .dpRegShift => decodeDp w c (.regShift (regShiftOpOf w))
  | .psrImm => decodePsrImm w c
  | .unallocated => .error .reservedEncoding
  | .dpImm => decodeDp w c (.imm (immOpOf w))
  | .singleTransfer => .error .singleTransfer
  | .undefinedSpace => .ok (.undefined c (fieldOf w 5 20) (fieldOf w 0 4))
  | .block => .ok (.block (w.getLsbD 20) c (blockOpOf w))
  | .branch => .ok (.branch (w.getLsbD 24) c (fieldOf w 0 24))
  | .coprocessor => .error .coprocessor
  | .swi => .ok (decodeSwi w c)

/-- The condition of a word; `none` for 1111. -/
def condOf (w : Word) : Option Cond := Cond.ofBits (fieldOf w 28 4)

/-- The decoder: an instruction, or the name of the reason there is none. The mode plays no part (R90). -/
def decode (w : Word) : Except Reject Instr :=
  match condOf w with
  | none => .error .condNv
  | some c => (decodeBody w c).map Form.instr

/-- The decoder on the four bytes of a word in address order. -/
def decodeBytes (bigEndian : Bool) (b0 b1 b2 b3 : Byte) : Except Reject Instr :=
  decode (wordOfBytes bigEndian b0 b1 b2 b3)

/-- What the decoder reads from a word numbered as spec/opcode_table.json numbers its bits: every row
is one 32-bit word, and the bits from `nbits` on are 0. -/
def decodeTableWord (nbits w : Nat) : Option Instr :=
  (decode (BitVec.ofNat 32 (w % 2 ^ nbits))).toOption

/-! ### The encoder -/

/-- Bits 11:0 of a data-processing word, and its I bit (R94, R96 to R98). -/
def Operand2.bits : Operand2 → BitVec 12
  | .imm o => o.rotate ++ o.imm8
  | .immShift o => o.amount ++ o.ty.bits ++ 0b0#1 ++ regBits o.rm
  | .regShift o => regBits o.rs ++ 0b0#1 ++ o.ty.bits ++ 0b1#1 ++ regBits o.rm

/-- The I bit: 1 for the immediate form. -/
def Operand2.isImm : Operand2 → Bool
  | .imm _ => true
  | _ => false

/-- The data-processing word of R94. -/
def encodeDp (c : Cond) (opcode : BitVec 4) (sb : Bool) (rn rd : RegNo) (o : Operand2) : Word :=
  c.bits ++ 0b00#2 ++ BitVec.ofBool o.isImm ++ opcode ++ BitVec.ofBool sb ++ regBits rn ++ regBits rd ++ o.bits

/-- The word of a form, from the formats of R94 and R101 to R104. -/
def encodeForm : Form → Word
  | .dp op c sb rd rn o => encodeDp c op.bits sb rn rd o
  | .cmp op p c rn o => encodeDp c op.bits true rn (if p then 15 else 0) o
  | .mrs c p rd => c.bits ++ 0b00010#5 ++ BitVec.ofBool p ++ 0b00#2 ++ 0b1111#4 ++ regBits rd ++ 0#12
  | .msrReg c p m rm =>
      c.bits ++ 0b00010#5 ++ BitVec.ofBool p ++ 0b10#2 ++ m ++ 0b1111#4 ++ 0#8 ++ regBits rm
  | .msrImm c p m o =>
      c.bits ++ 0b00110#5 ++ BitVec.ofBool p ++ 0b10#2 ++ m ++ 0b1111#4 ++ o.rotate ++ o.imm8
  | .block l c o =>
      c.bits ++ 0b100#3 ++ BitVec.ofBool o.p ++ BitVec.ofBool o.u ++ BitVec.ofBool o.s ++ BitVec.ofBool o.w ++
        BitVec.ofBool l ++ regBits o.rn ++ o.list
  | .branch l c off => c.bits ++ 0b101#3 ++ BitVec.ofBool l ++ off
  | .imb c => c.bits ++ 0b1111#4 ++ imbComment
  | .imbRange c => c.bits ++ 0b1111#4 ++ imbRangeComment
  | .swi c n => c.bits ++ 0b1111#4 ++ n
  | .undefined c hi lo => c.bits ++ 0b011#3 ++ hi ++ 0b1#1 ++ lo

/-- The encoder. -/
def encode (i : Instr) : Word := encodeForm i.form

end Sys2Proof
end

