-- ==== Sys2Proof/Config.lean ====
section
/-! DEFINITION. What an implementation fixes (spec/00_scope.md R6) and the free values (R8 `draw`).
An `opaque` constant has no body: no proof can depend on which value it has. -/

namespace Sys2Proof.Config

/-- The kinds of access the memory system may abort: an instruction fetch, a data read, a data write
(R6 `AbortOracle`: read or write, instruction or data). -/
inductive Access
  | fetch
  | dataRead
  | dataWrite
  deriving DecidableEq, Repr

/-- One rule of the abort decision: it decides the accesses to the byte addresses `lo` to `hi`, of the
given kind (`none`: every kind), made in the given mode (`none`: every mode). DESIGN CHOICE (log 12):
every predicate over the finite domain of R6's `AbortOracle` is a finite list of such rules. -/
structure AbortRule where
  lo     : Nat
  hi     : Nat
  access : Option Access
  mode   : Option ModeBits
  /-- The accesses the rule decides are aborted. -/
  aborts : Bool
  deriving DecidableEq, Repr

/-- `ABORT_MODEL` (R6, R190). -/
inductive AbortModel
  | baseRestored
  | baseUpdated
  deriving DecidableEq, Repr, Inhabited

/-- `STORE_PC_OFFSET` (R6, R188): 8 or 12. -/
inductive StorePcOffset
  | eight
  | twelve
  deriving DecidableEq, Repr, Inhabited

/-- The parameters of R6 as plain data. State holds one (log 1), so that a statement about every state
holds for every value of every parameter. -/
structure Platform where
  /-- `BIG_ENDIAN` (R61). -/
  bigEndian           : Bool
  /-- `STORE_PC_OFFSET` (R188). -/
  storePcOffset       : StorePcOffset
  /-- `PREFETCH_MAX` in words: the parameter is four times this number (R36). -/
  prefetchWords       : Nat
  /-- `VECTOR_WRITE_ABORT_26` (R68). -/
  vectorWriteAbort26  : Bool
  /-- `AbortOracle` (R62, R72): the first rule that matches an access decides it; an access that none
  matches is not aborted. -/
  aborts              : List AbortRule
  /-- `Translate` (R62): virtual word to physical word, the first pair that matches; a word with no
  pair is its own translation (the default identity of R6). -/
  translate           : List (WordAddr × WordAddr)
  /-- `ABORT_MODEL` (R190). -/
  abortModel          : AbortModel
  /-- `MODECHANGE_BANK_HAZARD` (R298). -/
  modeChangeBankHazard : Bool
  /-- `HALT_ADDR` (R78). -/
  haltAddr            : Option Word
  deriving DecidableEq, Repr

/-- The external inputs sampled before one instruction (R37, R262): the reset input, FiqLine, IrqLine. -/
structure Input where
  reset : Bool
  fiq   : Bool
  irq   : Bool
  deriving DecidableEq, Repr

/-- No line asserted. -/
def Input.quiet : Input := { reset := false, fiq := false, irq := false }

/-- The free words (R8 `draw`), one for each value of State's counter `draws` (log 5). -/
opaque freeWord : Nat → Word

/-- The free truth values (R8 `draw`), log 5. -/
opaque freeBool : Nat → Bool

/-- Which member of IHist a fetch returns (R72 "a free choice of the step"), log 5. -/
opaque freeChoice : Nat → Nat

/-- `IrqLine` (R6, R37), a function of the step number without a law, log 16. -/
opaque irqLine : Nat → Bool

/-- `FiqLine`, likewise. -/
opaque fiqLine : Nat → Bool

/-- The OPEN parameters of R6 as State.reset has them: no value is chosen (log 3). -/
opaque storePcOffset : StorePcOffset
/-- See `storePcOffset`. -/
opaque prefetchWords : Nat
/-- See `storePcOffset`. -/
opaque vectorWriteAbort26 : Bool
/-- See `storePcOffset`: `AbortOracle`. -/
opaque aborts : List AbortRule
/-- See `storePcOffset`. -/
opaque abortModel : AbortModel
/-- See `storePcOffset`. -/
opaque modeChangeBankHazard : Bool

end Sys2Proof.Config
end

