-- ==== Sys2Proof/Machine/State.lean ====
section
/-! DEFINITION. The state of the machine as plain data, the reasons a step can stop, and the state after
reset (spec/10_state.md R20, spec/70_reset_and_hazards.md R290). -/

namespace Sys2Proof.Machine

/-- Why the machine stops: one reason, raised by `step`. -/
inductive Fault
  /-- Raised by `step` when the program counter is at `HALT_ADDR`: the end of a run (R78, D23, log 15).
  Safe: nothing follows. -/
  | haltAddressReached
  deriving DecidableEq, Repr

/-- The spec's `refuse(<reason>)` (R8): the spec gives the case no meaning, and the model stops. Every
one is safe: no claim about what the hardware does next can be proved. -/
inductive Refusal
  /-- An instruction whose meaning is not written. No arm of `exec` raises it. -/
  | notModelled (mnemonic : String)
  /-- R92: condition field 1111. Raised by `step`. -/
  | condNv
  /-- R93 lines 1 and 2, R5. Raised by `step`. -/
  | outOfScopeMultiply
  /-- R93 line 3, R5. Raised by `step`. -/
  | outOfScopeSwap
  /-- R93 line 4, R5. Raised by `step`. -/
  | outOfScopeHalfword
  /-- R93 lines 11 and 12, R5. Raised by `step`. -/
  | outOfScopeSingleTransfer
  /-- R93 lines 16 and 17, R5. Raised by `step`. -/
  | outOfScopeCoprocessor
  /-- R106: decode class 9, or a PSR transfer with a fixed field violated. Raised by `step`. -/
  | reservedEncoding
  /-- R100: a compare with Rd neither 0000 nor 1111. Raised by `step`. -/
  | compareRdReserved
  /-- R100: MOV or MVN with Rn not 0000. Raised by `step`. -/
  | movRnReserved
  /-- R210, R211: MRS with Rd = 15, MSR with Rm = 15. -/
  | psrTransferR15
  /-- R98: R15 with a register-specified shift. -/
  | r15WithRegisterShift
  /-- R137: a P form in a 32-bit mode. -/
  | pFormIn32bitMode
  /-- R154, R186: Rd = R15 with S, or LDM with R15 and S, in User32. -/
  | noSpsrInUser32
  /-- R210, R211: MRS or MSR naming the SPSR in a user mode. -/
  | noSpsrInUserMode
  /-- R154, R186, R214: a mode number outside the ten would be written to CPSR.M. -/
  | illegalModeValue
  /-- R189: LDM or STM with an empty list. -/
  | ldmStmEmptyList
  /-- R189: LDM or STM with base R15. -/
  | ldmStmBaseR15
  /-- R189: LDM with write-back and the base in the list. -/
  | ldmBaseInListWriteback
  /-- R189: STM with write-back and the base in the list, not lowest. -/
  | stmBaseInListWriteback
  /-- R187, R189: a user-bank transfer in a user mode. -/
  | userBankTransferInUserMode
  /-- R187, R189: a user-bank transfer with write-back. -/
  | userBankTransferWithWriteback
  /-- R25, D13: a PC with bits 1:0 not 00 written in a 32-bit mode. -/
  | pcUnaligned32
  /-- R25, R294: entering a 26-bit mode outside the 26-bit space. -/
  | enter26Outside26bitSpace
  /-- R295: sequential execution past 0x03FFFFFC in a 26-bit mode. -/
  | sequentialWrap26
  /-- R295: sequential execution past 0xFFFFFFFC in a 32-bit mode. -/
  | sequentialWrap32
  /-- R296: an address executed in both widths without an IMB. Raised by `step`. -/
  | sharedCodeWithoutImb
  /-- R298: a banked register used just after a mode change. Raised by `step`. -/
  | bankedRegisterAfterModeChange
  /-- R299: a banked register used just after a user-bank LDM. Raised by `step`. -/
  | bankedRegisterAfterUserBankLdm
  deriving DecidableEq, Repr

/-- A program status register (R27, R29): 32 bits, of which eleven are named. `reserved` holds bits 27:8
(its upper 20 bits) and bit 5 (its lowest bit), R28. -/
structure Psr where
  n : Bool
  z : Bool
  c : Bool
  v : Bool
  i : Bool
  f : Bool
  m : ModeBits
  reserved : BitVec 21
  deriving DecidableEq, Repr

/-- The register banks (R26, Bank column). -/
inductive Bank
  | usr | fiq | irq | svc | abt | und
  deriving DecidableEq, Repr

/-- The number of a physical general register (R21): 0 to 14 the User copies R0 to R14, 15 to 21 R8_fiq to
R14_fiq, 22 and 23 R13_irq and R14_irq, 24 and 25 the svc pair, 26 and 27 the abt pair, 28 and 29 the
und pair. -/
abbrev PhysReg := Fin 30

/-- Memory: (address, byte) pairs, addresses strictly rising, no entry 0x00, the value of an unlisted
byte (R60; DESIGN CHOICE, log 4). `Memory.wf` says the form holds. -/
abbrev Memory := List Host.Cell

/-- BankHazard (R298, R299) with its cause: which of the two refusals it leads to, and for a mode change
whether the old or the new mode is a FIQ mode (log 8). -/
inductive BankHazard
  | clear
  | modeChange (fiq : Bool)
  | userBankLdm
  deriving DecidableEq, Repr

/-- The state (R20), and the model's own fields `platform`, `inputs`, `steps` and `draws` (log 1, 5, 16). -/
structure State where
  /-- The 30 general registers (R21). -/
  regs       : Vector Word 30
  /-- During an instruction, the address of that instruction (R23). -/
  pc         : Word
  cpsr       : Psr
  spsrFiq    : Psr
  spsrIrq    : Psr
  spsrSvc    : Psr
  spsrAbt    : Psr
  spsrUnd    : Psr
  mem        : Memory
  /-- IHist (R35): for a word, the values it has held since the last IMB or reset besides its present
  one; a word with none has no entry (log 6). -/
  stale      : List (WordAddr × List Word)
  /-- Seen26 (R36): the words executed in a 26-bit mode since the last IMB or reset (log 7). -/
  exec26     : List WordAddr
  /-- Seen32 (R36), likewise for the 32-bit modes (log 7). -/
  exec32     : List WordAddr
  bankHazard : BankHazard
  /-- The parameters of R6 (log 1). -/
  platform   : Config.Platform
  /-- The external inputs at the coming steps, oldest first, as far as they are given; the steps after the
  last see the lines of Config (log 16). -/
  inputs     : List Config.Input
  /-- The number of the coming step, the argument of `IrqLine` and `FiqLine` (R6, log 16). -/
  steps      : Nat
  /-- How many free values have been drawn (log 5). -/
  draws      : Nat
  deriving DecidableEq, Repr

/-- What an instruction or a step answers. -/
abbrev Result := Host.Outcome State Fault Refusal

/-- A PSR with every bit 0: the reset value of the five SPSRs (DESIGN CHOICE, log 2). -/
def Psr.zero : Psr :=
  { n := false, z := false, c := false, v := false, i := false, f := false, m := 0b00000#5, reserved := 0#21 }

/-- The platform of State.reset: the defaults R6 gives (little-endian, identity translation), the OPEN
parameters as constants without a value, and no `HALT_ADDR` (log 3). -/
def resetPlatform : Config.Platform :=
  { bigEndian := false
    storePcOffset := Config.storePcOffset
    prefetchWords := Config.prefetchWords
    vectorWriteAbort26 := Config.vectorWriteAbort26
    aborts := Config.aborts
    translate := []
    abortModel := Config.abortModel
    modeChangeBankHazard := Config.modeChangeBankHazard
    haltAddr := none }

/-- The state after reset (R290): PC 0, Supervisor32, I = F = 1, IHist single-valued, tags empty, no
hazard. What R290 leaves unspecified has the value log 2 names (DESIGN CHOICE). -/
def State.reset : State :=
  { regs := Vector.replicate 30 0#32
    pc := 0x00000000#32
    cpsr := { n := false, z := false, c := false, v := false, i := true, f := true, m := 0b10011#5, reserved := 0#21 }
    spsrFiq := Psr.zero
    spsrIrq := Psr.zero
    spsrSvc := Psr.zero
    spsrAbt := Psr.zero
    spsrUnd := Psr.zero
    mem := []
    stale := []
    exec26 := []
    exec32 := []
    bankHazard := .clear
    platform := resetPlatform
    inputs := []
    steps := 0
    draws := 0 }

end Sys2Proof.Machine
end

