-- ==== Sys2Proof/Machine/Modes.lean ====
section
/-! DEFINITION. The ten modes, the PSR layouts and the conditions (spec/10_state.md R26, R27, R31, R33,
spec/30_encoding.md R91, R92). -/

namespace Sys2Proof.Machine

/-- R26: the ten mode numbers. -/
def modeNumbers : List ModeBits :=
  [0b00000#5, 0b00001#5, 0b00010#5, 0b00011#5, 0b10000#5, 0b10001#5, 0b10010#5, 0b10011#5, 0b10111#5, 0b11011#5]

/-- R26: the value is one of the ten modes. -/
def isMode (m : ModeBits) : Bool := modeNumbers.contains m

/-- R26: `Is26(m) = (m[4] == 0)`. -/
def is26 (m : ModeBits) : Bool := !m.getLsbD 4

/-- R26: `IsUser(m)`. -/
def isUser (m : ModeBits) : Bool := m == 0b00000#5 || m == 0b10000#5

/-- R26: `Bank(m)`. For a value that is no mode: the User bank (log 22). -/
def bankOf (m : ModeBits) : Bank :=
  if m == 0b00001#5 || m == 0b10001#5 then .fiq
  else if m == 0b00010#5 || m == 0b10010#5 then .irq
  else if m == 0b00011#5 || m == 0b10011#5 then .svc
  else if m == 0b10111#5 then .abt
  else if m == 0b11011#5 then .und
  else .usr

/-- The PSR of a 32-bit value in the layout of R27. -/
def Psr.ofWord (w : Word) : Psr :=
  { n := w.getLsbD 31, z := w.getLsbD 30, c := w.getLsbD 29, v := w.getLsbD 28
    i := w.getLsbD 7, f := w.getLsbD 6, m := w.extractLsb' 0 5
    reserved := w.extractLsb' 8 20 ++ w.extractLsb' 5 1 }

/-- The value MRS reads (R210): the eleven named bits in the layout of R27, and `free` in the reserved
positions 27:8 and 5. -/
def Psr.read (p : Psr) (free : BitVec 21) : Word :=
  BitVec.ofBool p.n ++ BitVec.ofBool p.z ++ BitVec.ofBool p.c ++ BitVec.ofBool p.v ++ free.extractLsb' 1 20 ++
    BitVec.ofBool p.i ++ BitVec.ofBool p.f ++ free.extractLsb' 0 1 ++ p.m

/-- R31: `PSR26()`, the status bits in their R15 positions. -/
def Psr.r15Bits (p : Psr) : Word :=
  BitVec.ofBool p.n ++ BitVec.ofBool p.z ++ BitVec.ofBool p.c ++ BitVec.ofBool p.v ++ BitVec.ofBool p.i ++
    BitVec.ofBool p.f ++ 0#24 ++ p.m.extractLsb' 0 2

/-- The flag part of MSR and of `WritePSR26`: N, Z, C, V from bits 31:28. -/
def Psr.withFlags (p : Psr) (v : Word) : Psr :=
  { p with n := v.getLsbD 31, z := v.getLsbD 30, c := v.getLsbD 29, v := v.getLsbD 28 }

/-- R33: `WritePSR26(v)`. M[4:2], the reserved bits and every SPSR are unchanged. -/
def Psr.write26 (p : Psr) (v : Word) : Psr :=
  if isUser p.m then p.withFlags v
  else { p.withFlags v with
         i := v.getLsbD 27, f := v.getLsbD 26, m := p.m.extractLsb' 2 3 ++ v.extractLsb' 0 2 }

/-- The control part of MSR (R211): I, F, M from bits 7, 6, 4:0. -/
def Psr.withControl (p : Psr) (v : Word) : Psr :=
  { p with i := v.getLsbD 7, f := v.getLsbD 6, m := v.extractLsb' 0 5 }

/-- R91, R92: `ConditionPassed(cond)` on the flags of `p`. -/
def condPassed (c : Cond) (p : Psr) : Bool :=
  match c with
  | .eq => p.z
  | .ne => !p.z
  | .cs => p.c
  | .cc => !p.c
  | .mi => p.n
  | .pl => !p.n
  | .vs => p.v
  | .vc => !p.v
  | .hi => p.c && !p.z
  | .ls => !p.c || p.z
  | .ge => p.n == p.v
  | .lt => p.n != p.v
  | .gt => !p.z && p.n == p.v
  | .le => p.z || p.n != p.v
  | .al => true

end Sys2Proof.Machine
end

