-- ==== Sys2Proof/Machine/Flags.lean ====
section
/-! DEFINITION. The arithmetic helpers and every flag computation (spec/40_compare_p.md R130,
spec/41_data_processing_r15.md R151, R155 to R166). -/

namespace Sys2Proof.Machine

/-- The three results of `AddWithCarry`. -/
structure Sum where
  value : Word
  carry : Bool
  ovf   : Bool
  deriving DecidableEq, Repr

/-- R130: `AddWithCarry(a, b, cin)`, computed on the exact natural-number sum. -/
def addWithCarry (a b : Word) (cin : Bool) : Sum :=
  let usum := a.toNat + b.toNat + cin.toNat
  let result := BitVec.ofNat 32 usum
  { value := result
    carry := decide (2 ^ 32 ≤ usum)
    ovf := a.getLsbD 31 == b.getLsbD 31 && result.getLsbD 31 != a.getLsbD 31 }

/-- R130: `SetLogicalFlags`; V is unchanged. -/
def setLogicalFlags (p : Psr) (result : Word) (shifterC : Bool) : Psr :=
  { p with n := result.getLsbD 31, z := result == 0, c := shifterC }

/-- R130: `SetArithFlags`. -/
def setArithFlags (p : Psr) (r : Sum) : Psr :=
  { p with n := r.value.getLsbD 31, z := r.value == 0, c := r.carry, v := r.ovf }

/-- A result and the PSR after the ordinary flag setting. -/
structure Alu where
  value : Word
  psr   : Psr
  deriving DecidableEq, Repr

/-- A logical result (R151). -/
def logical (p : Psr) (shifterC : Bool) (result : Word) : Alu :=
  { value := result, psr := setLogicalFlags p result shifterC }

/-- An arithmetic result (R151). -/
def arith (p : Psr) (r : Sum) : Alu :=
  { value := r.value, psr := setArithFlags p r }

/-- R155 to R166: `compute(Op1, Op2, CPSR.C)` and the flags of R151. `p` is the CPSR before the
instruction. -/
def dpCompute (op : DpOp) (a b : Word) (p : Psr) (shifterC : Bool) : Alu :=
  match op with
  | .and => logical p shifterC (a &&& b)
  | .eor => logical p shifterC (a ^^^ b)
  | .sub => arith p (addWithCarry a (~~~b) true)
  | .rsb => arith p (addWithCarry b (~~~a) true)
  | .add => arith p (addWithCarry a b false)
  | .adc => arith p (addWithCarry a b p.c)
  | .sbc => arith p (addWithCarry a (~~~b) p.c)
  | .rsc => arith p (addWithCarry b (~~~a) p.c)
  | .orr => logical p shifterC (a ||| b)
  | .mov => logical p shifterC b
  | .bic => logical p shifterC (a &&& ~~~b)
  | .mvn => logical p shifterC (~~~b)

/-- R131 to R134: the result of a compare and the flags its normal form sets; the P forms use the result
alone (R138 to R141). -/
def cmpCompute (op : CmpOp) (a b : Word) (p : Psr) (shifterC : Bool) : Alu :=
  match op with
  | .tst => logical p shifterC (a &&& b)
  | .teq => logical p shifterC (a ^^^ b)
  | .cmp => arith p (addWithCarry a (~~~b) true)
  | .cmn => arith p (addWithCarry a b false)

end Sys2Proof.Machine
end

