-- ==== Sys2Proof/Machine/Ops.lean ====
section
/-! DEFINITION. The named operations over registers, memory and the program counter, taking an exception
and returning from one (spec/10_state.md, spec/20_memory.md, spec/60_exceptions.md). -/

namespace Sys2Proof.Machine

/-! ### Registers -/

/-- R22: the physical registers that R0 to R14 reach in each bank, in order. -/
def bankTable : Bank → List PhysReg
  | .usr => [0, 1, 2, 3, 4, 5, 6, 7, 8, 9, 10, 11, 12, 13, 14]
  | .fiq => [0, 1, 2, 3, 4, 5, 6, 7, 15, 16, 17, 18, 19, 20, 21]
  | .irq => [0, 1, 2, 3, 4, 5, 6, 7, 8, 9, 10, 11, 12, 22, 23]
  | .svc => [0, 1, 2, 3, 4, 5, 6, 7, 8, 9, 10, 11, 12, 24, 25]
  | .abt => [0, 1, 2, 3, 4, 5, 6, 7, 8, 9, 10, 11, 12, 26, 27]
  | .und => [0, 1, 2, 3, 4, 5, 6, 7, 8, 9, 10, 11, 12, 28, 29]

/-- The physical register of register number `i` in bank `b`; R15 has none (R21). -/
def physReg (b : Bank) (i : RegNo) : Option PhysReg := (bankTable b)[i.val]?

/-- R22: read register `i` (0 to 14) in bank `b`. Number 15 is never read here: R32 says what each
instruction reads for it. -/
def readReg (s : State) (b : Bank) (i : RegNo) : Word :=
  match physReg b i with
  | some p => s.regs[p]
  | none => s.pc

/-- R22: write register `i` (0 to 14) in bank `b`; number 15 is written by `jump` alone. -/
def writeReg (s : State) (b : Bank) (i : RegNo) (v : Word) : State :=
  match physReg b i with
  | some p => { s with regs := s.regs.set p v }
  | none => s

/-- The bank of the current mode. -/
def curBank (s : State) : Bank := bankOf s.cpsr.m

/-- R8: `x[i]`. -/
def getX (s : State) (i : RegNo) : Word := readReg s (curBank s) i

/-- R8: `x[i] <- v`. -/
def setX (s : State) (i : RegNo) (v : Word) : State := writeReg s (curBank s) i v

/-- R29: the SPSR of a bank; usr has none. -/
def getSpsr (s : State) : Bank → Option Psr
  | .usr => none
  | .fiq => some s.spsrFiq
  | .irq => some s.spsrIrq
  | .svc => some s.spsrSvc
  | .abt => some s.spsrAbt
  | .und => some s.spsrUnd

/-- R29: write the SPSR of a bank. -/
def setSpsr (s : State) (b : Bank) (p : Psr) : State :=
  match b with
  | .usr => s
  | .fiq => { s with spsrFiq := p }
  | .irq => { s with spsrIrq := p }
  | .svc => { s with spsrSvc := p }
  | .abt => { s with spsrAbt := p }
  | .und => { s with spsrUnd := p }

/-! ### R15 -/

/-- Bits 31:26 and 1:0 dropped (R25, R33): the address of a word in the 26-bit space. -/
def trunc26 (w : Word) : Word := w &&& 0x03FFFFFC#32

/-- R32: `R15pc(k)`. -/
def r15pc (s : State) (k : Word) : Word :=
  if is26 s.cpsr.m then (s.pc + k) &&& 0x03FFFFFF#32 else s.pc + k

/-- R32: `R15full(k)`. -/
def r15full (s : State) (k : Word) : Word :=
  if is26 s.cpsr.m then r15pc s k ||| s.cpsr.r15Bits else s.pc + k

/-- R294: bits 31:26 are not all zero. -/
def outside26 (w : Word) : Bool := w.extractLsb' 26 6 != 0#6

/-- D13: bits 1:0 are not 00. -/
def unaligned (w : Word) : Bool := w.extractLsb' 0 2 != 0#2

/-- R25: `pc <- target`, after every other write of the instruction. `mOld` is the mode the instruction
started in; the mode in `s` is the new one, and `s.pc` still is the instruction's own address. -/
def jump (mOld : ModeBits) (target : Word) (s : State) : Result :=
  if is26 s.cpsr.m then
    if is26 mOld then .next { s with pc := trunc26 target }
    else if outside26 target || outside26 s.pc then .refused .enter26Outside26bitSpace
    else if unaligned target then .refused .pcUnaligned32
    else .next { s with pc := target }
  else if is26 mOld then .next { s with pc := trunc26 target }
  else if unaligned target then .refused .pcUnaligned32
  else .next { s with pc := target }

/-- `pc <- PC + 4` (R25), with the two forbidden wraps of R295. -/
def advance (mOld : ModeBits) (s : State) : Result :=
  if is26 mOld && s.pc == 0x03FFFFFC#32 then .refused .sequentialWrap26
  else if !is26 mOld && s.pc == 0xFFFFFFFC#32 then .refused .sequentialWrap32
  else jump mOld (s.pc + 4#32) s

/-- R9 step 3, R92: an instruction whose condition fails does nothing but `pc <- PC + 4`. -/
def whenPassed (c : Cond) (s : State) (run : Result) : Result :=
  if condPassed c s.cpsr then run else advance s.cpsr.m s

/-! ### Memory -/

/-- What a byte of memory that nothing has written reads as (DESIGN CHOICE, log 4). -/
def unlistedByte : Byte := 0x00#8

/-- Read one byte. -/
def Memory.read : Memory → Nat → Byte
  | [], _ => unlistedByte
  | (k, v) :: m, a => if k = a then v else Memory.read m a

/-- Write one byte, keeping the canonical form. -/
def Memory.write : Memory → Nat → Byte → Memory
  | [], a, b => if b = unlistedByte then [] else [(a, b)]
  | (k, v) :: m, a, b =>
    if a < k then (if b = unlistedByte then (k, v) :: m else (a, b) :: (k, v) :: m)
    else if a = k then (if b = unlistedByte then m else (a, b) :: m)
    else (k, v) :: Memory.write m a b

/-- Every address listed is above `lo`, rising, below 2^32, with a byte that is not the unlisted one. -/
def Memory.wfFrom : Nat → Memory → Bool
  | _, [] => true
  | lo, (k, v) :: m => decide (lo ≤ k) && decide (k < 2 ^ 32) && v != unlistedByte && Memory.wfFrom (k + 1) m

/-- The canonical form of memory. -/
def Memory.wf (m : Memory) : Bool := Memory.wfFrom 0 m

/-- R63: the word that an address lies in; bits 1:0 are ignored. -/
def wordAddr (a : Word) : WordAddr := a.extractLsb' 2 30

/-- The byte address of byte `k` of a word. -/
def byteAddr (w : WordAddr) (k : Nat) : Nat := 4 * w.toNat + k

/-- R60, R61: the word at a physical word address. -/
def readWord (s : State) (w : WordAddr) : Word :=
  wordOfBytes s.platform.bigEndian (Memory.read s.mem (byteAddr w 0)) (Memory.read s.mem (byteAddr w 1))
    (Memory.read s.mem (byteAddr w 2)) (Memory.read s.mem (byteAddr w 3))

/-- The four bytes of a word stored. -/
def writeBytes (bigEndian : Bool) (m : Memory) (w : WordAddr) (v : Word) : Memory :=
  Memory.write (Memory.write (Memory.write (Memory.write m (byteAddr w 0) (byteOfWord bigEndian v 0))
    (byteAddr w 1) (byteOfWord bigEndian v 1)) (byteAddr w 2) (byteOfWord bigEndian v 2))
    (byteAddr w 3) (byteOfWord bigEndian v 3)

/-- The stale values listed for a word (R35, log 6). -/
def staleOf : List (WordAddr × List Word) → WordAddr → List Word
  | [], _ => []
  | (k, l) :: t, w => if k = w then l else staleOf t w

/-- Remove the entry of a word. -/
def dropStale : List (WordAddr × List Word) → WordAddr → List (WordAddr × List Word)
  | [], _ => []
  | (k, l) :: t, w => if k = w then t else (k, l) :: dropStale t w

/-- Replace the entry of a word; an empty list of values has no entry. -/
def putStale (t : List (WordAddr × List Word)) (w : WordAddr) (l : List Word) : List (WordAddr × List Word) :=
  if l = [] then dropStale t w else (w, l) :: dropStale t w

/-- R35: `IHist[w]`, the present value first. -/
def ihist (s : State) (w : WordAddr) : List Word := readWord s w :: staleOf s.stale w

/-- The store of R62: `word(w) <- v` and `IHist[w] <- IHist[w] U { v }`. -/
def storeWord (s : State) (w : WordAddr) (v : Word) : State :=
  { s with
    mem := writeBytes s.platform.bigEndian s.mem w v
    stale := putStale s.stale w ((ihist s w).filter (· != v)) }

/-- R62 `Translate`: the physical word of a virtual word. -/
def translateIn : List (WordAddr × WordAddr) → WordAddr → WordAddr
  | [], w => w
  | (va, pa) :: t, w => if va = w then pa else translateIn t w

/-- R62 `Translate`. -/
def translate (s : State) (w : WordAddr) : WordAddr := translateIn s.platform.translate w

/-- One rule of the abort decision matches an access. -/
def ruleMatches (r : Config.AbortRule) (a : Nat) (k : Config.Access) (m : ModeBits) : Bool :=
  decide (r.lo ≤ a) && decide (a ≤ r.hi) && (r.access == none || r.access == some k) &&
    (r.mode == none || r.mode == some m)

/-- The first rule that matches an access decides it (log 12). -/
def abortDecision : List Config.AbortRule → Nat → Config.Access → ModeBits → Bool
  | [], _, _, _ => false
  | r :: t, a, k, m => if ruleMatches r a k m then r.aborts else abortDecision t a k m

/-- R6 `AbortOracle`, for an access to the word `w` in the current mode. -/
def aborts (s : State) (k : Config.Access) (w : WordAddr) : Bool :=
  abortDecision s.platform.aborts (byteAddr w 0) k s.cpsr.m

/-- R62: `MemRead(addr, 4)`; `none` is a data abort. -/
def memRead (s : State) (addr : Word) : Option Word :=
  if aborts s .dataRead (wordAddr addr) then none else some (readWord s (translate s (wordAddr addr)))

/-- R68: the write goes to a protected vector. -/
def vectorProtected (s : State) (w : WordAddr) : Bool :=
  is26 s.cpsr.m && decide (byteAddr w 0 ≤ 0x1C) && s.platform.vectorWriteAbort26

/-- R62: the data write to `addr` is aborted. -/
def writeAborts (s : State) (addr : Word) : Bool :=
  vectorProtected s (wordAddr addr) || aborts s .dataWrite (wordAddr addr)

/-- R62: `MemWrite(addr, 4, v)`; `none` is a data abort. -/
def memWrite (s : State) (addr v : Word) : Option State :=
  if writeAborts s addr then none else some (storeWord s (translate s (wordAddr addr)) v)

/-- R74: `IMB()`. -/
def imbFlush (s : State) : State := { s with stale := [], exec26 := [], exec32 := [] }

/-! ### Free values -/

/-- R8 `draw`: a free word, and the counter moved on. -/
def drawWord (s : State) : Word × State := (Config.freeWord s.draws, { s with draws := s.draws + 1 })

/-! ### Exceptions -/

/-- The exceptions of R250. -/
inductive Exc
  | reset | undefined | swi | prefetchAbort | dataAbort | irq | fiq
  deriving DecidableEq, Repr

/-- R251: the vector address. -/
def Exc.vector : Exc → Word
  | .reset => 0x00000000#32
  | .undefined => 0x00000004#32
  | .swi => 0x00000008#32
  | .prefetchAbort => 0x0000000C#32
  | .dataAbort => 0x00000010#32
  | .irq => 0x00000018#32
  | .fiq => 0x0000001C#32

/-- R251: the mode entered. -/
def Exc.mode : Exc → ModeBits
  | .reset => 0b10011#5
  | .undefined => 0b11011#5
  | .swi => 0b10011#5
  | .prefetchAbort => 0b10111#5
  | .dataAbort => 0b10111#5
  | .irq => 0b10010#5
  | .fiq => 0b10001#5

/-- R251: F is set by Reset and FIQ, else unchanged. -/
def Exc.setsF : Exc → Bool
  | .reset | .fiq => true
  | _ => false

/-- R252: `Enter(exc, link)`. BankHazard is cleared (R298). -/
def enter (e : Exc) (link : Word) (s : State) : State :=
  let old := s.cpsr
  let s1 := setSpsr (writeReg s (bankOf e.mode) 14 link) (bankOf e.mode) old
  { s1 with
    cpsr := { old with m := e.mode, i := true, f := old.f || e.setsF }
    pc := e.vector
    bankHazard := .clear }

/-- R154, R186, R265: the return from an exception. CPSR <- SPSR of the current mode, pc <- target. -/
def exceptionReturn (target : Word) (s : State) : Result :=
  if isUser s.cpsr.m then .refused .noSpsrInUser32
  else
    match getSpsr s (curBank s) with
    | none => .refused .illegalModeValue
    | some p =>
      if isMode p.m then jump s.cpsr.m target { s with cpsr := p } else .refused .illegalModeValue

/-! ### R15 as a destination, and mode changes -/

/-- The write of R15 with the S bit (R153, R154, R185, R186): in a 26-bit mode the PSR comes from the
value, in a 32-bit mode from the SPSR. -/
def writeR15S (v : Word) (s : State) : Result :=
  if is26 s.cpsr.m then jump s.cpsr.m v { s with cpsr := s.cpsr.write26 v } else exceptionReturn v s

/-- R298: set BankHazard when the mode in `s` has another bank than `mOld` and the parameter says so. -/
def noteModeChange (mOld : ModeBits) (s : State) : State :=
  if bankOf mOld != curBank s && s.platform.modeChangeBankHazard
  then { s with bankHazard := .modeChange (bankOf mOld == .fiq || curBank s == .fiq) }
  else s

end Sys2Proof.Machine
end

