-- ==== Sys2Proof/Machine/Operands.lean ====
section
/-! DEFINITION. Every operand form (spec/30_encoding.md R96 to R99, spec/10_state.md R32). -/

namespace Sys2Proof.Machine

/-- An operand 2 and the shifter's carry-out. -/
structure Shifted where
  value : Word
  carry : Bool
  deriving DecidableEq, Repr

/-- R96, R211: the 8-bit immediate rotated right by twice the rotate field. -/
def immValue (o : ImmOp) : Word := (o.imm8.zeroExtend 32).rotateRight (2 * o.rotate.toNat)

/-- R96. -/
def immOperand (o : ImmOp) (cIn : Bool) : Shifted :=
  { value := immValue o, carry := if o.rotate == 0#4 then cIn else (immValue o).getLsbD 31 }

/-- R97: the shift of `m` by an immediate amount `n` (0 to 31). -/
def shiftByImm (ty : ShiftType) (n : Nat) (m : Word) (cIn : Bool) : Shifted :=
  match ty with
  | .lsl => if n = 0 then ⟨m, cIn⟩ else ⟨m <<< n, m.getLsbD (32 - n)⟩
  | .lsr => if n = 0 then ⟨0#32, m.getLsbD 31⟩ else ⟨m >>> n, m.getLsbD (n - 1)⟩
  | .asr =>
    if n = 0 then ⟨if m.getLsbD 31 then 0xFFFFFFFF#32 else 0#32, m.getLsbD 31⟩
    else ⟨m.sshiftRight n, m.getLsbD (n - 1)⟩
  | .ror =>
    if n = 0 then ⟨BitVec.ofBool cIn ++ m.extractLsb' 1 31, m.getLsbD 0⟩
    else ⟨m.rotateRight n, m.getLsbD (n - 1)⟩

/-- R98: the shift of `m` by a register amount `n` (0 to 255). -/
def shiftByReg (ty : ShiftType) (n : Nat) (m : Word) (cIn : Bool) : Shifted :=
  if n = 0 then ⟨m, cIn⟩
  else
    match ty with
    | .lsl =>
      if n < 32 then ⟨m <<< n, m.getLsbD (32 - n)⟩
      else if n = 32 then ⟨0#32, m.getLsbD 0⟩
      else ⟨0#32, false⟩
    | .lsr =>
      if n < 32 then ⟨m >>> n, m.getLsbD (n - 1)⟩
      else if n = 32 then ⟨0#32, m.getLsbD 31⟩
      else ⟨0#32, false⟩
    | .asr =>
      if n < 32 then ⟨m.sshiftRight n, m.getLsbD (n - 1)⟩
      else ⟨if m.getLsbD 31 then 0xFFFFFFFF#32 else 0#32, m.getLsbD 31⟩
    | .ror =>
      if n % 32 = 0 then ⟨m, m.getLsbD 31⟩
      else ⟨m.rotateRight (n % 32), m.getLsbD (n % 32 - 1)⟩

/-- R32, R99: the first operand; R15 reads without status bits. -/
def readRn (s : State) (rn : RegNo) : Word := if rn = 15 then r15pc s 8#32 else getX s rn

/-- R32, R99: Rm with an immediate shift; R15 reads with status bits in a 26-bit mode. -/
def readRm (s : State) (rm : RegNo) : Word := if rm = 15 then r15full s 8#32 else getX s rm

/-- R96 to R98: operand 2 and the shifter's carry-out. -/
def operand2 (s : State) (o : Operand2) : Shifted :=
  match o with
  | .imm o => immOperand o s.cpsr.c
  | .immShift o => shiftByImm o.ty o.amount.toNat (readRm s o.rm) s.cpsr.c
  | .regShift o => shiftByReg o.ty ((getX s o.rs).toNat % 256) (getX s o.rm) s.cpsr.c

/-- R98: with a register-specified shift, one of the given register fields, Rm or Rs is R15. -/
def r15WithRegShift (o : Operand2) (fields : List RegNo) : Bool :=
  match o with
  | .regShift o => o.rm == 15 || o.rs == 15 || fields.contains 15
  | _ => false

end Sys2Proof.Machine
end

