-- ==== Sys2Proof/Machine/BlockTransfer.lean ====
section
/-! DEFINITION. LDM and STM (spec/42_block_transfer.md R180 to R192). -/

namespace Sys2Proof.Machine

/-- The register numbers in ascending order. -/
def regNumbers : List RegNo := [0, 1, 2, 3, 4, 5, 6, 7, 8, 9, 10, 11, 12, 13, 14, 15]

/-- The listed registers in ascending order (R181). -/
def listedRegs (list : BitVec 16) : List RegNo := regNumbers.filter fun i => list.getLsbD i.val

/-- R181: `4n`, four times the number of listed registers. -/
def listBytes (list : BitVec 16) : Word := BitVec.ofNat 32 (4 * (listedRegs list).length)

/-- R181, `start`. -/
def blockStart (o : BlockOp) (base : Word) : Word :=
  match o.p, o.u with
  | false, true => base
  | true, true => base + 4#32
  | false, false => base - listBytes o.list + 4#32
  | true, false => base - listBytes o.list

/-- R181, `wb`. -/
def blockWriteBack (o : BlockOp) (base : Word) : Word :=
  if o.u then base + listBytes o.list else base - listBytes o.list

/-- R182, R187: the transfer uses the User bank: S = 1, and not an LDM with R15 in the list. -/
def userBankTransfer (load : Bool) (o : BlockOp) : Bool := o.s && !(load && o.list.getLsbD 15)

/-- R189: a listed register has a lower number than the base. -/
def lowerListed (o : BlockOp) : Bool := (listedRegs o.list).any fun i => decide (i < o.rn)

/-- R189: the refused forms, in the order of its table (log 11). -/
def blockRefusal (load : Bool) (o : BlockOp) (m : ModeBits) : Option Refusal :=
  if o.list == 0#16 then some .ldmStmEmptyList
  else if o.rn == 15 then some .ldmStmBaseR15
  else if load && o.w && o.list.getLsbD o.rn.val then some .ldmBaseInListWriteback
  else if !load && o.w && o.list.getLsbD o.rn.val && lowerListed o then some .stmBaseInListWriteback
  else if userBankTransfer load o && isUser m then some .userBankTransferInUserMode
  else if userBankTransfer load o && o.w then some .userBankTransferWithWriteback
  else if load && o.s && o.list.getLsbD 15 && m == 0b10000#5 then some .noSpsrInUser32
  else none

/-- The bank the listed registers are taken from or loaded into (R182, R183, R187). -/
def blockBank (load : Bool) (o : BlockOp) (s : State) : Bank :=
  if userBankTransfer load o then .usr else curBank s

/-- The write-back of R182 and R183. -/
def writeBack (o : BlockOp) (wb : Word) (s : State) : State := if o.w then setX s o.rn wb else s

/-- R190: the base register after a data abort; it is also written when the register was listed (log 14). -/
def abortBase (o : BlockOp) (base wb : Word) (s : State) : State :=
  setX s o.rn (if o.w && s.platform.abortModel == .baseUpdated then wb else base)

/-! ### LDM -/

/-- R182: the words of `n` consecutive addresses, up to the first read that aborts. -/
def loadWords (s : State) : Nat → Word → List Word
  | 0, _ => []
  | n + 1, addr =>
    match memRead s addr with
    | none => []
    | some v => v :: loadWords s n (addr + 4#32)

/-- R182: load the registers R0 to R14 of the list; R15 is written last, by `ldmFinish`. -/
def loadRegs (b : Bank) (s : State) (l : List (RegNo × Word)) : State :=
  l.foldl (fun s rv => writeReg s b rv.1 rv.2) s

/-- R190: each register loaded before the abort keeps its old value or has the loaded one (a draw). -/
def drawLoads (b : Bank) (s : State) (l : List (RegNo × Word)) : State :=
  l.foldl (fun s rv =>
    { (if rv.1 ≠ 15 ∧ Config.freeBool s.draws = true then writeReg s b rv.1 rv.2 else s) with
      draws := s.draws + 1 }) s

/-- R182, the end: R15 (R184 to R186), or `pc <- PC + 4`; a user-bank LDM sets BankHazard (R299). -/
def ldmFinish (o : BlockOp) (v15 : Word) (s : State) : Result :=
  if o.list.getLsbD 15 then
    if o.s then writeR15S v15 s else jump s.cpsr.m v15 s
  else advance s.cpsr.m (if o.s then { s with bankHazard := .userBankLdm } else s)

/-- R182. -/
def execLdm (c : Cond) (o : BlockOp) (s : State) : Result :=
  whenPassed c s <|
    match blockRefusal true o s.cpsr.m with
    | some r => .refused r
    | none =>
      let regs := listedRegs o.list
      let base := getX s o.rn
      let wb := blockWriteBack o base
      let b := blockBank true o s
      let vals := loadWords s regs.length (blockStart o base)
      if vals.length < regs.length then
        .next (enter .dataAbort (r15pc s 8#32) (abortBase o base wb (drawLoads b s (regs.zip vals))))
      else
        ldmFinish o (vals.getLastD 0#32) (writeBack o wb (loadRegs b s (regs.zip vals)))

/-! ### STM -/

/-- R183, R188: the value stored for a listed register. -/
def storedValue (o : BlockOp) (s : State) (i : RegNo) : Word :=
  if i = 15 then r15full s (match s.platform.storePcOffset with | .eight => 8#32 | .twelve => 12#32)
  else readReg s (blockBank false o s) i

/-- R190: after the word that aborted, each later word is written or not (a draw); a word whose own access
aborts is not written (R62, R68, log 13). -/
def drawStores (s : State) : List Word → Word → State
  | [], _ => s
  | v :: vs, addr =>
    let s1 := if Config.freeBool s.draws then (memWrite s addr v).getD s else s
    drawStores { s1 with draws := s.draws + 1 } vs (addr + 4#32)

/-- R183: the words stored at consecutive addresses, in order. The truth value says that all were
stored; when one aborts, the later ones are drawn (R190). -/
def storeWords (s : State) : List Word → Word → State × Bool
  | [], _ => (s, true)
  | v :: vs, addr =>
    match memWrite s addr v with
    | some s1 => storeWords s1 vs (addr + 4#32)
    | none => (drawStores s vs (addr + 4#32), false)

/-- R183. -/
def execStm (c : Cond) (o : BlockOp) (s : State) : Result :=
  whenPassed c s <|
    match blockRefusal false o s.cpsr.m with
    | some r => .refused r
    | none =>
      let base := getX s o.rn
      let wb := blockWriteBack o base
      let r := storeWords s ((listedRegs o.list).map (storedValue o s)) (blockStart o base)
      if r.2 then advance s.cpsr.m (writeBack o wb r.1)
      else .next (enter .dataAbort (r15pc s 8#32) (abortBase o base wb r.1))

end Sys2Proof.Machine
end

