-- ==== Sys2Proof/Machine/Branch.lean ====
section
/-! DEFINITION. B and BL (spec/43_branch.md R200, R201). -/

namespace Sys2Proof.Machine

/-- R200: `R15pc(8) + (sext_24(offset24) << 2)`. -/
def branchTarget (s : State) (offset : BitVec 24) : Word := r15pc s 8#32 + (offset.signExtend 32 <<< 2)

/-- R200. -/
def execB (c : Cond) (offset : BitVec 24) (s : State) : Result :=
  whenPassed c s <| jump s.cpsr.m (branchTarget s offset) s

/-- R201. -/
def execBl (c : Cond) (offset : BitVec 24) (s : State) : Result :=
  whenPassed c s <| jump s.cpsr.m (branchTarget s offset) (setX s 14 (r15full s 4#32))

end Sys2Proof.Machine
end

