-- ==== Sys2Proof/Machine/Compare.lean ====
section
/-! DEFINITION. TST, TEQ, CMP, CMN and their P forms, in their three operand formats
(spec/40_compare_p.md R131 to R141). -/

namespace Sys2Proof.Machine

/-- R131 to R134: the normal form sets the flags and writes no register. -/
def compare (op : CmpOp) (c : Cond) (rn : RegNo) (o : Operand2) (s : State) : Result :=
  whenPassed c s <|
    if r15WithRegShift o [rn] then .refused .r15WithRegisterShift
    else
      let op2 := operand2 s o
      advance s.cpsr.m { s with cpsr := (cmpCompute op (readRn s rn) op2.value s.cpsr op2.carry).psr }

/-- R136, R137: the P form copies result bits to the PSR in a 26-bit mode. Its Rd field is 1111 (R100), so
with a register-specified shift it is refused (R98, R106). -/
def compareP (op : CmpOp) (c : Cond) (rn : RegNo) (o : Operand2) (s : State) : Result :=
  whenPassed c s <|
    if r15WithRegShift o [15, rn] then .refused .r15WithRegisterShift
    else if !is26 s.cpsr.m then .refused .pFormIn32bitMode
    else
      let op2 := operand2 s o
      let r := (cmpCompute op (readRn s rn) op2.value s.cpsr op2.carry).value
      advance s.cpsr.m (noteModeChange s.cpsr.m { s with cpsr := s.cpsr.write26 r })

/-- R131 TST, immediate operand. -/
def execTstImm (c : Cond) (rn : RegNo) (o : ImmOp) (s : State) : Result :=
  compare .tst c rn (.imm o) s

/-- R131 TST, register shifted by an immediate. -/
def execTstImmShift (c : Cond) (rn : RegNo) (o : ImmShiftOp) (s : State) : Result :=
  compare .tst c rn (.immShift o) s

/-- R131 TST, register shifted by a register. -/
def execTstRegShift (c : Cond) (rn : RegNo) (o : RegShiftOp) (s : State) : Result :=
  compare .tst c rn (.regShift o) s

/-- R138 TSTP, immediate operand. -/
def execTstpImm (c : Cond) (rn : RegNo) (o : ImmOp) (s : State) : Result :=
  compareP .tst c rn (.imm o) s

/-- R138 TSTP, register shifted by an immediate. -/
def execTstpImmShift (c : Cond) (rn : RegNo) (o : ImmShiftOp) (s : State) : Result :=
  compareP .tst c rn (.immShift o) s

/-- R138 TSTP, register shifted by a register. -/
def execTstpRegShift (c : Cond) (rn : RegNo) (o : RegShiftOp) (s : State) : Result :=
  compareP .tst c rn (.regShift o) s

/-- R132 TEQ, immediate operand. -/
def execTeqImm (c : Cond) (rn : RegNo) (o : ImmOp) (s : State) : Result :=
  compare .teq c rn (.imm o) s

/-- R132 TEQ, register shifted by an immediate. -/
def execTeqImmShift (c : Cond) (rn : RegNo) (o : ImmShiftOp) (s : State) : Result :=
  compare .teq c rn (.immShift o) s

/-- R132 TEQ, register shifted by a register. -/
def execTeqRegShift (c : Cond) (rn : RegNo) (o : RegShiftOp) (s : State) : Result :=
  compare .teq c rn (.regShift o) s

/-- R139 TEQP, immediate operand. -/
def execTeqpImm (c : Cond) (rn : RegNo) (o : ImmOp) (s : State) : Result :=
  compareP .teq c rn (.imm o) s

/-- R139 TEQP, register shifted by an immediate. -/
def execTeqpImmShift (c : Cond) (rn : RegNo) (o : ImmShiftOp) (s : State) : Result :=
  compareP .teq c rn (.immShift o) s

/-- R139 TEQP, register shifted by a register. -/
def execTeqpRegShift (c : Cond) (rn : RegNo) (o : RegShiftOp) (s : State) : Result :=
  compareP .teq c rn (.regShift o) s

/-- R133 CMP, immediate operand. -/
def execCmpImm (c : Cond) (rn : RegNo) (o : ImmOp) (s : State) : Result :=
  compare .cmp c rn (.imm o) s

/-- R133 CMP, register shifted by an immediate. -/
def execCmpImmShift (c : Cond) (rn : RegNo) (o : ImmShiftOp) (s : State) : Result :=
  compare .cmp c rn (.immShift o) s

/-- R133 CMP, register shifted by a register. -/
def execCmpRegShift (c : Cond) (rn : RegNo) (o : RegShiftOp) (s : State) : Result :=
  compare .cmp c rn (.regShift o) s

/-- R140 CMPP, immediate operand. -/
def execCmppImm (c : Cond) (rn : RegNo) (o : ImmOp) (s : State) : Result :=
  compareP .cmp c rn (.imm o) s

/-- R140 CMPP, register shifted by an immediate. -/
def execCmppImmShift (c : Cond) (rn : RegNo) (o : ImmShiftOp) (s : State) : Result :=
  compareP .cmp c rn (.immShift o) s

/-- R140 CMPP, register shifted by a register. -/
def execCmppRegShift (c : Cond) (rn : RegNo) (o : RegShiftOp) (s : State) : Result :=
  compareP .cmp c rn (.regShift o) s

/-- R134 CMN, immediate operand. -/
def execCmnImm (c : Cond) (rn : RegNo) (o : ImmOp) (s : State) : Result :=
  compare .cmn c rn (.imm o) s

/-- R134 CMN, register shifted by an immediate. -/
def execCmnImmShift (c : Cond) (rn : RegNo) (o : ImmShiftOp) (s : State) : Result :=
  compare .cmn c rn (.immShift o) s

/-- R134 CMN, register shifted by a register. -/
def execCmnRegShift (c : Cond) (rn : RegNo) (o : RegShiftOp) (s : State) : Result :=
  compare .cmn c rn (.regShift o) s

/-- R141 CMNP, immediate operand. -/
def execCmnpImm (c : Cond) (rn : RegNo) (o : ImmOp) (s : State) : Result :=
  compareP .cmn c rn (.imm o) s

/-- R141 CMNP, register shifted by an immediate. -/
def execCmnpImmShift (c : Cond) (rn : RegNo) (o : ImmShiftOp) (s : State) : Result :=
  compareP .cmn c rn (.immShift o) s

/-- R141 CMNP, register shifted by a register. -/
def execCmnpRegShift (c : Cond) (rn : RegNo) (o : RegShiftOp) (s : State) : Result :=
  compareP .cmn c rn (.regShift o) s

end Sys2Proof.Machine
end

