-- ==== Sys2Proof/Machine/DataProcessing.lean ====
section
/-! DEFINITION. The twelve data-processing instructions that write a destination, in their three operand
formats (spec/41_data_processing_r15.md R150 to R166). -/

namespace Sys2Proof.Machine

/-- R150, the end: the destination and the flags. -/
def writeResult (sb : Bool) (rd : RegNo) (r : Alu) (s : State) : Result :=
  if rd = 15 then
    if sb then writeR15S r.value s else jump s.cpsr.m r.value s
  else advance s.cpsr.m { setX s rd r.value with cpsr := if sb then r.psr else s.cpsr }

/-- R150: the execution all twelve share. -/
def dataProc (op : DpOp) (c : Cond) (sb : Bool) (rd rn : RegNo) (o : Operand2) (s : State) : Result :=
  whenPassed c s <|
    if r15WithRegShift o [rd, rn] then .refused .r15WithRegisterShift
    else
      let op2 := operand2 s o
      writeResult sb rd (dpCompute op (readRn s rn) op2.value s.cpsr op2.carry) s

/-- R155 AND, immediate operand. -/
def execAndImm (c : Cond) (sb : Bool) (rd rn : RegNo) (o : ImmOp) (s : State) : Result :=
  dataProc .and c sb rd rn (.imm o) s

/-- R155 AND, register shifted by an immediate. -/
def execAndImmShift (c : Cond) (sb : Bool) (rd rn : RegNo) (o : ImmShiftOp) (s : State) : Result :=
  dataProc .and c sb rd rn (.immShift o) s

/-- R155 AND, register shifted by a register. -/
def execAndRegShift (c : Cond) (sb : Bool) (rd rn : RegNo) (o : RegShiftOp) (s : State) : Result :=
  dataProc .and c sb rd rn (.regShift o) s

/-- R156 EOR, immediate operand. -/
def execEorImm (c : Cond) (sb : Bool) (rd rn : RegNo) (o : ImmOp) (s : State) : Result :=
  dataProc .eor c sb rd rn (.imm o) s

/-- R156 EOR, register shifted by an immediate. -/
def execEorImmShift (c : Cond) (sb : Bool) (rd rn : RegNo) (o : ImmShiftOp) (s : State) : Result :=
  dataProc .eor c sb rd rn (.immShift o) s

/-- R156 EOR, register shifted by a register. -/
def execEorRegShift (c : Cond) (sb : Bool) (rd rn : RegNo) (o : RegShiftOp) (s : State) : Result :=
  dataProc .eor c sb rd rn (.regShift o) s

/-- R157 SUB, immediate operand. -/
def execSubImm (c : Cond) (sb : Bool) (rd rn : RegNo) (o : ImmOp) (s : State) : Result :=
  dataProc .sub c sb rd rn (.imm o) s

/-- R157 SUB, register shifted by an immediate. -/
def execSubImmShift (c : Cond) (sb : Bool) (rd rn : RegNo) (o : ImmShiftOp) (s : State) : Result :=
  dataProc .sub c sb rd rn (.immShift o) s

/-- R157 SUB, register shifted by a register. -/
def execSubRegShift (c : Cond) (sb : Bool) (rd rn : RegNo) (o : RegShiftOp) (s : State) : Result :=
  dataProc .sub c sb rd rn (.regShift o) s

/-- R158 RSB, immediate operand. -/
def execRsbImm (c : Cond) (sb : Bool) (rd rn : RegNo) (o : ImmOp) (s : State) : Result :=
  dataProc .rsb c sb rd rn (.imm o) s

/-- R158 RSB, register shifted by an immediate. -/
def execRsbImmShift (c : Cond) (sb : Bool) (rd rn : RegNo) (o : ImmShiftOp) (s : State) : Result :=
  dataProc .rsb c sb rd rn (.immShift o) s

/-- R158 RSB, register shifted by a register. -/
def execRsbRegShift (c : Cond) (sb : Bool) (rd rn : RegNo) (o : RegShiftOp) (s : State) : Result :=
  dataProc .rsb c sb rd rn (.regShift o) s

/-- R159 ADD, immediate operand. -/
def execAddImm (c : Cond) (sb : Bool) (rd rn : RegNo) (o : ImmOp) (s : State) : Result :=
  dataProc .add c sb rd rn (.imm o) s

/-- R159 ADD, register shifted by an immediate. -/
def execAddImmShift (c : Cond) (sb : Bool) (rd rn : RegNo) (o : ImmShiftOp) (s : State) : Result :=
  dataProc .add c sb rd rn (.immShift o) s

/-- R159 ADD, register shifted by a register. -/
def execAddRegShift (c : Cond) (sb : Bool) (rd rn : RegNo) (o : RegShiftOp) (s : State) : Result :=
  dataProc .add c sb rd rn (.regShift o) s

/-- R160 ADC, immediate operand. -/
def execAdcImm (c : Cond) (sb : Bool) (rd rn : RegNo) (o : ImmOp) (s : State) : Result :=
  dataProc .adc c sb rd rn (.imm o) s

/-- R160 ADC, register shifted by an immediate. -/
def execAdcImmShift (c : Cond) (sb : Bool) (rd rn : RegNo) (o : ImmShiftOp) (s : State) : Result :=
  dataProc .adc c sb rd rn (.immShift o) s

/-- R160 ADC, register shifted by a register. -/
def execAdcRegShift (c : Cond) (sb : Bool) (rd rn : RegNo) (o : RegShiftOp) (s : State) : Result :=
  dataProc .adc c sb rd rn (.regShift o) s

/-- R161 SBC, immediate operand. -/
def execSbcImm (c : Cond) (sb : Bool) (rd rn : RegNo) (o : ImmOp) (s : State) : Result :=
  dataProc .sbc c sb rd rn (.imm o) s

/-- R161 SBC, register shifted by an immediate. -/
def execSbcImmShift (c : Cond) (sb : Bool) (rd rn : RegNo) (o : ImmShiftOp) (s : State) : Result :=
  dataProc .sbc c sb rd rn (.immShift o) s

/-- R161 SBC, register shifted by a register. -/
def execSbcRegShift (c : Cond) (sb : Bool) (rd rn : RegNo) (o : RegShiftOp) (s : State) : Result :=
  dataProc .sbc c sb rd rn (.regShift o) s

/-- R162 RSC, immediate operand. -/
def execRscImm (c : Cond) (sb : Bool) (rd rn : RegNo) (o : ImmOp) (s : State) : Result :=
  dataProc .rsc c sb rd rn (.imm o) s

/-- R162 RSC, register shifted by an immediate. -/
def execRscImmShift (c : Cond) (sb : Bool) (rd rn : RegNo) (o : ImmShiftOp) (s : State) : Result :=
  dataProc .rsc c sb rd rn (.immShift o) s

/-- R162 RSC, register shifted by a register. -/
def execRscRegShift (c : Cond) (sb : Bool) (rd rn : RegNo) (o : RegShiftOp) (s : State) : Result :=
  dataProc .rsc c sb rd rn (.regShift o) s

/-- R163 ORR, immediate operand. -/
def execOrrImm (c : Cond) (sb : Bool) (rd rn : RegNo) (o : ImmOp) (s : State) : Result :=
  dataProc .orr c sb rd rn (.imm o) s

/-- R163 ORR, register shifted by an immediate. -/
def execOrrImmShift (c : Cond) (sb : Bool) (rd rn : RegNo) (o : ImmShiftOp) (s : State) : Result :=
  dataProc .orr c sb rd rn (.immShift o) s

/-- R163 ORR, register shifted by a register. -/
def execOrrRegShift (c : Cond) (sb : Bool) (rd rn : RegNo) (o : RegShiftOp) (s : State) : Result :=
  dataProc .orr c sb rd rn (.regShift o) s

/-- R164 MOV, immediate operand; no first operand (R100). -/
def execMovImm (c : Cond) (sb : Bool) (rd : RegNo) (o : ImmOp) (s : State) : Result :=
  dataProc .mov c sb rd 0 (.imm o) s

/-- R164 MOV, register shifted by an immediate; no first operand (R100). -/
def execMovImmShift (c : Cond) (sb : Bool) (rd : RegNo) (o : ImmShiftOp) (s : State) : Result :=
  dataProc .mov c sb rd 0 (.immShift o) s

/-- R164 MOV, register shifted by a register; no first operand (R100). -/
def execMovRegShift (c : Cond) (sb : Bool) (rd : RegNo) (o : RegShiftOp) (s : State) : Result :=
  dataProc .mov c sb rd 0 (.regShift o) s

/-- R165 BIC, immediate operand. -/
def execBicImm (c : Cond) (sb : Bool) (rd rn : RegNo) (o : ImmOp) (s : State) : Result :=
  dataProc .bic c sb rd rn (.imm o) s

/-- R165 BIC, register shifted by an immediate. -/
def execBicImmShift (c : Cond) (sb : Bool) (rd rn : RegNo) (o : ImmShiftOp) (s : State) : Result :=
  dataProc .bic c sb rd rn (.immShift o) s

/-- R165 BIC, register shifted by a register. -/
def execBicRegShift (c : Cond) (sb : Bool) (rd rn : RegNo) (o : RegShiftOp) (s : State) : Result :=
  dataProc .bic c sb rd rn (.regShift o) s

/-- R166 MVN, immediate operand; no first operand (R100). -/
def execMvnImm (c : Cond) (sb : Bool) (rd : RegNo) (o : ImmOp) (s : State) : Result :=
  dataProc .mvn c sb rd 0 (.imm o) s

/-- R166 MVN, register shifted by an immediate; no first operand (R100). -/
def execMvnImmShift (c : Cond) (sb : Bool) (rd : RegNo) (o : ImmShiftOp) (s : State) : Result :=
  dataProc .mvn c sb rd 0 (.immShift o) s

/-- R166 MVN, register shifted by a register; no first operand (R100). -/
def execMvnRegShift (c : Cond) (sb : Bool) (rd : RegNo) (o : RegShiftOp) (s : State) : Result :=
  dataProc .mvn c sb rd 0 (.regShift o) s

end Sys2Proof.Machine
end

