-- ==== Sys2Proof/Machine/PsrTransfer.lean ====
section
/-! DEFINITION. MRS and MSR (spec/44_psr_transfer.md R210 to R214). -/

namespace Sys2Proof.Machine

/-- R210: the PSR that bit 22 selects, for reading; a user mode has no SPSR. -/
def selectedPsr (spsr : Bool) (s : State) : Option Psr := if spsr then getSpsr s (curBank s) else some s.cpsr

/-- R210. The reserved positions read as a draw (R28). -/
def execMrs (c : Cond) (spsr : Bool) (rd : RegNo) (s : State) : Result :=
  whenPassed c s <|
    if rd = 15 then .refused .psrTransferR15
    else
      match selectedPsr spsr s with
      | none => .refused .noSpsrInUserMode
      | some p =>
        let d := drawWord s
        advance s.cpsr.m (setX d.2 rd (p.read (d.1.extractLsb' 0 21)))

/-- R211, CPSR: the f field in every mode, the c field in a privileged mode (R213, R214). -/
def msrCpsr (mask : BitVec 4) (v : Word) (s : State) : Result :=
  let p := if mask.getLsbD 3 then s.cpsr.withFlags v else s.cpsr
  if mask.getLsbD 0 && !isUser s.cpsr.m then
    if isMode (v.extractLsb' 0 5)
    then advance s.cpsr.m (noteModeChange s.cpsr.m { s with cpsr := p.withControl v })
    else .refused .illegalModeValue
  else advance s.cpsr.m { s with cpsr := p }

/-- R211, SPSR of the current mode: any mode number may be written. -/
def msrSpsr (mask : BitVec 4) (v : Word) (s : State) : Result :=
  match getSpsr s (curBank s) with
  | none => .refused .noSpsrInUserMode
  | some p =>
    let p1 := if mask.getLsbD 3 then p.withFlags v else p
    let p2 := if mask.getLsbD 0 then p1.withControl v else p1
    advance s.cpsr.m (setSpsr s (curBank s) p2)

/-- R211: the write of `v` to the selected PSR. -/
def msr (spsr : Bool) (mask : BitVec 4) (v : Word) (s : State) : Result :=
  if spsr then msrSpsr mask v s else msrCpsr mask v s

/-- R211, register source. -/
def execMsrReg (c : Cond) (spsr : Bool) (mask : BitVec 4) (rm : RegNo) (s : State) : Result :=
  whenPassed c s <| if rm = 15 then .refused .psrTransferR15 else msr spsr mask (getX s rm) s

/-- R211, immediate source: assembled as R96, without the carry. -/
def execMsrImm (c : Cond) (spsr : Bool) (mask : BitVec 4) (o : ImmOp) (s : State) : Result :=
  whenPassed c s <| msr spsr mask (immValue o) s

end Sys2Proof.Machine
end

