-- ==== Sys2Proof/Machine/System.lean ====
section
/-! DEFINITION. SWI, IMB, IMBRange and the undefined-instruction trap (spec/45_swi_imb.md R230 to R234,
spec/60_exceptions.md R254, R255). -/

namespace Sys2Proof.Machine

/-- R254: the Software Interrupt. -/
def takeSwi (s : State) : State := enter .swi (r15pc s 4#32) s

/-- R232. -/
def execImb (c : Cond) (s : State) : Result := whenPassed c s <| .next (takeSwi (imbFlush s))

/-- R233: on the ARM810 the range is not used (R75, R234). -/
def execImbRange (c : Cond) (s : State) : Result := whenPassed c s <| .next (takeSwi (imbFlush s))

/-- R230: the processor ignores the comment field, but for the two IMB numbers. -/
def execSwi (c : Cond) (comment : BitVec 24) (s : State) : Result :=
  whenPassed c s <|
    .next (takeSwi (if comment == imbComment || comment == imbRangeComment then imbFlush s else s))

/-- R107, R255. The free bits of the encoding play no part. -/
def execUndefined (c : Cond) (_hi : BitVec 20) (_lo : BitVec 4) (s : State) : Result :=
  whenPassed c s <| .next (enter .undefined (r15pc s 4#32) s)

end Sys2Proof.Machine
end

