-- ==== Sys2Proof/Machine/Dispatch.lean ====
section
/-! DEFINITION. The meaning of each instruction: one arm per constructor of `Instr`. -/

namespace Sys2Proof.Machine

/-- Step 4 of spec/00_scope.md R9 for one instruction at the program counter. -/
def exec (i : Instr) (s : State) : Host.Outcome State Fault Refusal :=
  match i with
  | .mrs c p rd => Sys2Proof.Machine.execMrs c p rd s
  | .msrReg c p m rm => Sys2Proof.Machine.execMsrReg c p m rm s
  | .msrImm c p m o => Sys2Proof.Machine.execMsrImm c p m o s
  | .andImm c sb rd rn o => Sys2Proof.Machine.execAndImm c sb rd rn o s
  | .eorImm c sb rd rn o => Sys2Proof.Machine.execEorImm c sb rd rn o s
  | .subImm c sb rd rn o => Sys2Proof.Machine.execSubImm c sb rd rn o s
  | .rsbImm c sb rd rn o => Sys2Proof.Machine.execRsbImm c sb rd rn o s
  | .addImm c sb rd rn o => Sys2Proof.Machine.execAddImm c sb rd rn o s
  | .adcImm c sb rd rn o => Sys2Proof.Machine.execAdcImm c sb rd rn o s
  | .sbcImm c sb rd rn o => Sys2Proof.Machine.execSbcImm c sb rd rn o s
  | .rscImm c sb rd rn o => Sys2Proof.Machine.execRscImm c sb rd rn o s
  | .tstImm c rn o => Sys2Proof.Machine.execTstImm c rn o s
  | .tstpImm c rn o => Sys2Proof.Machine.execTstpImm c rn o s
  | .teqImm c rn o => Sys2Proof.Machine.execTeqImm c rn o s
  | .teqpImm c rn o => Sys2Proof.Machine.execTeqpImm c rn o s
  | .cmpImm c rn o => Sys2Proof.Machine.execCmpImm c rn o s
  | .cmppImm c rn o => Sys2Proof.Machine.execCmppImm c rn o s
  | .cmnImm c rn o => Sys2Proof.Machine.execCmnImm c rn o s
  | .cmnpImm c rn o => Sys2Proof.Machine.execCmnpImm c rn o s
  | .orrImm c sb rd rn o => Sys2Proof.Machine.execOrrImm c sb rd rn o s
  | .movImm c sb rd o => Sys2Proof.Machine.execMovImm c sb rd o s
  | .bicImm c sb rd rn o => Sys2Proof.Machine.execBicImm c sb rd rn o s
  | .mvnImm c sb rd o => Sys2Proof.Machine.execMvnImm c sb rd o s
  | .andImmShift c sb rd rn o => Sys2Proof.Machine.execAndImmShift c sb rd rn o s
  | .eorImmShift c sb rd rn o => Sys2Proof.Machine.execEorImmShift c sb rd rn o s
  | .subImmShift c sb rd rn o => Sys2Proof.Machine.execSubImmShift c sb rd rn o s
  | .rsbImmShift c sb rd rn o => Sys2Proof.Machine.execRsbImmShift c sb rd rn o s
  | .addImmShift c sb rd rn o => Sys2Proof.Machine.execAddImmShift c sb rd rn o s
  | .adcImmShift c sb rd rn o => Sys2Proof.Machine.execAdcImmShift c sb rd rn o s
  | .sbcImmShift c sb rd rn o => Sys2Proof.Machine.execSbcImmShift c sb rd rn o s
  | .rscImmShift c sb rd rn o => Sys2Proof.Machine.execRscImmShift c sb rd rn o s
  | .tstImmShift c rn o => Sys2Proof.Machine.execTstImmShift c rn o s
  | .tstpImmShift c rn o => Sys2Proof.Machine.execTstpImmShift c rn o s
  | .teqImmShift c rn o => Sys2Proof.Machine.execTeqImmShift c rn o s
  | .teqpImmShift c rn o => Sys2Proof.Machine.execTeqpImmShift c rn o s
  | .cmpImmShift c rn o => Sys2Proof.Machine.execCmpImmShift c rn o s
  | .cmppImmShift c rn o => Sys2Proof.Machine.execCmppImmShift c rn o s
  | .cmnImmShift c rn o => Sys2Proof.Machine.execCmnImmShift c rn o s
  | .cmnpImmShift c rn o => Sys2Proof.Machine.execCmnpImmShift c rn o s
  | .orrImmShift c sb rd rn o => Sys2Proof.Machine.execOrrImmShift c sb rd rn o s
  | .movImmShift c sb rd o => Sys2Proof.Machine.execMovImmShift c sb rd o s
  | .bicImmShift c sb rd rn o => Sys2Proof.Machine.execBicImmShift c sb rd rn o s
  | .mvnImmShift c sb rd o => Sys2Proof.Machine.execMvnImmShift c sb rd o s
  | .andRegShift c sb rd rn o => Sys2Proof.Machine.execAndRegShift c sb rd rn o s
  | .eorRegShift c sb rd rn o => Sys2Proof.Machine.execEorRegShift c sb rd rn o s
  | .subRegShift c sb rd rn o => Sys2Proof.Machine.execSubRegShift c sb rd rn o s
  | .rsbRegShift c sb rd rn o => Sys2Proof.Machine.execRsbRegShift c sb rd rn o s
  | .addRegShift c sb rd rn o => Sys2Proof.Machine.execAddRegShift c sb rd rn o s
  | .adcRegShift c sb rd rn o => Sys2Proof.Machine.execAdcRegShift c sb rd rn o s
  | .sbcRegShift c sb rd rn o => Sys2Proof.Machine.execSbcRegShift c sb rd rn o s
  | .rscRegShift c sb rd rn o => Sys2Proof.Machine.execRscRegShift c sb rd rn o s
  | .tstRegShift c rn o => Sys2Proof.Machine.execTstRegShift c rn o s
  | .tstpRegShift c rn o => Sys2Proof.Machine.execTstpRegShift c rn o s
  | .teqRegShift c rn o => Sys2Proof.Machine.execTeqRegShift c rn o s
  | .teqpRegShift c rn o => Sys2Proof.Machine.execTeqpRegShift c rn o s
  | .cmpRegShift c rn o => Sys2Proof.Machine.execCmpRegShift c rn o s
  | .cmppRegShift c rn o => Sys2Proof.Machine.execCmppRegShift c rn o s
  | .cmnRegShift c rn o => Sys2Proof.Machine.execCmnRegShift c rn o s
  | .cmnpRegShift c rn o => Sys2Proof.Machine.execCmnpRegShift c rn o s
  | .orrRegShift c sb rd rn o => Sys2Proof.Machine.execOrrRegShift c sb rd rn o s
  | .movRegShift c sb rd o => Sys2Proof.Machine.execMovRegShift c sb rd o s
  | .bicRegShift c sb rd rn o => Sys2Proof.Machine.execBicRegShift c sb rd rn o s
  | .mvnRegShift c sb rd o => Sys2Proof.Machine.execMvnRegShift c sb rd o s
  | .ldm c o => Sys2Proof.Machine.execLdm c o s
  | .stm c o => Sys2Proof.Machine.execStm c o s
  | .b c off => Sys2Proof.Machine.execB c off s
  | .bl c off => Sys2Proof.Machine.execBl c off s
  | .imb c => Sys2Proof.Machine.execImb c s
  | .imbRange c => Sys2Proof.Machine.execImbRange c s
  | .swi c n => Sys2Proof.Machine.execSwi c n s
  | .undefined c hi lo => Sys2Proof.Machine.execUndefined c hi lo s

end Sys2Proof.Machine
end

