-- ==== Sys2Proof/Machine/Fetch.lean ====
section
/-! DEFINITION. What a step does before an instruction's own rule: the asynchronous exceptions, the fetch,
and the hazard checks (spec/00_scope.md R9 steps 1 to 3, spec/60_exceptions.md R259 to R262,
spec/20_memory.md R72, spec/70_reset_and_hazards.md R296, R298, R299). -/

namespace Sys2Proof.Machine

/-! ### Asynchronous exceptions -/

/-- The inputs of a step that State does not give: `IrqLine` and `FiqLine` of R6; no reset (R259, log 16). -/
def lineInput (n : Nat) : Config.Input := { reset := false, fiq := Config.fiqLine n, irq := Config.irqLine n }

/-- The inputs sampled at this step (R262, log 16). -/
def nextInput (s : State) : Config.Input := s.inputs.headD (lineInput s.steps)

/-- The inputs of this step are used up. -/
def popInput (s : State) : State := { s with inputs := s.inputs.tail, steps := s.steps + 1 }

/-- R262: Reset, else FIQ, else IRQ, with the masks as the previous instruction left them. -/
def pendingExc (s : State) : Option Exc :=
  if (nextInput s).reset then some .reset
  else if !s.cpsr.f && (nextInput s).fiq then some .fiq
  else if !s.cpsr.i && (nextInput s).irq then some .irq
  else none

/-- R259, R290: Reset during a run. What R290 leaves unspecified is drawn; memory is unchanged (log 17). -/
def takeReset (s : State) : State :=
  let n := s.draws
  let flags := Config.freeWord (n + 35)
  { s with
    regs := Vector.ofFn fun i => Config.freeWord (n + i.val)
    pc := Exc.reset.vector
    cpsr := { n := flags.getLsbD 31, z := flags.getLsbD 30, c := flags.getLsbD 29, v := flags.getLsbD 28,
              i := true, f := true, m := Exc.reset.mode, reserved := s.cpsr.reserved }
    spsrFiq := .ofWord (Config.freeWord (n + 30))
    spsrIrq := .ofWord (Config.freeWord (n + 31))
    spsrSvc := .ofWord (Config.freeWord (n + 32))
    spsrAbt := .ofWord (Config.freeWord (n + 33))
    spsrUnd := .ofWord (Config.freeWord (n + 34))
    stale := []
    exec26 := []
    exec32 := []
    bankHazard := .clear
    draws := n + 36 }

/-- R259 to R261: the entry of an asynchronous exception; the link is that of R253 for the instruction
that would have executed next. -/
def takeAsync (e : Exc) (s : State) : State :=
  match e with
  | .reset => takeReset s
  | e => enter e (r15pc s 4#32) s

/-! ### Fetch -/

/-- R72: the fetch at the program counter; `none` is a prefetch abort. A word without stale values is
fetched as it stands; else a free choice picks a member of IHist. -/
def fetch (s : State) : Option (Word × State) :=
  let p := translate s (wordAddr s.pc)
  if aborts s .fetch (wordAddr s.pc) then none
  else
    match staleOf s.stale p with
    | [] => some (readWord s p, s)
    | _ :: _ =>
      some ((ihist s p).getD (Config.freeChoice s.draws % (ihist s p).length) (readWord s p),
        { s with draws := s.draws + 1 })

/-- R256: the Prefetch Abort. -/
def takePrefetchAbort (s : State) : State := enter .prefetchAbort (r15pc s 4#32) s

/-! ### Mode-width tags -/

/-- R36: the word `a` lies in { e, e+4, ..., e+PREFETCH_MAX } modulo 2^26 for some executed `e` (log 7). -/
def inSeen26 (s : State) (a : WordAddr) : Bool :=
  decide (a.toNat < 2 ^ 24) &&
    s.exec26.any fun e => decide ((a - e).toNat % 2 ^ 24 ≤ s.platform.prefetchWords)

/-- R36: likewise modulo 2^32. -/
def inSeen32 (s : State) (a : WordAddr) : Bool :=
  s.exec32.any fun e => decide ((a - e).toNat ≤ s.platform.prefetchWords)

/-- Add a word to a set of executed words. -/
def addExecuted (l : List WordAddr) (a : WordAddr) : List WordAddr := if l.contains a then l else a :: l

/-- R36, R296: the instruction at the program counter is executed in the current width. -/
def tagExecuted (s : State) : State :=
  if is26 s.cpsr.m then { s with exec26 := addExecuted s.exec26 (wordAddr s.pc) }
  else { s with exec32 := addExecuted s.exec32 (wordAddr s.pc) }

/-- R296 `imb`: the word is an IMB or IMBRange whose condition passes. -/
def isImbPassed (w : Word) (s : State) : Bool :=
  match decode w with
  | .ok (.imb c) | .ok (.imbRange c) => condPassed c s.cpsr
  | _ => false

/-- R296: the word at the program counter is tagged for the other width and is no IMB. -/
def sharedCode (w : Word) (s : State) : Bool :=
  (if is26 s.cpsr.m then inSeen32 s (wordAddr s.pc) else inSeen26 s (wordAddr s.pc)) && !isImbPassed w s

/-! ### Banked registers after a mode change -/

/-- The general registers an operand 2 reads. -/
def operandRegs : Operand2 → List RegNo
  | .imm _ => []
  | .immShift o => [o.rm]
  | .regShift o => [o.rm, o.rs]

/-- R298: the register numbers an instruction names (Rn, Rd, Rm, Rs, a register list; BL writes
R14, log 9). -/
def regsUsed : Form → List RegNo
  | .dp op _ _ rd rn o => rd :: ((if op.hasNoRn then [] else [rn]) ++ operandRegs o)
  | .cmp _ _ _ rn o => rn :: operandRegs o
  | .mrs _ _ rd => [rd]
  | .msrReg _ _ _ rm => [rm]
  | .msrImm _ _ _ _ => []
  | .block _ _ o => o.rn :: listedRegs o.list
  | .branch link _ _ => if link then [14] else []
  | .imb _ | .imbRange _ | .swi _ _ | .undefined _ _ _ => []

/-- R13 and R14, and R8 to R12 when a FIQ mode is involved. -/
def isBanked (fiq : Bool) (r : RegNo) : Bool := r == 13 || r == 14 || (fiq && decide (8 ≤ r.val) && decide (r.val ≤ 12))

/-- R298, R299: the refusal under BankHazard of a word that names the given registers. -/
def hazardOn (regs : List RegNo) (s : State) : Option Refusal :=
  match s.bankHazard with
  | .clear => none
  | .modeChange fiq => if regs.any (isBanked fiq) then some .bankedRegisterAfterModeChange else none
  | .userBankLdm => if regs.any (isBanked (curBank s == .fiq)) then some .bankedRegisterAfterUserBankLdm else none

/-- R298, R299: the refusal of an instruction under BankHazard, before its condition is looked at (R9). -/
def bankHazardRefusal (i : Instr) (s : State) : Option Refusal := hazardOn (regsUsed i.form) s

/-- R298: BankHazard does not outlive the instruction after the one that set it. -/
def clearHazard (s : State) : State := { s with bankHazard := .clear }

/-! ### Words that are no instruction -/

/-- R106: the name of a refused word. -/
def rejectRefusal : Reject → Refusal
  | .condNv => .condNv
  | .multiply => .outOfScopeMultiply
  | .swap => .outOfScopeSwap
  | .halfword => .outOfScopeHalfword
  | .singleTransfer => .outOfScopeSingleTransfer
  | .coprocessor => .outOfScopeCoprocessor
  | .reservedEncoding => .reservedEncoding
  | .compareRd => .compareRdReserved
  | .movRn => .movRnReserved

/-- The registers that the fields of a rejected word name, by the formats of R94, R96 to R98 and R101. For a
class whose format the spec does not give: every field in which one of those formats has a register (log 10). -/
def rejectedRegs (w : Word) : List RegNo :=
  let rn := regOf (fieldOf w 16 4)
  let rd := regOf (fieldOf w 12 4)
  let rs := regOf (fieldOf w 8 4)
  let rm := regOf (fieldOf w 0 4)
  match classify w with
  | .dpImm => [rn, rd]
  | .dpImmShift => [rn, rd, rm]
  | .psrReg => if w.getLsbD 21 then [rm] else [rd]
  | .psrImm => []
  | _ => [rn, rd, rs, rm]

/-- R92, R106: a word the decoder rejects is refused by its name when its condition passes or is 1111. When
its condition fails it is refused under BankHazard (R9, R298), else skipped. -/
def runRejected (r : Reject) (w : Word) (s : State) : Result :=
  match condOf w with
  | none => .refused (rejectRefusal r)
  | some c =>
    if condPassed c s.cpsr then .refused (rejectRefusal r)
    else
      match hazardOn (rejectedRegs w) s with
      | some q => .refused q
      | none => advance s.cpsr.m (clearHazard s)

/-- R78, D23: the program counter is at `HALT_ADDR` (log 15). -/
def atHalt (s : State) : Bool := s.platform.haltAddr == some s.pc

/-! ### Placing a word for the next step -/

/-- The word `v` stored where the next step fetches, and the next step made to fetch it: no interrupt, no
prefetch abort, no hazard and no halt at this address. Nothing else changes. -/
def placeForFetch (s : State) (v : Word) : State :=
  let a := wordAddr s.pc
  let p := translate s a
  { s with
    mem := writeBytes s.platform.bigEndian s.mem p v
    stale := s.stale.filter fun e => e.1 != p
    exec26 := if is26 s.cpsr.m || !inSeen26 s a then s.exec26 else []
    exec32 := if !is26 s.cpsr.m || !inSeen32 s a then s.exec32 else []
    bankHazard := .clear
    inputs := Config.Input.quiet :: s.inputs.tail
    platform := { s.platform with
      aborts := ⟨byteAddr a 0, byteAddr a 0, some .fetch, some s.cpsr.m, false⟩ :: s.platform.aborts
      haltAddr := if s.platform.haltAddr == some s.pc then none else s.platform.haltAddr } }

end Sys2Proof.Machine
end

