-- ==== Sys2Proof/Machine/Run.lean ====
section
/-! DEFINITION. Executing a fetched word (spec/00_scope.md R9 steps 2 to 4). -/

namespace Sys2Proof.Machine

/-- R298, R299, then the instruction's own rule. -/
def runInstr (i : Instr) (s : State) : Result :=
  match bankHazardRefusal i s with
  | some r => .refused r
  | none => exec i (clearHazard s)

/-- R9 steps 2 to 4 for the fetched word: the check of R296, the tags of R36, decoding, execution. -/
def runWord (w : Word) (s : State) : Result :=
  if sharedCode w s then .refused .sharedCodeWithoutImb
  else
    match decode w with
    | .ok i => runInstr i (tagExecuted s)
    | .error r => runRejected r w (tagExecuted s)

/-- R9: one step of a machine that is not at `HALT_ADDR`. -/
def stepRunning (s : State) : Result :=
  match pendingExc s with
  | some e => .next (takeAsync e (popInput s))
  | none =>
    match fetch (popInput s) with
    | none => .next (takePrefetchAbort (popInput s))
    | some r => runWord r.1 r.2

end Sys2Proof.Machine
end

