-- ==== Sys2Proof/Machine/Step.lean ====
section
/-! DEFINITION. One step of the machine (spec/00_scope.md R9, spec/70_reset_and_hazards.md R305: one
instruction or one exception entry). -/

namespace Sys2Proof.Machine

/-- One step. -/
def step (s : State) : Host.Outcome State Fault Refusal :=
  if atHalt s then .fault .haltAddressReached else stepRunning s

/-- The state in which the next step fetches and runs the instruction whose bits are `w` (log 18). -/
def State.withFetchWord (s : State) (nbits w : Nat) : State :=
  placeForFetch s (BitVec.ofNat 32 (w % 2 ^ nbits))

end Sys2Proof.Machine
end

