-- ==== Sys2Proof/Safety.lean ====
section
/-! DEFINITION. What counts as a good state and a safe step, in the terms the statements use. -/

namespace Sys2Proof.Machine

/-- No word has two entries of stale values, and each entry is a nonempty list without repeats that does
not hold the word's present value: `IHist` (R35) in its one form (log 6). -/
def staleWf (s : State) : Bool :=
  decide (s.stale.map Prod.fst).Nodup &&
    s.stale.all fun e => decide (e.2 ≠ []) && decide e.2.Nodup && !e.2.contains (readWord s e.1)

/-- The state is one the rules describe: CPSR.M is one of the ten modes (R26), the PC is word aligned
(R23), in a 26-bit mode the top six PC bits are zero (R24), memory is in its canonical form (R60), and
Seen26 holds addresses of the 26-bit space only (R36). -/
abbrev Inv (s : State) : Prop :=
  isMode s.cpsr.m = true ∧ unaligned s.pc = false ∧ (is26 s.cpsr.m = true → outside26 s.pc = false) ∧
    Memory.wf s.mem = true ∧ (s.exec26.all fun e => decide (e.toNat < 2 ^ 24)) = true

/-- `pc <- PC + 4` is allowed in this state: the PC is aligned, in a 26-bit mode inside the 26-bit space,
and not at the last word of its space (R23, R24, R295). -/
abbrev Sequential (s : State) : Prop :=
  unaligned s.pc = false ∧
    (is26 s.cpsr.m = true → outside26 s.pc = false ∧ s.pc ≠ 0x03FFFFFC#32) ∧
    (is26 s.cpsr.m = false → s.pc ≠ 0xFFFFFFFC#32)

/-- A safe step: the machine goes on, it neither stops nor refuses. -/
def safeStep (s : State) : Prop := ∃ t, step s = .next t

end Sys2Proof.Machine
end

