-- ==== Sys2Proof/WellFormed.lean ====
section
/-! DEFINITION. Well-formed instructions. `encodable`: some word decodes to the term. `wellFormed`: the
term is encodable and is none of the forms that the spec refuses in every mode and state
(spec/30_encoding.md R98, spec/42_block_transfer.md R189, spec/44_psr_transfer.md R210, R211). -/

namespace Sys2Proof

/-- R111: an SWI with an IMB comment field is an IMB row, never the general SWI row. -/
def Form.swiOk : Form → Bool
  | .swi _ n => n != imbComment && n != imbRangeComment
  | _ => true

/-- R100: MOV and MVN have Rn = 0000. -/
def Form.movOk : Form → Bool
  | .dp op _ _ _ rn _ => !op.hasNoRn || rn == 0
  | _ => true

/-- Some word decodes to this form. -/
def Form.encodable (f : Form) : Bool := f.swiOk && f.movOk

/-- R98: no register field is R15 when operand 2 is shifted by a register; the Rd field of a P form is (R100). -/
def Form.regShiftOk : Form → Bool
  | .dp _ _ _ rd rn (.regShift o) => rd != 15 && rn != 15 && o.rm != 15 && o.rs != 15
  | .cmp _ p _ rn (.regShift o) => !p && rn != 15 && o.rm != 15 && o.rs != 15
  | _ => true

/-- R210, R211: neither Rd of MRS nor Rm of MSR is R15. -/
def Form.psrTransferOk : Form → Bool
  | .mrs _ _ rd => rd != 15
  | .msrReg _ _ _ rm => rm != 15
  | _ => true

/-- R189: the register list is not empty. -/
def Form.listOk : Form → Bool
  | .block _ _ o => o.list != 0
  | _ => true

/-- R189: the base register is not R15. -/
def Form.baseOk : Form → Bool
  | .block _ _ o => o.rn != 15
  | _ => true

/-- R189: no LDM writes its base back when it loads it. -/
def Form.ldmWritebackOk : Form → Bool
  | .block true _ o => !(o.w && o.list.getLsbD o.rn)
  | _ => true

/-- R189: an STM that writes its base back and stores it, stores it first. -/
def Form.stmWritebackOk : Form → Bool
  | .block false _ o => !(o.w && o.list.getLsbD o.rn && o.list.toNat % 2 ^ o.rn.val != 0)
  | _ => true

/-- R189: a user-bank transfer writes no base back. -/
def Form.userBankOk : Form → Bool
  | .block l _ o => !(o.s && !(l && o.list.getLsbD 15) && o.w)
  | _ => true

/-- Every check above. -/
def Form.wellFormed (f : Form) : Bool :=
  f.encodable && f.regShiftOk && f.psrTransferOk && f.listOk && f.baseOk && f.ldmWritebackOk &&
    f.stmWritebackOk && f.userBankOk

/-- Some word decodes to this instruction. -/
def Instr.encodable (i : Instr) : Bool := i.form.encodable

/-- The instruction is encodable and has a meaning in some mode and state. -/
def Instr.wellFormed (i : Instr) : Bool := i.form.wellFormed

end Sys2Proof
end

