-- ==== Sys2Proof/Certificates/Slice0/Obligations.lean ====
section
/-! DEFINITION. The statements for the provers, from the numbered rules of spec/. The helpers of namespace
Sys2Proof.Stated write results as the rules state them, in plain arithmetic, not with the model's own
adder, masks or address functions. -/

namespace Sys2Proof.Stated

open Sys2Proof.Machine

/-! ### Data processing (R130, R155 to R167) -/

/-- R155 to R166: the result. `c` is CPSR.C before the instruction. -/
def dpValue (op : DpOp) (a b : Word) (c : Bool) : Word :=
  match op with
  | .and => a &&& b
  | .eor => a ^^^ b
  | .sub => a - b
  | .rsb => b - a
  | .add => a + b
  | .adc => a + b + (if c then 1#32 else 0#32)
  | .sbc => a - b - (if c then 0#32 else 1#32)
  | .rsc => b - a - (if c then 0#32 else 1#32)
  | .orr => a ||| b
  | .mov => b
  | .bic => a &&& ~~~b
  | .mvn => ~~~b

/-- R130, R167: C is the carry of an addition, "no borrow" of a subtraction, else the shifter's carry-out. -/
def dpCarry (op : DpOp) (a b : Word) (c shifterC : Bool) : Bool :=
  match op with
  | .sub => decide (b.toNat ≤ a.toNat)
  | .rsb => decide (a.toNat ≤ b.toNat)
  | .add => decide (2 ^ 32 ≤ a.toNat + b.toNat)
  | .adc => decide (2 ^ 32 ≤ a.toNat + b.toNat + c.toNat)
  | .sbc => decide (b.toNat + (!c).toNat ≤ a.toNat)
  | .rsc => decide (a.toNat + (!c).toNat ≤ b.toNat)
  | _ => shifterC

/-- The exact signed result does not fit in 32 bits. -/
def signedOverflow (x : Int) : Bool := decide (x < -2147483648 ∨ 2147483647 < x)

/-- R130, R167: V is signed overflow; a logical operation leaves it unchanged. -/
def dpOverflow (op : DpOp) (a b : Word) (c v : Bool) : Bool :=
  match op with
  | .sub => signedOverflow (a.toInt - b.toInt)
  | .rsb => signedOverflow (b.toInt - a.toInt)
  | .add => signedOverflow (a.toInt + b.toInt)
  | .adc => signedOverflow (a.toInt + b.toInt + c.toNat)
  | .sbc => signedOverflow (a.toInt - b.toInt - (!c).toNat)
  | .rsc => signedOverflow (b.toInt - a.toInt - (!c).toNat)
  | _ => v

/-- R151: the PSR after the ordinary flag setting; I, F, M and the reserved bits as before. -/
def dpFlags (op : DpOp) (a b : Word) (p : Psr) (shifterC : Bool) : Psr :=
  { p with
    n := (dpValue op a b p.c).getLsbD 31
    z := dpValue op a b p.c == 0#32
    c := dpCarry op a b p.c shifterC
    v := dpOverflow op a b p.c p.v }

/-! ### Compares (R131 to R134) -/

/-- The result of a compare: "Op1+Op2, Op1-Op2, Op1 EOR Op2 and Op1 AND Op2 for CMN, CMP, TEQ and TST". -/
def cmpValue (op : CmpOp) (a b : Word) : Word :=
  match op with
  | .tst => a &&& b
  | .teq => a ^^^ b
  | .cmp => a - b
  | .cmn => a + b

/-- R131 to R134: N, Z, C, V of the normal form. -/
def cmpFlags (op : CmpOp) (a b : Word) (p : Psr) (shifterC : Bool) : Psr :=
  { p with
    n := (cmpValue op a b).getLsbD 31
    z := cmpValue op a b == 0#32
    c := match op with
      | .cmp => decide (b.toNat ≤ a.toNat)
      | .cmn => decide (2 ^ 32 ≤ a.toNat + b.toNat)
      | _ => shifterC
    v := match op with
      | .cmp => signedOverflow (a.toInt - b.toInt)
      | .cmn => signedOverflow (a.toInt + b.toInt)
      | _ => p.v }

/-- R33, R136: the PSR written from the bits of `v` in a 26-bit mode: N, Z, C, V always, I, F, M1, M0 in a
non-user mode. -/
def psrFrom26 (p : Psr) (v : Word) : Psr :=
  { p with
    n := v.getLsbD 31, z := v.getLsbD 30, c := v.getLsbD 29, v := v.getLsbD 28
    i := if p.m = 0b00000#5 then p.i else v.getLsbD 27
    f := if p.m = 0b00000#5 then p.f else v.getLsbD 26
    m := if p.m = 0b00000#5 then p.m else 0b000#3 ++ v.extractLsb' 0 2 }

/-- R298: BankHazard after an instruction that writes the PSR and not the PC, without the clearing at the
start of a step. -/
def hazardAfter (s : State) (mNew : ModeBits) : BankHazard :=
  if s.platform.modeChangeBankHazard = true ∧ bankOf s.cpsr.m ≠ bankOf mNew
  then .modeChange (bankOf s.cpsr.m == .fiq || bankOf mNew == .fiq)
  else s.bankHazard

/-! ### PSR transfer (R211) -/

/-- R211: a PSR after MSR; in a user mode the control field is ignored. -/
def msrPsr (p : Psr) (mask : BitVec 4) (v : Word) (user : Bool) : Psr :=
  { p with
    n := if mask.getLsbD 3 then v.getLsbD 31 else p.n
    z := if mask.getLsbD 3 then v.getLsbD 30 else p.z
    c := if mask.getLsbD 3 then v.getLsbD 29 else p.c
    v := if mask.getLsbD 3 then v.getLsbD 28 else p.v
    i := if mask.getLsbD 0 && !user then v.getLsbD 7 else p.i
    f := if mask.getLsbD 0 && !user then v.getLsbD 6 else p.f
    m := if mask.getLsbD 0 && !user then v.extractLsb' 0 5 else p.m }

/-- The two forms of MSR (R211): PSR selector, field mask and the value moved, when Rm is not R15. -/
def isMsr (i : Instr) (c : Cond) (spsr : Bool) (mask : BitVec 4) (v : Word) (s : State) : Prop :=
  (∃ rm, i = .msrReg c spsr mask rm ∧ rm ≠ 15 ∧ v = getX s rm) ∨
    ∃ o, i = .msrImm c spsr mask o ∧ v = (o.imm8.zeroExtend 32).rotateRight (2 * o.rotate.toNat)

/-! ### R15 (R31, R32, R201, R253) -/

/-- The address `k` bytes on from the instruction, 26 bits wide in a 26-bit mode (R32 `R15pc`). -/
def addressPlus (s : State) (k : Word) : Word :=
  if is26 s.cpsr.m then ((s.pc + k).extractLsb' 0 26).zeroExtend 32 else s.pc + k

/-- R31: the combined PC and PSR, with the address `k` bytes on; in a 32-bit mode the address alone. -/
def combinedPlus (s : State) (k : Word) : Word :=
  if is26 s.cpsr.m then
    BitVec.ofBool s.cpsr.n ++ BitVec.ofBool s.cpsr.z ++ BitVec.ofBool s.cpsr.c ++ BitVec.ofBool s.cpsr.v ++
      BitVec.ofBool s.cpsr.i ++ BitVec.ofBool s.cpsr.f ++ (s.pc + k).extractLsb' 2 24 ++ s.cpsr.m.extractLsb' 0 2
  else s.pc + k

/-- R200, R202: the target of a branch, modulo the width of the program space. -/
def branchTo (s : State) (offset : BitVec 24) : Word :=
  BitVec.ofInt 32 ((s.pc.toNat + 8 + 4 * offset.toInt) % (if is26 s.cpsr.m then 2 ^ 26 else 2 ^ 32))

/-- R33: a value written to R15 as an address: in a 26-bit mode bits 31:26 and 1:0 are dropped. -/
def pcFrom (s : State) (v : Word) : Word :=
  if is26 s.cpsr.m then 0#6 ++ v.extractLsb' 2 24 ++ 0#2 else v

/-! ### Exceptions (R252) -/

/-- `t` is the state after the entry of `e` from `s` with the given link: R14 and the SPSR of the entered
mode, M, I, F, the PC, and nothing else but BankHazard. -/
def Entered (s t : State) (e : Exc) (link : Word) : Prop :=
  t.pc = e.vector ∧
  t.cpsr = { s.cpsr with m := e.mode, i := true, f := if e = .reset ∨ e = .fiq then true else s.cpsr.f } ∧
  readReg t (bankOf e.mode) 14 = link ∧
  getSpsr t (bankOf e.mode) = some s.cpsr ∧
  (∀ p : PhysReg, physReg (bankOf e.mode) 14 ≠ some p → t.regs[p] = s.regs[p]) ∧
  (∀ b, b ≠ bankOf e.mode → getSpsr t b = getSpsr s b) ∧
  t.bankHazard = .clear ∧
  t.mem = s.mem ∧ t.platform = s.platform ∧ t.inputs = s.inputs ∧ t.steps = s.steps

/-! ### Block transfers (R181) -/

/-- How many registers below number `i` are listed. -/
def rank (list : BitVec 16) (i : Nat) : Nat := ((List.range i).filter fun j => list.getLsbD j).length

/-- The number of listed registers. -/
def count (list : BitVec 16) : Nat := rank list 16

/-- R181: the address of the `k`-th transfer, the base being `base`. -/
def transferAddr (o : BlockOp) (base : Word) (k : Nat) : Word :=
  (match o.p, o.u with
    | false, true => base
    | true, true => base + 4#32
    | false, false => base - BitVec.ofNat 32 (4 * count o.list) + 4#32
    | true, false => base - BitVec.ofNat 32 (4 * count o.list)) + BitVec.ofNat 32 (4 * k)

/-- R181: the write-back value. -/
def writeBackValue (o : BlockOp) (base : Word) : Word :=
  if o.u then base + BitVec.ofNat 32 (4 * count o.list) else base - BitVec.ofNat 32 (4 * count o.list)

/-- The virtual word of the `k`-th transfer. -/
def virtAt (s : State) (o : BlockOp) (k : Nat) : WordAddr := wordAddr (transferAddr o (getX s o.rn) k)

/-- The memory word the `k`-th transfer reaches. -/
def wordAt (s : State) (o : BlockOp) (k : Nat) : WordAddr := translate s (virtAt s o k)

/-- No read of the LDM aborts. -/
def readsReach (s : State) (o : BlockOp) : Prop := ∀ k, k < count o.list → aborts s .dataRead (virtAt s o k) = false

/-- The write of the `k`-th transfer aborts (R62): AbortOracle, or the protected vectors of R68. -/
def storeAborts (s : State) (o : BlockOp) (k : Nat) : Prop :=
  aborts s .dataWrite (virtAt s o k) = true ∨
    (s.platform.vectorWriteAbort26 = true ∧ is26 s.cpsr.m = true ∧ 4 * (virtAt s o k).toNat ≤ 0x1C)

/-- The word loaded for the listed register `i`. -/
def loadedFor (s : State) (o : BlockOp) (i : Nat) : Word := readWord s (wordAt s o (rank o.list i))

/-- R182: the registers after the loads and the write-back: each listed R0 to R14 of bank `b` has its word,
the base its write-back value, every other register is as before. -/
def BlockLoaded (s t : State) (o : BlockOp) (b : Bank) : Prop :=
  (∀ i : RegNo, i ≠ 15 → o.list.getLsbD i.val = true → readReg t b i = loadedFor s o i.val) ∧
  (o.w = true → readReg t (curBank s) o.rn = writeBackValue o (getX s o.rn)) ∧
  (∀ p : PhysReg, (∀ i : RegNo, o.list.getLsbD i.val = true → physReg b i ≠ some p) →
    (o.w = true → physReg (curBank s) o.rn ≠ some p) → t.regs[p] = s.regs[p])

/-- R183, R187, R188: the value an STM stores for the listed register `i`. -/
def storedFor (s : State) (o : BlockOp) (i : RegNo) : Word :=
  if i = 15 then
    combinedPlus s (match s.platform.storePcOffset with | .eight => 8#32 | .twelve => 12#32)
  else if o.s then readReg s .usr i
  else readReg s (curBank s) i

/-- The base register after a data abort (R190). -/
def abortedBase (s : State) (o : BlockOp) : Word :=
  if o.w = true ∧ s.platform.abortModel = .baseUpdated then writeBackValue o (getX s o.rn) else getX s o.rn

/-! ### Frames -/

/-- The destination register of an instruction that writes one without a list (R150, R201, R210). -/
def destination : Form → Option RegNo
  | .dp _ _ _ rd _ _ => some rd
  | .mrs _ _ rd => some rd
  | .branch true _ _ => some 14
  | _ => none

/-- Data processing, compares, PSR transfers and branches: no memory access, no exception of their own. -/
def isRegisterForm : Form → Bool
  | .dp _ _ _ _ _ _ | .cmp _ _ _ _ _ | .mrs _ _ _ | .msrReg _ _ _ _ | .msrImm _ _ _ _ | .branch _ _ _ => true
  | _ => false

/-- The MSR forms that name the SPSR. -/
def writesSpsr : Form → Bool
  | .msrReg _ p _ _ | .msrImm _ p _ _ => p
  | _ => false

/-- The forms that write no PSR bit (R30): S = 0 data processing, MRS, B, BL, STM, LDM without the PSR. -/
def writesNoStatus : Form → Bool
  | .dp _ _ sb _ _ _ => !sb
  | .mrs _ _ _ | .branch _ _ _ => true
  | .msrReg _ p _ _ | .msrImm _ p _ _ => p
  | _ => false

/-- R93 lines 6, 7, 10 and R94: bits 27:26 are 00, and the word is no multiply, swap or halfword transfer. -/
def isDataProcessingWord (w : Word) : Prop :=
  w.extractLsb' 26 2 = 0b00#2 ∧ (w.getLsbD 25 = true ∨ w.getLsbD 7 = false ∨ w.getLsbD 4 = false)

/-- R21, R22: number `i` in bank `b` and number `j` in bank `b'` are one physical register (`i`, `j` below 15). -/
def sameRegister (b : Bank) (i : RegNo) (b' : Bank) (j : RegNo) : Prop :=
  i = j ∧ (i.val ≤ 7 ∨ (i.val ≤ 12 ∧ (b = .fiq ↔ b' = .fiq)) ∨ b = b')

/-- R298: the operand names the register as Rm or Rs. -/
def operandNames : Operand2 → RegNo → Prop
  | .imm _, _ => False
  | .immShift o, r => r = o.rm
  | .regShift o, r => r = o.rm ∨ r = o.rs

/-- R298: the instruction names the register as Rn, Rd, Rm, Rs or in a register list; BL names R14 (log 9). MOV and MVN have
no Rn and the compares no Rd (R100). -/
def namesRegister : Form → RegNo → Prop
  | .dp op _ _ rd rn o, r => r = rd ∨ (op ≠ .mov ∧ op ≠ .mvn ∧ r = rn) ∨ operandNames o r
  | .cmp _ _ _ rn o, r => r = rn ∨ operandNames o r
  | .mrs _ _ rd, r => r = rd
  | .msrReg _ _ _ rm, r => r = rm
  | .block _ _ o, r => r = o.rn ∨ o.list.getLsbD r.val = true
  | .branch link _ _, r => link = true ∧ r = 14
  | _, _ => False

/-- R298, R299: the register counts under the BankHazard of this state: R13, R14, and R8 to R12 where a FIQ mode is involved
(the old or the new mode of the mode change; the mode of the user-bank LDM). -/
def countsUnderHazard (s : State) (r : RegNo) : Prop :=
  r = 13 ∨ r = 14 ∨ (8 ≤ r.val ∧ r.val ≤ 12 ∧ (s.bankHazard = .modeChange true ∨
    (s.bankHazard = .userBankLdm ∧ (s.cpsr.m = 0b00001#5 ∨ s.cpsr.m = 0b10001#5))))

/-- R211: an MSR of the value `v` is not refused. -/
def msrAllowed (s : State) (spsr : Bool) (mask : BitVec 4) (v : Word) : Prop :=
  if spsr then getSpsr s (bankOf s.cpsr.m) ≠ none
  else mask.getLsbD 0 = true → isUser s.cpsr.m = false → isMode (v.extractLsb' 0 5) = true

/-- R295: the instruction, when its condition passes, completes with the default `pc <- PC + 4`: no branch, no write of R15,
no exception, no refusal of its own. -/
def completesSequentially : Form → State → Prop
  | .dp _ _ _ rd rn o, _ => rd ≠ 15 ∧ r15WithRegShift o [rd, rn] = false
  | .cmp _ false _ rn o, _ => r15WithRegShift o [rn] = false
  | .cmp _ true _ _ o, s => is26 s.cpsr.m = true ∧ ∀ r, o ≠ .regShift r
  | .mrs _ spsr rd, s => rd ≠ 15 ∧ (spsr = true → getSpsr s (bankOf s.cpsr.m) ≠ none)
  | .msrReg _ spsr mask rm, s => rm ≠ 15 ∧ msrAllowed s spsr mask (getX s rm)
  | .msrImm _ spsr mask o, s => msrAllowed s spsr mask ((o.imm8.zeroExtend 32).rotateRight (2 * o.rotate.toNat))
  | .block true _ o, s => blockRefusal true o s.cpsr.m = none ∧ o.list.getLsbD 15 = false ∧ readsReach s o
  | .block false _ o, s => blockRefusal false o s.cpsr.m = none ∧ ∀ k, k < count o.list → ¬ storeAborts s o k
  | _, _ => False

end Sys2Proof.Stated

open Sys2Proof Sys2Proof.Machine Sys2Proof.Stated

/-! ## Encoding -/

/-- Words written out from the formats of R94 to R107, one or more for each format and family; most are the examples of R131 to
R141, R157 to R183, R200, R201, R210, R211, R230, R232 and R233. -/
def Obligations.ExampleWordsDecode : Prop :=
  decode 0xE3100001#32 = .ok (.tstImm .al 0 ⟨0#4, 1#8⟩) ∧
  decode 0xE1310002#32 = .ok (.teqImmShift .al 1 ⟨0#5, .lsl, 2⟩) ∧
  decode 0xE310F10F#32 = .ok (.tstpImm .al 0 ⟨1#4, 0x0F#8⟩) ∧
  decode 0xE150F001#32 = .ok (.cmppImmShift .al 0 ⟨0#5, .lsl, 1⟩) ∧
  decode 0xE372F343#32 = .ok (.cmnpImm .al 2 ⟨3#4, 0x43#8⟩) ∧
  decode 0xE2500001#32 = .ok (.subImm .al true 0 0 ⟨0#4, 1#8⟩) ∧
  decode 0xE3810102#32 = .ok (.orrImm .al false 0 1 ⟨1#4, 2#8⟩) ∧
  decode 0xE1A00201#32 = .ok (.movImmShift .al false 0 ⟨4#5, .lsl, 1⟩) ∧
  decode 0xE1B00271#32 = .ok (.movRegShift .al true 0 ⟨2, .ror, 1⟩) ∧
  decode 0xE8FD8001#32 = .ok (.ldm .al ⟨false, true, true, true, 13, 0x8001#16⟩) ∧
  decode 0xE92D4003#32 = .ok (.stm .al ⟨true, false, false, true, 13, 0x4003#16⟩) ∧
  decode 0x1AFFFFFC#32 = .ok (.b .ne 0xFFFFFC#24) ∧
  decode 0xEB000002#32 = .ok (.bl .al 2#24) ∧
  decode 0xE14F0000#32 = .ok (.mrs .al true 0) ∧
  decode 0xE169F000#32 = .ok (.msrReg .al true 0b1001#4 0) ∧
  decode 0xE328F20F#32 = .ok (.msrImm .al false 0b1000#4 ⟨2#4, 0x0F#8⟩) ∧
  decode 0xEFF00000#32 = .ok (.imb .al) ∧
  decode 0xEFF00001#32 = .ok (.imbRange .al) ∧
  decode 0xEF123456#32 = .ok (.swi .al 0x123456#24) ∧
  decode 0xE6000010#32 = .ok (.undefined .al 0#20 0#4)

/-- Decoding the encoding of any instruction that some word encodes, with every operand at every value, gives
the instruction (30_encoding.md). -/
def Obligations.DecodeAfterEncode : Prop :=
  ∀ i : Instr, i.encodable = true → decode (encode i) = .ok i

/-- No word has two instructions and no instruction two words: the word that decodes to an instruction is its
encoding (30_encoding.md). -/
def Obligations.EncodeAfterDecode : Prop :=
  ∀ (w : Word) (i : Instr), decode w = .ok i → encode i = w ∧ i.encodable = true

/-- R93, R100, R101, R106: the words outside the table are rejected by the name of their class: condition 1111, the classes out
of scope, the unallocated class, a PSR transfer with a fixed field violated, a compare with another Rd, MOV or MVN with an Rn. -/
def Obligations.OutOfTableWordsRejected : Prop :=
  ∀ w : Word,
    (w.extractLsb' 28 4 = 0b1111#4 → decode w = .error .condNv) ∧
    (w.extractLsb' 28 4 ≠ 0b1111#4 →
      (w.extractLsb' 25 3 = 0b000#3 ∧ w.extractLsb' 4 4 = 0b1001#4 ∧ w.getLsbD 24 = false → decode w = .error .multiply) ∧
      (w.extractLsb' 25 3 = 0b000#3 ∧ w.extractLsb' 4 4 = 0b1001#4 ∧ w.extractLsb' 23 2 = 0b10#2 →
        decode w = .error .swap) ∧
      (w.extractLsb' 25 3 = 0b000#3 ∧ w.getLsbD 7 = true ∧ w.getLsbD 4 = true ∧
        (w.extractLsb' 5 2 ≠ 0b00#2 ∨ w.extractLsb' 23 2 = 0b11#2) → decode w = .error .halfword) ∧
      (w.extractLsb' 23 5 = 0b00110#5 ∧ w.extractLsb' 20 2 = 0b00#2 → decode w = .error .reservedEncoding) ∧
      (w.extractLsb' 23 5 = 0b00010#5 ∧ w.extractLsb' 20 2 = 0b00#2 ∧ (w.getLsbD 7 = false ∨ w.getLsbD 4 = false) ∧
        (w.extractLsb' 16 4 ≠ 0b1111#4 ∨ w.extractLsb' 0 12 ≠ 0#12) → decode w = .error .reservedEncoding) ∧
      (w.extractLsb' 23 5 = 0b00010#5 ∧ w.extractLsb' 20 2 = 0b10#2 ∧ (w.getLsbD 7 = false ∨ w.getLsbD 4 = false) ∧
        (w.extractLsb' 12 4 ≠ 0b1111#4 ∨ w.extractLsb' 4 8 ≠ 0#8) → decode w = .error .reservedEncoding) ∧
      (w.extractLsb' 23 5 = 0b00110#5 ∧ w.extractLsb' 20 2 = 0b10#2 ∧ w.extractLsb' 12 4 ≠ 0b1111#4 →
        decode w = .error .reservedEncoding) ∧
      (w.extractLsb' 26 2 = 0b01#2 ∧ (w.getLsbD 25 = false ∨ w.getLsbD 4 = false) → decode w = .error .singleTransfer) ∧
      (w.extractLsb' 25 3 = 0b110#3 ∨ w.extractLsb' 24 4 = 0b1110#4 → decode w = .error .coprocessor) ∧
      (isDataProcessingWord w ∧ w.extractLsb' 23 2 = 0b10#2 ∧ w.getLsbD 20 = true ∧ w.extractLsb' 12 4 ≠ 0b0000#4 ∧
        w.extractLsb' 12 4 ≠ 0b1111#4 → decode w = .error .compareRd) ∧
      (isDataProcessingWord w ∧ (w.extractLsb' 21 4 = 0b1101#4 ∨ w.extractLsb' 21 4 = 0b1111#4) ∧
        w.extractLsb' 16 4 ≠ 0b0000#4 → decode w = .error .movRn))

/-! ## The step -/

/-- R9: when the four bytes at the program counter, taken in the platform's byte order, decode to `i`, and the
word has no stale value, no exception is pending, the fetch is not aborted and no hazard is violated, the step
is `exec i`, after the inputs of this step are used up, the address is tagged and BankHazard is cleared. -/
def Obligations.StepRunsDecodedInstruction : Prop :=
  ∀ (s : State) (i : Instr),
    decodeBytes s.platform.bigEndian
      (Memory.read s.mem (4 * (translate s (wordAddr s.pc)).toNat))
      (Memory.read s.mem (4 * (translate s (wordAddr s.pc)).toNat + 1))
      (Memory.read s.mem (4 * (translate s (wordAddr s.pc)).toNat + 2))
      (Memory.read s.mem (4 * (translate s (wordAddr s.pc)).toNat + 3)) = .ok i →
    staleOf s.stale (translate s (wordAddr s.pc)) = [] →
    s.platform.haltAddr ≠ some s.pc →
    pendingExc s = none →
    aborts s .fetch (wordAddr s.pc) = false →
    sharedCode (encode i) s = false →
    bankHazardRefusal i s = none →
    step s = exec i
      { s with
        inputs := s.inputs.tail
        steps := s.steps + 1
        exec26 := if is26 s.cpsr.m then addExecuted s.exec26 (wordAddr s.pc) else s.exec26
        exec32 := if is26 s.cpsr.m then s.exec32 else addExecuted s.exec32 (wordAddr s.pc)
        bankHazard := .clear }

/-- R72, R35: a fetch fails exactly when it is aborted; else it returns a member of IHist, the present word when there is no
other, and changes at most the counter of free values. -/
def Obligations.FetchReturnsHistoryMember : Prop :=
  ∀ s : State,
    (fetch s = none ↔ aborts s .fetch (wordAddr s.pc) = true) ∧
    (∀ w t, fetch s = some (w, t) →
      w ∈ ihist s (translate s (wordAddr s.pc)) ∧ (t = s ∨ t = { s with draws := s.draws + 1 })) ∧
    (staleOf s.stale (translate s (wordAddr s.pc)) = [] → aborts s .fetch (wordAddr s.pc) = false →
      fetch s = some (readWord s (translate s (wordAddr s.pc)), s))

/-- R92, R93, R106: a fetched word that is no instruction is refused by its name when its condition passes or is
1111, and skipped when its condition fails. R9, R298, R299: one whose condition fails is refused under BankHazard instead,
by the registers its fields name. That a word whose condition passes or is 1111 is refused by its own name, not by that
of a BankHazard that holds too, is the model's order (notes/assumptions/11.md); which fields of a word of a class without
a format in the spec name registers is the model's reading (notes/assumptions/10.md). -/
def Obligations.RejectedWordRefusedOrSkipped : Prop :=
  ∀ (s : State) (w : Word) (r : Reject), decode w = .error r → sharedCode w s = false →
    (w.extractLsb' 28 4 = 0b1111#4 → runWord w s = .refused .condNv) ∧
    (∀ c, condOf w = some c → condPassed c s.cpsr = true → runWord w s = .refused (rejectRefusal r)) ∧
    (∀ c, condOf w = some c → condPassed c s.cpsr = false →
      (Sequential s → (s.bankHazard = .clear ∨ ∀ q ∈ rejectedRegs w, ¬ countsUnderHazard s q) →
        ∃ t, runWord w s = .next t ∧ t.pc = s.pc + 4#32 ∧ t.cpsr = s.cpsr ∧ t.regs = s.regs ∧ t.mem = s.mem ∧
          t.bankHazard = .clear) ∧
      (∀ q, s.bankHazard = .modeChange q → (∃ r ∈ rejectedRegs w, countsUnderHazard s r) →
        runWord w s = .refused .bankedRegisterAfterModeChange) ∧
      (s.bankHazard = .userBankLdm → (∃ r ∈ rejectedRegs w, countsUnderHazard s r) →
        runWord w s = .refused .bankedRegisterAfterUserBankLdm))

/-- R91, R92: the numbers of the fifteen conditions and what each asks of the flags. -/
def Obligations.ConditionTable : Prop :=
  [Cond.eq, .ne, .cs, .cc, .mi, .pl, .vs, .vc, .hi, .ls, .ge, .lt, .gt, .le, .al].map Cond.bits =
    [0b0000#4, 0b0001#4, 0b0010#4, 0b0011#4, 0b0100#4, 0b0101#4, 0b0110#4, 0b0111#4, 0b1000#4, 0b1001#4, 0b1010#4,
      0b1011#4, 0b1100#4, 0b1101#4, 0b1110#4] ∧
  ∀ p : Psr,
    (condPassed .eq p = true ↔ p.z = true) ∧ (condPassed .ne p = true ↔ p.z = false) ∧
    (condPassed .cs p = true ↔ p.c = true) ∧ (condPassed .cc p = true ↔ p.c = false) ∧
    (condPassed .mi p = true ↔ p.n = true) ∧ (condPassed .pl p = true ↔ p.n = false) ∧
    (condPassed .vs p = true ↔ p.v = true) ∧ (condPassed .vc p = true ↔ p.v = false) ∧
    (condPassed .hi p = true ↔ p.c = true ∧ p.z = false) ∧ (condPassed .ls p = true ↔ p.c = false ∨ p.z = true) ∧
    (condPassed .ge p = true ↔ p.n = p.v) ∧ (condPassed .lt p = true ↔ p.n ≠ p.v) ∧
    (condPassed .gt p = true ↔ p.z = false ∧ p.n = p.v) ∧ (condPassed .le p = true ↔ p.z = true ∨ p.n ≠ p.v) ∧
    condPassed .al p = true

/-- R92: an instruction whose condition fails does nothing but `pc <- PC + 4`. -/
def Obligations.FailedConditionOnlyAdvances : Prop :=
  ∀ (i : Instr) (s : State), condPassed i.form.cond s.cpsr = false → Sequential s →
    exec i s = .next { s with pc := s.pc + 4#32 }

/-- R295: an instruction that would complete with `pc <- PC + 4` (data processing with Rd R0 to R14, a compare, a P form,
MRS, MSR, LDM without R15, STM, or any whose condition fails) is refused at the last word of the program space. That an MSR
there which enters a mode of the other width is refused by this name, before R25 and R294 are looked at and by the mode it
started in, is the model's reading (notes/assumptions/21.md). -/
def Obligations.SequentialWrapRefused : Prop :=
  ∀ (i : Instr) (s : State), completesSequentially i.form s ∨ condPassed i.form.cond s.cpsr = false →
    (is26 s.cpsr.m = true → s.pc = 0x03FFFFFC#32 → exec i s = .refused .sequentialWrap26) ∧
    (is26 s.cpsr.m = false → s.pc = 0xFFFFFFFC#32 → exec i s = .refused .sequentialWrap32)

/-- R262, R259 to R261: before each instruction Reset, else FIQ when F = 0, else IRQ when I = 0. -/
def Obligations.InterruptsTakenByPriority : Prop :=
  ∀ s : State, s.platform.haltAddr ≠ some s.pc →
    ((nextInput s).reset = true → ∃ t, step s = .next t ∧ t.pc = 0#32 ∧ t.cpsr.m = 0b10011#5 ∧ t.cpsr.i = true ∧
      t.cpsr.f = true ∧ t.mem = s.mem ∧ t.stale = [] ∧ t.exec26 = [] ∧ t.exec32 = [] ∧ t.bankHazard = .clear) ∧
    ((nextInput s).reset = false → s.cpsr.f = false → (nextInput s).fiq = true →
      ∃ t, step s = .next t ∧ Entered { s with inputs := s.inputs.tail, steps := s.steps + 1 } t .fiq (addressPlus s 4#32)) ∧
    ((nextInput s).reset = false → ¬(s.cpsr.f = false ∧ (nextInput s).fiq = true) → s.cpsr.i = false →
      (nextInput s).irq = true →
      ∃ t, step s = .next t ∧ Entered { s with inputs := s.inputs.tail, steps := s.steps + 1 } t .irq (addressPlus s 4#32))

/-- R256, R253: an aborted fetch takes the Prefetch Abort, whatever the word is. -/
def Obligations.PrefetchAbortTaken : Prop :=
  ∀ s : State, s.platform.haltAddr ≠ some s.pc → pendingExc s = none → aborts s .fetch (wordAddr s.pc) = true →
    ∃ t, step s = .next t ∧ Entered { s with inputs := s.inputs.tail, steps := s.steps + 1 } t .prefetchAbort (addressPlus s 4#32)

/-- R296: code tagged for the other width is refused, unless the word is an IMB whose condition passes. -/
def Obligations.SharedCodeRefusedWithoutImb : Prop :=
  ∀ (s : State) (w : Word),
    ((is26 s.cpsr.m = true ∧ ∃ e ∈ s.exec32, (s.pc.extractLsb' 2 30 - e).toNat ≤ s.platform.prefetchWords) ∨
     (is26 s.cpsr.m = false ∧ s.pc.toNat < 2 ^ 26 ∧
        ∃ e ∈ s.exec26, (s.pc.extractLsb' 2 30 - e).toNat % 2 ^ 24 ≤ s.platform.prefetchWords)) →
    (∀ c, decode w = .ok (.imb c) ∨ decode w = .ok (.imbRange c) → condPassed c s.cpsr = false) →
    runWord w s = .refused .sharedCodeWithoutImb

/-- R298, R299, R9: with BankHazard set, an instruction that names R13 or R14, or R8 to R12 where a FIQ mode is involved
(the old or the new mode of a mode change; the mode of a user-bank LDM), is refused by the hazard's name whether or not
its condition passes; one that names no such register, or that meets no hazard, runs with BankHazard cleared. That BL
counts as one that names R14 is the model's reading (notes/assumptions/9.md). -/
def Obligations.BankHazardChecked : Prop :=
  ∀ (i : Instr) (s : State),
    let fiqMode := s.cpsr.m = 0b00001#5 ∨ s.cpsr.m = 0b10001#5
    (∀ q, s.bankHazard = .modeChange q →
      ((∃ r : RegNo, namesRegister i.form r ∧ (r = 13 ∨ r = 14 ∨ (q = true ∧ 8 ≤ r.val ∧ r.val ≤ 12))) →
        runInstr i s = .refused .bankedRegisterAfterModeChange) ∧
      ((∀ r : RegNo, namesRegister i.form r → r.val < 8 ∨ r = 15 ∨ (q = false ∧ r.val ≤ 12)) →
        runInstr i s = exec i { s with bankHazard := .clear })) ∧
    (s.bankHazard = .userBankLdm →
      ((∃ r : RegNo, namesRegister i.form r ∧ (r = 13 ∨ r = 14 ∨ (fiqMode ∧ 8 ≤ r.val ∧ r.val ≤ 12))) →
        runInstr i s = .refused .bankedRegisterAfterUserBankLdm) ∧
      ((∀ r : RegNo, namesRegister i.form r → r.val < 8 ∨ r = 15 ∨ (¬ fiqMode ∧ r.val ≤ 12)) →
        runInstr i s = exec i { s with bankHazard := .clear })) ∧
    (s.bankHazard = .clear → runInstr i s = exec i { s with bankHazard := .clear })

/-- R290: the values the spec gives for reset (the registers it leaves unspecified are not in this statement). -/
def Obligations.ResetStateValues : Prop :=
  State.reset.pc = 0x00000000#32 ∧ State.reset.cpsr.m = 0b10011#5 ∧ State.reset.cpsr.i = true ∧
    State.reset.cpsr.f = true ∧ (∀ w, ihist State.reset w = [readWord State.reset w]) ∧
    State.reset.exec26 = [] ∧ State.reset.exec32 = [] ∧ State.reset.bankHazard = .clear

/-! ## Data processing -/

/-- R96: the immediate operand is the 8-bit value rotated right by twice the rotate field; the carry-out is CPSR.C
for rotate 0, else bit 31. -/
def Obligations.ImmediateOperandRotation : Prop :=
  ∀ (o : ImmOp) (s : State),
    (∀ k, k < 32 → (operand2 s (.imm o)).value.getLsbD k =
      (decide ((k + 2 * o.rotate.toNat) % 32 < 8) && o.imm8.getLsbD ((k + 2 * o.rotate.toNat) % 32))) ∧
    (operand2 s (.imm o)).carry = (if o.rotate = 0#4 then s.cpsr.c else (operand2 s (.imm o)).value.getLsbD 31)

/-- R97: Rm shifted by an immediate amount, with amount 0 meaning LSL 0, LSR 32, ASR 32 and RRX; Rm = R15 reads as R32 says. -/
def Obligations.ImmediateShiftTable : Prop :=
  ∀ (o : ImmShiftOp) (s : State), unaligned s.pc = false →
    let m := if o.rm = 15 then combinedPlus s 8#32 else readReg s (bankOf s.cpsr.m) o.rm
    let n := o.amount.toNat
    let r := operand2 s (.immShift o)
    (o.ty = .lsl → n = 0 → r = ⟨m, s.cpsr.c⟩) ∧
    (o.ty = .lsl → 0 < n → r.value.toNat = m.toNat * 2 ^ n % 2 ^ 32 ∧ r.carry = m.getLsbD (32 - n)) ∧
    (o.ty = .lsr → n = 0 → r = ⟨0#32, m.getLsbD 31⟩) ∧
    (o.ty = .lsr → 0 < n → r.value.toNat = m.toNat / 2 ^ n ∧ r.carry = m.getLsbD (n - 1)) ∧
    (o.ty = .asr → n = 0 → r = ⟨if m.getLsbD 31 then 0xFFFFFFFF#32 else 0#32, m.getLsbD 31⟩) ∧
    (o.ty = .asr → 0 < n → r.value.toInt = m.toInt / 2 ^ n ∧ r.carry = m.getLsbD (n - 1)) ∧
    (o.ty = .ror → n = 0 → (∀ k, k < 31 → r.value.getLsbD k = m.getLsbD (k + 1)) ∧
      r.value.getLsbD 31 = s.cpsr.c ∧ r.carry = m.getLsbD 0) ∧
    (o.ty = .ror → 0 < n → (∀ k, k < 32 → r.value.getLsbD k = m.getLsbD ((k + n) % 32)) ∧ r.carry = m.getLsbD (n - 1))

/-- R98: the register shifts: only the low byte of Rs counts; the amounts 0, 1 to 31, 32 and above. -/
def Obligations.RegisterShiftTable : Prop :=
  ∀ (o : RegShiftOp) (s : State), o.rm ≠ 15 → o.rs ≠ 15 →
    let m := getX s o.rm
    let n := (getX s o.rs).toNat % 256
    let r := operand2 s (.regShift o)
    (n = 0 → r = ⟨m, s.cpsr.c⟩) ∧
    (0 < n → o.ty = .lsl → r.value.toNat = m.toNat * 2 ^ n % 2 ^ 32 ∧ r.carry = (decide (n ≤ 32) && m.getLsbD (32 - n))) ∧
    (0 < n → o.ty = .lsr → r.value.toNat = m.toNat / 2 ^ n ∧ r.carry = (decide (n ≤ 32) && m.getLsbD (n - 1))) ∧
    (0 < n → o.ty = .asr → r.value.toInt = m.toInt / 2 ^ n ∧ r.carry = m.getLsbD (min (n - 1) 31)) ∧
    (0 < n → o.ty = .ror → (∀ k, k < 32 → r.value.getLsbD k = m.getLsbD ((k + n) % 32)) ∧ r.carry = m.getLsbD ((n + 31) % 32))

/-- R32, R99: R15 reads as the address plus 8; in a 26-bit mode the status bits read as zero in the Rn position and
are present in the Rm position; R0 to R14 read their register of the current bank. -/
def Obligations.OperandRegisterReads : Prop :=
  ∀ (s : State), unaligned s.pc = false →
    readRn s 15 = addressPlus s 8#32 ∧ readRm s 15 = combinedPlus s 8#32 ∧
    (∀ r : RegNo, r ≠ 15 → readRn s r = readReg s (bankOf s.cpsr.m) r ∧ readRm s r = readReg s (bankOf s.cpsr.m) r)

/-- R21, R22, R26: which registers the banks share. A write of `i` in bank `b` is read as `j` in bank `b'` exactly when both
name one physical register: the same number, R0 to R7 in every bank, R8 to R12 with or without FIQ alike, R13 and R14 in
one bank only. The banks of the ten modes are those of R26. -/
def Obligations.BankedRegisters : Prop :=
  [0b00000#5, 0b00001#5, 0b00010#5, 0b00011#5, 0b10000#5, 0b10001#5, 0b10010#5, 0b10011#5, 0b10111#5, 0b11011#5].map bankOf =
    [.usr, .fiq, .irq, .svc, .usr, .fiq, .irq, .svc, .abt, .und] ∧
  ∀ (s : State) (b b' : Bank) (i j : RegNo) (v : Word), i ≠ 15 → j ≠ 15 →
    (sameRegister b i b' j → readReg (writeReg s b i v) b' j = v) ∧
    (¬ sameRegister b i b' j → readReg (writeReg s b i v) b' j = readReg s b' j) ∧
    writeReg s b i v = { s with regs := (writeReg s b i v).regs } ∧
    getX s i = readReg s (bankOf s.cpsr.m) i ∧ setX s i v = writeReg s (bankOf s.cpsr.m) i v

/-- R150, R151, R155 to R166: every data-processing instruction with destination R0 to R14, in every operand format,
with and without S: the result, the flags, the PC, and nothing else. -/
def Obligations.DataProcessingResult : Prop :=
  ∀ (i : Instr) (op : DpOp) (c : Cond) (sb : Bool) (rd rn : RegNo) (o : Operand2) (s : State),
    i.form = .dp op c sb rd rn o → condPassed c s.cpsr = true → rd ≠ 15 → r15WithRegShift o [rd, rn] = false →
    Sequential s →
    exec i s = .next
      { setX s rd (dpValue op (readRn s rn) (operand2 s o).value s.cpsr.c) with
        cpsr := if sb then dpFlags op (readRn s rn) (operand2 s o).value s.cpsr (operand2 s o).carry else s.cpsr
        pc := s.pc + 4#32 }

/-- R152: destination R15 with S = 0 writes the PC and nothing else; in a 32-bit mode an unaligned result is refused. -/
def Obligations.DataProcessingToPc : Prop :=
  ∀ (i : Instr) (op : DpOp) (c : Cond) (rn : RegNo) (o : Operand2) (s : State),
    i.form = .dp op c false 15 rn o → condPassed c s.cpsr = true → r15WithRegShift o [15, rn] = false →
    let v := dpValue op (readRn s rn) (operand2 s o).value s.cpsr.c
    (is26 s.cpsr.m = true ∨ v.extractLsb' 0 2 = 0#2 → exec i s = .next { s with pc := pcFrom s v }) ∧
    (is26 s.cpsr.m = false → v.extractLsb' 0 2 ≠ 0#2 → exec i s = .refused .pcUnaligned32)

/-- R153: destination R15 with S = 1 in a 26-bit mode writes the PSR and the PC from the result. -/
def Obligations.DataProcessingToPcAndPsr26 : Prop :=
  ∀ (i : Instr) (op : DpOp) (c : Cond) (rn : RegNo) (o : Operand2) (s : State),
    i.form = .dp op c true 15 rn o → condPassed c s.cpsr = true → r15WithRegShift o [15, rn] = false →
    is26 s.cpsr.m = true → isMode s.cpsr.m = true →
    let v := dpValue op (readRn s rn) (operand2 s o).value s.cpsr.c
    exec i s = .next { s with cpsr := psrFrom26 s.cpsr v, pc := pcFrom s v }

/-- R154, R25, R294: destination R15 with S = 1 in a privileged 32-bit mode is the exception return: CPSR <- SPSR,
PC <- result; refused in User32, for a mode number outside the ten, and where R25 refuses the address. -/
def Obligations.DataProcessingExceptionReturn : Prop :=
  ∀ (i : Instr) (op : DpOp) (c : Cond) (rn : RegNo) (o : Operand2) (s : State),
    i.form = .dp op c true 15 rn o → condPassed c s.cpsr = true → r15WithRegShift o [15, rn] = false →
    is26 s.cpsr.m = false → isMode s.cpsr.m = true →
    let v := dpValue op (readRn s rn) (operand2 s o).value s.cpsr.c
    (s.cpsr.m = 0b10000#5 → exec i s = .refused .noSpsrInUser32) ∧
    (∀ p, getSpsr s (bankOf s.cpsr.m) = some p →
      (isMode p.m = false → exec i s = .refused .illegalModeValue) ∧
      (isMode p.m = true → is26 p.m = true → (v.extractLsb' 26 6 ≠ 0#6 ∨ s.pc.extractLsb' 26 6 ≠ 0#6) →
        exec i s = .refused .enter26Outside26bitSpace) ∧
      (isMode p.m = true → (is26 p.m = true → v.extractLsb' 26 6 = 0#6 ∧ s.pc.extractLsb' 26 6 = 0#6) →
        (v.extractLsb' 0 2 = 0#2 → exec i s = .next { s with cpsr := p, pc := v }) ∧
        (v.extractLsb' 0 2 ≠ 0#2 → exec i s = .refused .pcUnaligned32)))

/-- R98, R106: a register-specified shift with R15 in any register field, Rd, Rn, Rm or Rs, is refused: so is every P form
shifted by a register, whose Rd field is 1111 (R100). That a P form in a 32-bit mode is refused by this name and not by
R137's is the model's order (notes/assumptions/11.md). -/
def Obligations.RegisterShiftWithR15Refused : Prop :=
  ∀ (i : Instr) (c : Cond) (o : RegShiftOp) (s : State), condPassed c s.cpsr = true →
    (∀ op sb rd rn, i.form = .dp op c sb rd rn (.regShift o) → (rd = 15 ∨ rn = 15 ∨ o.rm = 15 ∨ o.rs = 15) →
      exec i s = .refused .r15WithRegisterShift) ∧
    (∀ op rn, i.form = .cmp op false c rn (.regShift o) → (rn = 15 ∨ o.rm = 15 ∨ o.rs = 15) →
      exec i s = .refused .r15WithRegisterShift) ∧
    (∀ op rn, i.form = .cmp op true c rn (.regShift o) → exec i s = .refused .r15WithRegisterShift)

/-! ## Compares and P forms -/

/-- R131 to R134: TST, TEQ, CMP, CMN write N, Z, C, V and the PC, and nothing else, in every mode and operand format. -/
def Obligations.CompareResult : Prop :=
  ∀ (i : Instr) (op : CmpOp) (c : Cond) (rn : RegNo) (o : Operand2) (s : State),
    i.form = .cmp op false c rn o → condPassed c s.cpsr = true → r15WithRegShift o [rn] = false → Sequential s →
    exec i s = .next
      { s with
        cpsr := cmpFlags op (readRn s rn) (operand2 s o).value s.cpsr (operand2 s o).carry
        pc := s.pc + 4#32 }

/-- R136, R138 to R141, R298: TSTP, TEQP, CMPP, CMNP in a 26-bit mode set N, Z, C, V, and in a non-user mode I, F, M1, M0,
from the bits of the result (operand 2 an immediate or shifted by an immediate; RegisterShiftWithR15Refused has the third format). -/
def Obligations.PFormResult : Prop :=
  ∀ (i : Instr) (op : CmpOp) (c : Cond) (rn : RegNo) (o : Operand2) (s : State),
    i.form = .cmp op true c rn o → (∀ r, o ≠ .regShift r) → condPassed c s.cpsr = true → Sequential s →
    is26 s.cpsr.m = true → isMode s.cpsr.m = true →
    let v := cmpValue op (readRn s rn) (operand2 s o).value
    exec i s = .next
      { s with
        cpsr := psrFrom26 s.cpsr v
        bankHazard := hazardAfter s (psrFrom26 s.cpsr v).m
        pc := s.pc + 4#32 }

/-- R137: a P form in a 32-bit mode is refused (the formats of PFormResult). -/
def Obligations.PFormRefusedIn32BitMode : Prop :=
  ∀ (i : Instr) (op : CmpOp) (c : Cond) (rn : RegNo) (o : Operand2) (s : State),
    i.form = .cmp op true c rn o → (∀ r, o ≠ .regShift r) → condPassed c s.cpsr = true → is26 s.cpsr.m = false →
    exec i s = .refused .pFormIn32bitMode

/-! ## Block transfers -/

/-- R189: the refused forms of LDM and STM, in the order of its table (the order is the model's choice, log 11). -/
def Obligations.BlockTransferRefusals : Prop :=
  ∀ (l : Bool) (c : Cond) (o : BlockOp) (s : State), condPassed c s.cpsr = true →
    let i : Instr := if l then .ldm c o else .stm c o
    let userBank := o.s = true ∧ ¬(l = true ∧ o.list.getLsbD 15 = true)
    let user := s.cpsr.m = 0b00000#5 ∨ s.cpsr.m = 0b10000#5
    if o.list = 0#16 then exec i s = .refused .ldmStmEmptyList
    else if o.rn = 15 then exec i s = .refused .ldmStmBaseR15
    else if l = true ∧ o.w = true ∧ o.list.getLsbD o.rn.val = true then exec i s = .refused .ldmBaseInListWriteback
    else if l = false ∧ o.w = true ∧ o.list.getLsbD o.rn.val = true ∧ rank o.list o.rn.val ≠ 0 then
      exec i s = .refused .stmBaseInListWriteback
    else if userBank ∧ user then exec i s = .refused .userBankTransferInUserMode
    else if userBank ∧ o.w = true then exec i s = .refused .userBankTransferWithWriteback
    else if l = true ∧ o.s = true ∧ o.list.getLsbD 15 = true ∧ s.cpsr.m = 0b10000#5 then
      exec i s = .refused .noSpsrInUser32
    else blockRefusal l o s.cpsr.m = none

/-- R181, R182, R187, R299: LDM without R15 in the list loads each listed register, in the User bank when S = 1, from
ascending addresses, lowest register first, and writes the base back when W = 1. -/
def Obligations.LdmLoadsListedRegisters : Prop :=
  ∀ (c : Cond) (o : BlockOp) (s : State), condPassed c s.cpsr = true → blockRefusal true o s.cpsr.m = none →
    o.list.getLsbD 15 = false → readsReach s o → Sequential s →
    ∃ t, exec (.ldm c o) s = .next t ∧ BlockLoaded s t o (if o.s then .usr else curBank s) ∧
      t.pc = s.pc + 4#32 ∧ t.cpsr = s.cpsr ∧ t.mem = s.mem ∧
      t.bankHazard = (if o.s then .userBankLdm else s.bankHazard)

/-- R182, R184: LDM with R15 in the list and S = 0 writes the PC from the loaded word and no PSR bit. -/
def Obligations.LdmLoadsPc : Prop :=
  ∀ (c : Cond) (o : BlockOp) (s : State), condPassed c s.cpsr = true → blockRefusal true o s.cpsr.m = none →
    o.list.getLsbD 15 = true → o.s = false → readsReach s o →
    (is26 s.cpsr.m = true ∨ (loadedFor s o 15).extractLsb' 0 2 = 0#2 →
      ∃ t, exec (.ldm c o) s = .next t ∧ BlockLoaded s t o (curBank s) ∧ t.pc = pcFrom s (loadedFor s o 15) ∧
        t.cpsr = s.cpsr ∧ t.mem = s.mem) ∧
    (is26 s.cpsr.m = false → (loadedFor s o 15).extractLsb' 0 2 ≠ 0#2 → exec (.ldm c o) s = .refused .pcUnaligned32)

/-- R182, R185, R192: LDM with R15 in the list and S = 1 in a 26-bit mode loads the bank of the mode it began in and
writes the PC and the PSR from the word loaded for R15. -/
def Obligations.LdmLoadsPcAndPsr26 : Prop :=
  ∀ (c : Cond) (o : BlockOp) (s : State), condPassed c s.cpsr = true → blockRefusal true o s.cpsr.m = none →
    o.list.getLsbD 15 = true → o.s = true → is26 s.cpsr.m = true → isMode s.cpsr.m = true → readsReach s o →
    ∃ t, exec (.ldm c o) s = .next t ∧ BlockLoaded s t o (curBank s) ∧ t.pc = pcFrom s (loadedFor s o 15) ∧
      t.cpsr = psrFrom26 s.cpsr (loadedFor s o 15) ∧ t.mem = s.mem

/-- R186, R182, R25: LDM with R15 in the list and S = 1 in a 32-bit mode: CPSR <- SPSR, PC <- the loaded word; refused in User32,
for a mode number outside the ten, and where R25 refuses the address. -/
def Obligations.LdmExceptionReturn : Prop :=
  ∀ (c : Cond) (o : BlockOp) (s : State), condPassed c s.cpsr = true → o.rn ≠ 15 →
    (o.w = true → o.list.getLsbD o.rn.val = false) → o.list.getLsbD 15 = true → o.s = true → is26 s.cpsr.m = false →
    isMode s.cpsr.m = true →
    let v := loadedFor s o 15
    (s.cpsr.m = 0b10000#5 → exec (.ldm c o) s = .refused .noSpsrInUser32) ∧
    (∀ p, getSpsr s (curBank s) = some p → readsReach s o →
      (isMode p.m = false → exec (.ldm c o) s = .refused .illegalModeValue) ∧
      (isMode p.m = true → is26 p.m = true → (v.extractLsb' 26 6 ≠ 0#6 ∨ s.pc.extractLsb' 26 6 ≠ 0#6) →
        exec (.ldm c o) s = .refused .enter26Outside26bitSpace) ∧
      (isMode p.m = true → (is26 p.m = true → v.extractLsb' 26 6 = 0#6 ∧ s.pc.extractLsb' 26 6 = 0#6) →
        (v.extractLsb' 0 2 ≠ 0#2 → exec (.ldm c o) s = .refused .pcUnaligned32) ∧
        (v.extractLsb' 0 2 = 0#2 →
          ∃ t, exec (.ldm c o) s = .next t ∧ BlockLoaded s t o (curBank s) ∧ t.pc = v ∧ t.cpsr = p ∧ t.mem = s.mem)))

/-- R190, R257: the first aborting read of an LDM takes the Data Abort with the PSR and R15 as before; a register loaded
before it is drawn between its old and its loaded value, the base follows ABORT_MODEL, every other register is as before.
That a base which is itself a loaded register follows ABORT_MODEL and not the draw is the model's reading (notes/assumptions/14.md). -/
def Obligations.LdmDataAbort : Prop :=
  ∀ (c : Cond) (o : BlockOp) (s : State) (k : Nat), condPassed c s.cpsr = true → blockRefusal true o s.cpsr.m = none →
    k < count o.list → aborts s .dataRead (virtAt s o k) = true →
    (∀ j, j < k → aborts s .dataRead (virtAt s o j) = false) →
    ∃ t u, exec (.ldm c o) s = .next u ∧ Entered t u .dataAbort (addressPlus s 8#32) ∧
      t.cpsr = s.cpsr ∧ t.mem = s.mem ∧ (∀ b, getSpsr t b = getSpsr s b) ∧
      readReg t (curBank s) o.rn = abortedBase s o ∧
      (∀ i : RegNo, i ≠ 15 → o.list.getLsbD i.val = true → rank o.list i.val < k →
        physReg (blockBank true o s) i ≠ physReg (curBank s) o.rn →
        readReg t (blockBank true o s) i = readReg s (blockBank true o s) i ∨
          readReg t (blockBank true o s) i = loadedFor s o i.val) ∧
      (∀ p : PhysReg, physReg (curBank s) o.rn ≠ some p →
        (∀ i : RegNo, o.list.getLsbD i.val = true → rank o.list i.val < k → physReg (blockBank true o s) i ≠ some p) →
        t.regs[p] = s.regs[p])

/-- R181, R183, R187, R188, R191: STM stores each listed register to ascending 32-bit addresses, lowest register first, the
User bank when S = 1, R15 as the combined PC and PSR with STORE_PC_OFFSET; writes the base back when W = 1. Where
Translate maps two of its words to one, the later store stands. -/
def Obligations.StmStoresListedRegisters : Prop :=
  ∀ (c : Cond) (o : BlockOp) (s : State), condPassed c s.cpsr = true → blockRefusal false o s.cpsr.m = none →
    (∀ k, k < count o.list → ¬ storeAborts s o k) → Sequential s → Memory.wf s.mem = true →
    ∃ t, exec (.stm c o) s = .next t ∧ t.pc = s.pc + 4#32 ∧ t.cpsr = s.cpsr ∧
      (∀ i : RegNo, o.list.getLsbD i.val = true →
        (∀ j : RegNo, i < j → o.list.getLsbD j.val = true → wordAt s o (rank o.list j.val) ≠ wordAt s o (rank o.list i.val)) →
        readWord t (wordAt s o (rank o.list i.val)) = storedFor s o i) ∧
      (o.w = true → readReg t (curBank s) o.rn = writeBackValue o (getX s o.rn)) ∧
      (∀ p : PhysReg, (o.w = true → physReg (curBank s) o.rn ≠ some p) → t.regs[p] = s.regs[p])

/-- R190, R257: the first aborting write of an STM takes the Data Abort; the words before it are stored, it is not, the base
follows ABORT_MODEL and no other register changes. -/
def Obligations.StmDataAbort : Prop :=
  ∀ (c : Cond) (o : BlockOp) (s : State) (k : Nat), condPassed c s.cpsr = true → blockRefusal false o s.cpsr.m = none →
    k < count o.list → storeAborts s o k → (∀ j, j < k → ¬ storeAborts s o j) → unaligned s.pc = false →
    Memory.wf s.mem = true →
    ∃ t u, exec (.stm c o) s = .next u ∧ Entered t u .dataAbort (addressPlus s 8#32) ∧
      t.cpsr = s.cpsr ∧ (∀ b, getSpsr t b = getSpsr s b) ∧
      readReg t (curBank s) o.rn = abortedBase s o ∧
      (∀ p : PhysReg, physReg (curBank s) o.rn ≠ some p → t.regs[p] = s.regs[p]) ∧
      (∀ i : RegNo, o.list.getLsbD i.val = true → rank o.list i.val < k →
        (∀ j : RegNo, i < j → o.list.getLsbD j.val = true → wordAt s o (rank o.list j.val) ≠ wordAt s o (rank o.list i.val)) →
        readWord t (wordAt s o (rank o.list i.val)) = storedFor s o i) ∧
      ((∀ j, j < count o.list → j ≠ k → wordAt s o j ≠ wordAt s o k) →
        readWord t (wordAt s o k) = readWord s (wordAt s o k))

/-- The frame of STM (R183, R190): every byte outside the words it stores to reads as before, whether or not a store aborts. -/
def Obligations.StmMemoryFrame : Prop :=
  ∀ (c : Cond) (o : BlockOp) (s t : State), exec (.stm c o) s = .next t → Memory.wf s.mem = true →
    ∀ a : Nat, (∀ k, k < count o.list → a / 4 ≠ (wordAt s o k).toNat) → Memory.read t.mem a = Memory.read s.mem a

/-- R68: with VECTOR_WRITE_ABORT_26 and no address translation, nothing an instruction does in a 26-bit mode changes a byte of
the exception vectors. (That a drawn later word of an aborted STM obeys R68 too is the model's reading, log 13.) -/
def Obligations.ProtectedVectorsNeverWritten : Prop :=
  ∀ (i : Instr) (s t : State), is26 s.cpsr.m = true → s.platform.vectorWriteAbort26 = true → s.platform.translate = [] →
    Memory.wf s.mem = true → exec i s = .next t → ∀ a, a < 0x20 → Memory.read t.mem a = Memory.read s.mem a

/-- R35, R62: a data write that is not aborted adds the new value to the IHist of the word and to no other, and what the word
held before stays in it. -/
def Obligations.StoreExtendsHistory : Prop :=
  ∀ (s t : State) (a v : Word), memWrite s a v = some t → Memory.wf s.mem = true → staleWf s = true →
    ∀ w x, x ∈ ihist t w ↔ x ∈ ihist s w ∨ (w = translate s (wordAddr a) ∧ x = v)

/-! ## Branches -/

/-- R200, R202: B goes to the address plus 8 plus four times the signed offset, modulo 2^26 in a 26-bit mode and 2^32 in a 32-bit
mode, and changes nothing else. -/
def Obligations.BranchTarget : Prop :=
  ∀ (c : Cond) (off : BitVec 24) (s : State), condPassed c s.cpsr = true → unaligned s.pc = false →
    exec (.b c off) s = .next { s with pc := branchTo s off }

/-- R201, R32: BL also writes R14 of the current bank: the address of the next instruction, in a 26-bit mode together with
N, Z, C, V, I, F, M1, M0. -/
def Obligations.BranchWithLinkSavesReturn : Prop :=
  ∀ (c : Cond) (off : BitVec 24) (s : State), condPassed c s.cpsr = true → unaligned s.pc = false →
    exec (.bl c off) s = .next { setX s 14 (combinedPlus s 4#32) with pc := branchTo s off }

/-! ## PSR transfer -/

/-- R210, R28: MRS reads the eleven named bits of the CPSR or of the current mode's SPSR in the CPSR layout; refused for Rd = R15
and for the SPSR in a user mode. -/
def Obligations.MrsReadsNamedBits : Prop :=
  ∀ (c : Cond) (spsr : Bool) (rd : RegNo) (s : State), condPassed c s.cpsr = true →
    (rd = 15 → exec (.mrs c spsr rd) s = .refused .psrTransferR15) ∧
    (rd ≠ 15 → spsr = true → bankOf s.cpsr.m = .usr → exec (.mrs c spsr rd) s = .refused .noSpsrInUserMode) ∧
    (∀ p, rd ≠ 15 → Sequential s → (if spsr then getSpsr s (bankOf s.cpsr.m) else some s.cpsr) = some p →
      ∃ r : Word, exec (.mrs c spsr rd) s = .next { setX s rd r with pc := s.pc + 4#32, draws := s.draws + 1 } ∧
        r.getLsbD 31 = p.n ∧ r.getLsbD 30 = p.z ∧ r.getLsbD 29 = p.c ∧ r.getLsbD 28 = p.v ∧
        r.getLsbD 7 = p.i ∧ r.getLsbD 6 = p.f ∧ r.extractLsb' 0 5 = p.m)

/-- R211, R212, R213, R298: MSR to the CPSR, from a register or an immediate: the flags field in every mode, the control field in a
privileged mode (ignored in a user mode), the mode change between and inside both widths, execution continuing at PC + 4. -/
def Obligations.MsrWritesCpsr : Prop :=
  ∀ (i : Instr) (c : Cond) (mask : BitVec 4) (v : Word) (s : State), isMsr i c false mask v s → condPassed c s.cpsr = true →
    Sequential s →
    let new := msrPsr s.cpsr mask v (isUser s.cpsr.m)
    (isMode new.m = true ∨ (mask.getLsbD 0 && !isUser s.cpsr.m) = false) →
    (is26 new.m = true → (s.pc + 4#32).extractLsb' 26 6 = 0#6) →
    exec i s = .next { s with cpsr := new, bankHazard := hazardAfter s new.m, pc := s.pc + 4#32 }

/-- R214, R212, R294, R211: MSR is refused for a mode number outside the ten, for entering a 26-bit mode at an address outside the
26-bit space, for Rm = R15, and for the SPSR in a user mode. -/
def Obligations.MsrRefusals : Prop :=
  ∀ (c : Cond) (mask : BitVec 4) (s : State), condPassed c s.cpsr = true →
    (∀ spsr, exec (.msrReg c spsr mask 15) s = .refused .psrTransferR15) ∧
    (∀ i v, isMsr i c true mask v s → bankOf s.cpsr.m = .usr → exec i s = .refused .noSpsrInUserMode) ∧
    (∀ i v, isMsr i c false mask v s → mask.getLsbD 0 = true → isUser s.cpsr.m = false →
      (isMode (v.extractLsb' 0 5) = false → exec i s = .refused .illegalModeValue) ∧
      (isMode (v.extractLsb' 0 5) = true → is26 s.cpsr.m = false → is26 (v.extractLsb' 0 5) = true →
        s.pc ≠ 0xFFFFFFFC#32 → (s.pc + 4#32).extractLsb' 26 6 ≠ 0#6 → exec i s = .refused .enter26Outside26bitSpace))

/-- R211, R214: MSR to the SPSR of the current mode, from a register or an immediate; any mode number may be written. -/
def Obligations.MsrWritesSpsr : Prop :=
  ∀ (i : Instr) (c : Cond) (mask : BitVec 4) (v : Word) (s : State) (p : Psr), isMsr i c true mask v s →
    condPassed c s.cpsr = true → Sequential s → getSpsr s (bankOf s.cpsr.m) = some p →
    exec i s = .next { setSpsr s (bankOf s.cpsr.m) (msrPsr p mask v false) with pc := s.pc + 4#32 }

/-! ## Exceptions, SWI and IMB -/

/-- R251: the vector addresses, the modes entered (32-bit modes all), I and F; no exception uses 0x14. -/
def Obligations.ExceptionVectorTable : Prop :=
  (Exc.vector .reset = 0x00#32 ∧ Exc.mode .reset = 0b10011#5) ∧
  (Exc.vector .undefined = 0x04#32 ∧ Exc.mode .undefined = 0b11011#5) ∧
  (Exc.vector .swi = 0x08#32 ∧ Exc.mode .swi = 0b10011#5) ∧
  (Exc.vector .prefetchAbort = 0x0C#32 ∧ Exc.mode .prefetchAbort = 0b10111#5) ∧
  (Exc.vector .dataAbort = 0x10#32 ∧ Exc.mode .dataAbort = 0b10111#5) ∧
  (Exc.vector .irq = 0x18#32 ∧ Exc.mode .irq = 0b10010#5) ∧
  (Exc.vector .fiq = 0x1C#32 ∧ Exc.mode .fiq = 0b10001#5) ∧
  ∀ (e : Exc) (link : Word) (s : State),
    e.vector ≠ 0x14#32 ∧ is26 e.mode = false ∧ (enter e link s).pc = e.vector ∧ (enter e link s).cpsr.m = e.mode ∧
      (enter e link s).cpsr.i = true ∧
      (enter e link s).cpsr.f = (if e = .reset ∨ e = .fiq then true else s.cpsr.f)

/-- R252: exception entry, for every exception, from every state. -/
def Obligations.ExceptionEntry : Prop :=
  ∀ (e : Exc) (link : Word) (s : State), Entered s (enter e link s) e link

/-- R230, R253, R254: SWI enters Supervisor32 at 0x08 with the address of the next instruction in R14_svc, without PSR bits in either
width, and the old CPSR in SPSR_svc; stored instruction information and tags are kept. -/
def Obligations.SwiTakesSoftwareInterrupt : Prop :=
  ∀ (c : Cond) (n : BitVec 24) (s : State), condPassed c s.cpsr = true → n ≠ 0xF00000#24 → n ≠ 0xF00001#24 →
    ∃ t, exec (.swi c n) s = .next t ∧ Entered s t .swi (addressPlus s 4#32) ∧
      t.stale = s.stale ∧ t.exec26 = s.exec26 ∧ t.exec32 = s.exec32

/-- R74, R75, R232, R233, R234: IMB and IMBRange make every fetch see the present contents of memory, empty both tags, and take the
Software Interrupt. -/
def Obligations.ImbFlushesInstructionInformation : Prop :=
  ∀ (i : Instr) (c : Cond) (s : State), (i = .imb c ∨ i = .imbRange c) → condPassed c s.cpsr = true →
    ∃ t, exec i s = .next t ∧ Entered s t .swi (addressPlus s 4#32) ∧ (∀ w, ihist t w = [readWord s w]) ∧
      t.exec26 = [] ∧ t.exec32 = []

/-- R107, R255, R253: a word of the undefined space enters Undefined32 at 0x04 and has no other effect. -/
def Obligations.UndefinedInstructionTrap : Prop :=
  ∀ (c : Cond) (hi : BitVec 20) (lo : BitVec 4) (s : State), condPassed c s.cpsr = true →
    ∃ t, exec (.undefined c hi lo) s = .next t ∧ Entered s t .undefined (addressPlus s 4#32) ∧
      t.stale = s.stale ∧ t.exec26 = s.exec26 ∧ t.exec32 = s.exec32

/-- R265, R253, R234: `MOVS PC, R14` executed in the state a SWI, an IMB or an undefined instruction has entered gives back the whole
CPSR, with its width of mode, and the address after the instruction. -/
def Obligations.ExceptionReturnRestores : Prop :=
  ∀ (i : Instr) (s t : State), Inv s → condPassed i.form.cond s.cpsr = true →
    (∃ c, (∃ n, i = .swi c n) ∨ i = .imb c ∨ i = .imbRange c ∨ ∃ hi lo, i = .undefined c hi lo) →
    exec i s = .next t →
    exec (.movImmShift .al true 15 ⟨0#5, .lsl, 14⟩) t = .next { t with cpsr := s.cpsr, pc := addressPlus s 4#32 }

/-! ## Frames -/

/-- The frame of the data-processing, compare, PSR-transfer and branch instructions: every byte of memory, every register but the
destination, every SPSR but the one an MSR names, IHist, the tags, the platform and the inputs are as before. -/
def Obligations.RegisterInstructionFrame : Prop :=
  ∀ (i : Instr) (s t : State), isRegisterForm i.form = true → exec i s = .next t →
    (∀ a, Memory.read t.mem a = Memory.read s.mem a) ∧
    (∀ p : PhysReg, (∀ rd, destination i.form = some rd → physReg (curBank s) rd ≠ some p) → t.regs[p] = s.regs[p]) ∧
    (∀ b, (writesSpsr i.form = true → b ≠ curBank s) → getSpsr t b = getSpsr s b) ∧
    t.stale = s.stale ∧ t.exec26 = s.exec26 ∧ t.exec32 = s.exec32 ∧ t.platform = s.platform ∧
    t.inputs = s.inputs ∧ t.steps = s.steps

/-- The frame of the status register (R30, R151): instructions without S, MRS, MSR to the SPSR, B and BL leave the CPSR as it is;
data processing with S and destination R0 to R14 and the normal compares leave I, F, M and the reserved bits, and the logical ones V. -/
def Obligations.StatusRegisterFrame : Prop :=
  ∀ (i : Instr) (s t : State), exec i s = .next t →
    (writesNoStatus i.form = true → t.cpsr = s.cpsr) ∧
    (∀ op c sb rd rn o, i.form = .dp op c sb rd rn o → rd ≠ 15 →
      t.cpsr.i = s.cpsr.i ∧ t.cpsr.f = s.cpsr.f ∧ t.cpsr.m = s.cpsr.m ∧ t.cpsr.reserved = s.cpsr.reserved ∧
        ((op = .and ∨ op = .eor ∨ op = .orr ∨ op = .mov ∨ op = .bic ∨ op = .mvn) → t.cpsr.v = s.cpsr.v)) ∧
    (∀ op c rn o, i.form = .cmp op false c rn o →
      t.cpsr.i = s.cpsr.i ∧ t.cpsr.f = s.cpsr.f ∧ t.cpsr.m = s.cpsr.m ∧ t.cpsr.reserved = s.cpsr.reserved ∧
        ((op = .tst ∨ op = .teq) → t.cpsr.v = s.cpsr.v))

/-- The frame of a block transfer that completes (R182, R183): SPSRs, IHist of an LDM, tags, platform and inputs are as before, LDM
changes no byte of memory, and an STM no PSR bit. -/
def Obligations.BlockTransferFrame : Prop :=
  ∀ (l : Bool) (c : Cond) (o : BlockOp) (s t : State), exec (if l then .ldm c o else .stm c o) s = .next t →
    (l = true → (∀ a, Memory.read t.mem a = Memory.read s.mem a) ∧ t.stale = s.stale) ∧
    (t.pc ≠ 0x10#32 → ∀ b, getSpsr t b = getSpsr s b) ∧
    (t.pc ≠ 0x10#32 → (l = false ∨ o.s = false ∨ o.list.getLsbD 15 = false) → t.cpsr = s.cpsr) ∧
    t.exec26 = s.exec26 ∧ t.exec32 = s.exec32 ∧ t.platform = s.platform ∧
    t.inputs = s.inputs ∧ t.steps = s.steps

/-! ## Whole-machine rules and invariants -/

/-- R213, R268: in a user mode no instruction changes I, F or the mode, except by taking an exception. -/
def Obligations.UserModeCannotChangeModeOrMasks : Prop :=
  ∀ (i : Instr) (s t : State), isUser s.cpsr.m = true → exec i s = .next t →
    (t.cpsr.m = s.cpsr.m ∧ t.cpsr.i = s.cpsr.i ∧ t.cpsr.f = s.cpsr.f) ∨
    (∃ e : Exc, (e = .swi ∨ e = .undefined ∨ e = .dataAbort) ∧ t.pc = e.vector ∧ t.cpsr.m = e.mode ∧ t.cpsr.i = true ∧
      t.cpsr.f = s.cpsr.f ∧ getSpsr t (bankOf e.mode) = some s.cpsr)

/-- R212, R33: from a 26-bit mode only MSR to the CPSR, with the control field and in a privileged mode, and exceptions reach a 32-bit
mode. -/
def Obligations.OnlyMsrOrExceptionLeaves26BitModes : Prop :=
  ∀ (i : Instr) (s t : State), isMode s.cpsr.m = true → is26 s.cpsr.m = true → exec i s = .next t → is26 t.cpsr.m = false →
    (∃ c mask v, isMsr i c false mask v s ∧ mask.getLsbD 0 = true ∧ isUser s.cpsr.m = false) ∨
    (∃ e : Exc, (e = .swi ∨ e = .undefined ∨ e = .dataAbort) ∧ t.pc = e.vector ∧ t.cpsr.m = e.mode ∧
      getSpsr t (bankOf e.mode) = some s.cpsr)

/-- R23, R24, R26, R36, R60: every step keeps a legal mode, an aligned PC with its top six bits zero in a 26-bit mode, memory in its
canonical form, and Seen26 inside the 26-bit space. -/
def Obligations.StepKeepsInvariant : Prop :=
  ∀ s t : State, Inv s → step s = .next t → Inv t

/-- The invariant of StepKeepsInvariant holds after reset (the memory part by the model's choice of log 4). -/
def Obligations.ResetMeetsInvariant : Prop := Inv State.reset

/-- R35: every step keeps IHist well formed: no word twice, no value twice, the present value not among the stale ones (log 6). -/
def Obligations.StepKeepsHistoryWellFormed : Prop :=
  ∀ s t : State, Memory.wf s.mem = true → staleWf s = true → step s = .next t → staleWf t = true

/-- IHist is well formed after reset (R290). -/
def Obligations.ResetHistoryWellFormed : Prop := staleWf State.reset = true
end

