-- ==== Sys2Proof/Laws/State.lean ====
section
/-! SUPPORT. What each update of the state leaves alone: one lemma per field per update. -/

namespace Sys2Proof.Machine

variable (s : State)

@[simp] theorem writeReg_pc (b : Bank) (i : RegNo) (v : Word) : (writeReg s b i v).pc = s.pc := by unfold writeReg; split <;> rfl
@[simp] theorem writeReg_cpsr (b : Bank) (i : RegNo) (v : Word) : (writeReg s b i v).cpsr = s.cpsr := by unfold writeReg; split <;> rfl
@[simp] theorem writeReg_spsrFiq (b : Bank) (i : RegNo) (v : Word) : (writeReg s b i v).spsrFiq = s.spsrFiq := by unfold writeReg; split <;> rfl
@[simp] theorem writeReg_spsrIrq (b : Bank) (i : RegNo) (v : Word) : (writeReg s b i v).spsrIrq = s.spsrIrq := by unfold writeReg; split <;> rfl
@[simp] theorem writeReg_spsrSvc (b : Bank) (i : RegNo) (v : Word) : (writeReg s b i v).spsrSvc = s.spsrSvc := by unfold writeReg; split <;> rfl
@[simp] theorem writeReg_spsrAbt (b : Bank) (i : RegNo) (v : Word) : (writeReg s b i v).spsrAbt = s.spsrAbt := by unfold writeReg; split <;> rfl
@[simp] theorem writeReg_spsrUnd (b : Bank) (i : RegNo) (v : Word) : (writeReg s b i v).spsrUnd = s.spsrUnd := by unfold writeReg; split <;> rfl
@[simp] theorem writeReg_mem (b : Bank) (i : RegNo) (v : Word) : (writeReg s b i v).mem = s.mem := by unfold writeReg; split <;> rfl
@[simp] theorem writeReg_stale (b : Bank) (i : RegNo) (v : Word) : (writeReg s b i v).stale = s.stale := by unfold writeReg; split <;> rfl
@[simp] theorem writeReg_exec26 (b : Bank) (i : RegNo) (v : Word) : (writeReg s b i v).exec26 = s.exec26 := by unfold writeReg; split <;> rfl
@[simp] theorem writeReg_exec32 (b : Bank) (i : RegNo) (v : Word) : (writeReg s b i v).exec32 = s.exec32 := by unfold writeReg; split <;> rfl
@[simp] theorem writeReg_bankHazard (b : Bank) (i : RegNo) (v : Word) : (writeReg s b i v).bankHazard = s.bankHazard := by unfold writeReg; split <;> rfl
@[simp] theorem writeReg_platform (b : Bank) (i : RegNo) (v : Word) : (writeReg s b i v).platform = s.platform := by unfold writeReg; split <;> rfl
@[simp] theorem writeReg_inputs (b : Bank) (i : RegNo) (v : Word) : (writeReg s b i v).inputs = s.inputs := by unfold writeReg; split <;> rfl
@[simp] theorem writeReg_draws (b : Bank) (i : RegNo) (v : Word) : (writeReg s b i v).draws = s.draws := by unfold writeReg; split <;> rfl
@[simp] theorem writeReg_steps (b : Bank) (i : RegNo) (v : Word) : (writeReg s b i v).steps = s.steps := by unfold writeReg; split <;> rfl

@[simp] theorem setX_pc (i : RegNo) (v : Word) : (setX s i v).pc = s.pc := by simp [setX]
@[simp] theorem setX_cpsr (i : RegNo) (v : Word) : (setX s i v).cpsr = s.cpsr := by simp [setX]
@[simp] theorem setX_spsrFiq (i : RegNo) (v : Word) : (setX s i v).spsrFiq = s.spsrFiq := by simp [setX]
@[simp] theorem setX_spsrIrq (i : RegNo) (v : Word) : (setX s i v).spsrIrq = s.spsrIrq := by simp [setX]
@[simp] theorem setX_spsrSvc (i : RegNo) (v : Word) : (setX s i v).spsrSvc = s.spsrSvc := by simp [setX]
@[simp] theorem setX_spsrAbt (i : RegNo) (v : Word) : (setX s i v).spsrAbt = s.spsrAbt := by simp [setX]
@[simp] theorem setX_spsrUnd (i : RegNo) (v : Word) : (setX s i v).spsrUnd = s.spsrUnd := by simp [setX]
@[simp] theorem setX_mem (i : RegNo) (v : Word) : (setX s i v).mem = s.mem := by simp [setX]
@[simp] theorem setX_stale (i : RegNo) (v : Word) : (setX s i v).stale = s.stale := by simp [setX]
@[simp] theorem setX_exec26 (i : RegNo) (v : Word) : (setX s i v).exec26 = s.exec26 := by simp [setX]
@[simp] theorem setX_exec32 (i : RegNo) (v : Word) : (setX s i v).exec32 = s.exec32 := by simp [setX]
@[simp] theorem setX_bankHazard (i : RegNo) (v : Word) : (setX s i v).bankHazard = s.bankHazard := by simp [setX]
@[simp] theorem setX_platform (i : RegNo) (v : Word) : (setX s i v).platform = s.platform := by simp [setX]
@[simp] theorem setX_inputs (i : RegNo) (v : Word) : (setX s i v).inputs = s.inputs := by simp [setX]
@[simp] theorem setX_draws (i : RegNo) (v : Word) : (setX s i v).draws = s.draws := by simp [setX]
@[simp] theorem setX_steps (i : RegNo) (v : Word) : (setX s i v).steps = s.steps := by simp [setX]

@[simp] theorem setSpsr_regs (b : Bank) (p : Psr) : (setSpsr s b p).regs = s.regs := by cases b <;> rfl
@[simp] theorem setSpsr_pc (b : Bank) (p : Psr) : (setSpsr s b p).pc = s.pc := by cases b <;> rfl
@[simp] theorem setSpsr_cpsr (b : Bank) (p : Psr) : (setSpsr s b p).cpsr = s.cpsr := by cases b <;> rfl
@[simp] theorem setSpsr_mem (b : Bank) (p : Psr) : (setSpsr s b p).mem = s.mem := by cases b <;> rfl
@[simp] theorem setSpsr_stale (b : Bank) (p : Psr) : (setSpsr s b p).stale = s.stale := by cases b <;> rfl
@[simp] theorem setSpsr_exec26 (b : Bank) (p : Psr) : (setSpsr s b p).exec26 = s.exec26 := by cases b <;> rfl
@[simp] theorem setSpsr_exec32 (b : Bank) (p : Psr) : (setSpsr s b p).exec32 = s.exec32 := by cases b <;> rfl
@[simp] theorem setSpsr_bankHazard (b : Bank) (p : Psr) : (setSpsr s b p).bankHazard = s.bankHazard := by cases b <;> rfl
@[simp] theorem setSpsr_platform (b : Bank) (p : Psr) : (setSpsr s b p).platform = s.platform := by cases b <;> rfl
@[simp] theorem setSpsr_inputs (b : Bank) (p : Psr) : (setSpsr s b p).inputs = s.inputs := by cases b <;> rfl
@[simp] theorem setSpsr_draws (b : Bank) (p : Psr) : (setSpsr s b p).draws = s.draws := by cases b <;> rfl
@[simp] theorem setSpsr_steps (b : Bank) (p : Psr) : (setSpsr s b p).steps = s.steps := by cases b <;> rfl

@[simp] theorem storeWord_regs (w : WordAddr) (v : Word) : (storeWord s w v).regs = s.regs := rfl
@[simp] theorem storeWord_pc (w : WordAddr) (v : Word) : (storeWord s w v).pc = s.pc := rfl
@[simp] theorem storeWord_cpsr (w : WordAddr) (v : Word) : (storeWord s w v).cpsr = s.cpsr := rfl
@[simp] theorem storeWord_spsrFiq (w : WordAddr) (v : Word) : (storeWord s w v).spsrFiq = s.spsrFiq := rfl
@[simp] theorem storeWord_spsrIrq (w : WordAddr) (v : Word) : (storeWord s w v).spsrIrq = s.spsrIrq := rfl
@[simp] theorem storeWord_spsrSvc (w : WordAddr) (v : Word) : (storeWord s w v).spsrSvc = s.spsrSvc := rfl
@[simp] theorem storeWord_spsrAbt (w : WordAddr) (v : Word) : (storeWord s w v).spsrAbt = s.spsrAbt := rfl
@[simp] theorem storeWord_spsrUnd (w : WordAddr) (v : Word) : (storeWord s w v).spsrUnd = s.spsrUnd := rfl
@[simp] theorem storeWord_exec26 (w : WordAddr) (v : Word) : (storeWord s w v).exec26 = s.exec26 := rfl
@[simp] theorem storeWord_exec32 (w : WordAddr) (v : Word) : (storeWord s w v).exec32 = s.exec32 := rfl
@[simp] theorem storeWord_bankHazard (w : WordAddr) (v : Word) : (storeWord s w v).bankHazard = s.bankHazard := rfl
@[simp] theorem storeWord_platform (w : WordAddr) (v : Word) : (storeWord s w v).platform = s.platform := rfl
@[simp] theorem storeWord_inputs (w : WordAddr) (v : Word) : (storeWord s w v).inputs = s.inputs := rfl
@[simp] theorem storeWord_draws (w : WordAddr) (v : Word) : (storeWord s w v).draws = s.draws := rfl
@[simp] theorem storeWord_steps (w : WordAddr) (v : Word) : (storeWord s w v).steps = s.steps := rfl

@[simp] theorem imbFlush_regs  : (imbFlush s).regs = s.regs := rfl
@[simp] theorem imbFlush_pc  : (imbFlush s).pc = s.pc := rfl
@[simp] theorem imbFlush_cpsr  : (imbFlush s).cpsr = s.cpsr := rfl
@[simp] theorem imbFlush_spsrFiq  : (imbFlush s).spsrFiq = s.spsrFiq := rfl
@[simp] theorem imbFlush_spsrIrq  : (imbFlush s).spsrIrq = s.spsrIrq := rfl
@[simp] theorem imbFlush_spsrSvc  : (imbFlush s).spsrSvc = s.spsrSvc := rfl
@[simp] theorem imbFlush_spsrAbt  : (imbFlush s).spsrAbt = s.spsrAbt := rfl
@[simp] theorem imbFlush_spsrUnd  : (imbFlush s).spsrUnd = s.spsrUnd := rfl
@[simp] theorem imbFlush_mem  : (imbFlush s).mem = s.mem := rfl
@[simp] theorem imbFlush_bankHazard  : (imbFlush s).bankHazard = s.bankHazard := rfl
@[simp] theorem imbFlush_platform  : (imbFlush s).platform = s.platform := rfl
@[simp] theorem imbFlush_inputs  : (imbFlush s).inputs = s.inputs := rfl
@[simp] theorem imbFlush_draws  : (imbFlush s).draws = s.draws := rfl
@[simp] theorem imbFlush_steps  : (imbFlush s).steps = s.steps := rfl

@[simp] theorem imbFlush_stale : (imbFlush s).stale = [] := rfl
@[simp] theorem imbFlush_exec26 : (imbFlush s).exec26 = [] := rfl
@[simp] theorem imbFlush_exec32 : (imbFlush s).exec32 = [] := rfl

@[simp] theorem enter_mem (e : Exc) (l : Word) : (enter e l s).mem = s.mem := by simp [enter]
@[simp] theorem enter_stale (e : Exc) (l : Word) : (enter e l s).stale = s.stale := by simp [enter]
@[simp] theorem enter_exec26 (e : Exc) (l : Word) : (enter e l s).exec26 = s.exec26 := by simp [enter]
@[simp] theorem enter_exec32 (e : Exc) (l : Word) : (enter e l s).exec32 = s.exec32 := by simp [enter]
@[simp] theorem enter_platform (e : Exc) (l : Word) : (enter e l s).platform = s.platform := by simp [enter]
@[simp] theorem enter_inputs (e : Exc) (l : Word) : (enter e l s).inputs = s.inputs := by simp [enter]
@[simp] theorem enter_draws (e : Exc) (l : Word) : (enter e l s).draws = s.draws := by simp [enter]
@[simp] theorem enter_steps (e : Exc) (l : Word) : (enter e l s).steps = s.steps := by simp [enter]

@[simp] theorem enter_pc (e : Exc) (l : Word) : (enter e l s).pc = e.vector := rfl
@[simp] theorem enter_cpsr (e : Exc) (l : Word) :
    (enter e l s).cpsr = { s.cpsr with m := e.mode, i := true, f := s.cpsr.f || e.setsF } := rfl
@[simp] theorem enter_bankHazard (e : Exc) (l : Word) : (enter e l s).bankHazard = .clear := rfl
@[simp] theorem enter_regs (e : Exc) (l : Word) :
    (enter e l s).regs = (writeReg s (bankOf e.mode) 14 l).regs := by simp [enter]

@[simp] theorem noteModeChange_regs (m : ModeBits) : (noteModeChange m s).regs = s.regs := by unfold noteModeChange; split <;> rfl
@[simp] theorem noteModeChange_pc (m : ModeBits) : (noteModeChange m s).pc = s.pc := by unfold noteModeChange; split <;> rfl
@[simp] theorem noteModeChange_cpsr (m : ModeBits) : (noteModeChange m s).cpsr = s.cpsr := by unfold noteModeChange; split <;> rfl
@[simp] theorem noteModeChange_spsrFiq (m : ModeBits) : (noteModeChange m s).spsrFiq = s.spsrFiq := by unfold noteModeChange; split <;> rfl
@[simp] theorem noteModeChange_spsrIrq (m : ModeBits) : (noteModeChange m s).spsrIrq = s.spsrIrq := by unfold noteModeChange; split <;> rfl
@[simp] theorem noteModeChange_spsrSvc (m : ModeBits) : (noteModeChange m s).spsrSvc = s.spsrSvc := by unfold noteModeChange; split <;> rfl
@[simp] theorem noteModeChange_spsrAbt (m : ModeBits) : (noteModeChange m s).spsrAbt = s.spsrAbt := by unfold noteModeChange; split <;> rfl
@[simp] theorem noteModeChange_spsrUnd (m : ModeBits) : (noteModeChange m s).spsrUnd = s.spsrUnd := by unfold noteModeChange; split <;> rfl
@[simp] theorem noteModeChange_mem (m : ModeBits) : (noteModeChange m s).mem = s.mem := by unfold noteModeChange; split <;> rfl
@[simp] theorem noteModeChange_stale (m : ModeBits) : (noteModeChange m s).stale = s.stale := by unfold noteModeChange; split <;> rfl
@[simp] theorem noteModeChange_exec26 (m : ModeBits) : (noteModeChange m s).exec26 = s.exec26 := by unfold noteModeChange; split <;> rfl
@[simp] theorem noteModeChange_exec32 (m : ModeBits) : (noteModeChange m s).exec32 = s.exec32 := by unfold noteModeChange; split <;> rfl
@[simp] theorem noteModeChange_platform (m : ModeBits) : (noteModeChange m s).platform = s.platform := by unfold noteModeChange; split <;> rfl
@[simp] theorem noteModeChange_inputs (m : ModeBits) : (noteModeChange m s).inputs = s.inputs := by unfold noteModeChange; split <;> rfl
@[simp] theorem noteModeChange_draws (m : ModeBits) : (noteModeChange m s).draws = s.draws := by unfold noteModeChange; split <;> rfl
@[simp] theorem noteModeChange_steps (m : ModeBits) : (noteModeChange m s).steps = s.steps := by unfold noteModeChange; split <;> rfl

@[simp] theorem writeBack_pc (o : BlockOp) (wb : Word) : (writeBack o wb s).pc = s.pc := by unfold writeBack; split <;> simp
@[simp] theorem writeBack_cpsr (o : BlockOp) (wb : Word) : (writeBack o wb s).cpsr = s.cpsr := by unfold writeBack; split <;> simp
@[simp] theorem writeBack_spsrFiq (o : BlockOp) (wb : Word) : (writeBack o wb s).spsrFiq = s.spsrFiq := by unfold writeBack; split <;> simp
@[simp] theorem writeBack_spsrIrq (o : BlockOp) (wb : Word) : (writeBack o wb s).spsrIrq = s.spsrIrq := by unfold writeBack; split <;> simp
@[simp] theorem writeBack_spsrSvc (o : BlockOp) (wb : Word) : (writeBack o wb s).spsrSvc = s.spsrSvc := by unfold writeBack; split <;> simp
@[simp] theorem writeBack_spsrAbt (o : BlockOp) (wb : Word) : (writeBack o wb s).spsrAbt = s.spsrAbt := by unfold writeBack; split <;> simp
@[simp] theorem writeBack_spsrUnd (o : BlockOp) (wb : Word) : (writeBack o wb s).spsrUnd = s.spsrUnd := by unfold writeBack; split <;> simp
@[simp] theorem writeBack_mem (o : BlockOp) (wb : Word) : (writeBack o wb s).mem = s.mem := by unfold writeBack; split <;> simp
@[simp] theorem writeBack_stale (o : BlockOp) (wb : Word) : (writeBack o wb s).stale = s.stale := by unfold writeBack; split <;> simp
@[simp] theorem writeBack_exec26 (o : BlockOp) (wb : Word) : (writeBack o wb s).exec26 = s.exec26 := by unfold writeBack; split <;> simp
@[simp] theorem writeBack_exec32 (o : BlockOp) (wb : Word) : (writeBack o wb s).exec32 = s.exec32 := by unfold writeBack; split <;> simp
@[simp] theorem writeBack_bankHazard (o : BlockOp) (wb : Word) : (writeBack o wb s).bankHazard = s.bankHazard := by unfold writeBack; split <;> simp
@[simp] theorem writeBack_platform (o : BlockOp) (wb : Word) : (writeBack o wb s).platform = s.platform := by unfold writeBack; split <;> simp
@[simp] theorem writeBack_inputs (o : BlockOp) (wb : Word) : (writeBack o wb s).inputs = s.inputs := by unfold writeBack; split <;> simp
@[simp] theorem writeBack_draws (o : BlockOp) (wb : Word) : (writeBack o wb s).draws = s.draws := by unfold writeBack; split <;> simp
@[simp] theorem writeBack_steps (o : BlockOp) (wb : Word) : (writeBack o wb s).steps = s.steps := by unfold writeBack; split <;> simp

@[simp] theorem abortBase_pc (o : BlockOp) (b wb : Word) : (abortBase o b wb s).pc = s.pc := by simp [abortBase]
@[simp] theorem abortBase_cpsr (o : BlockOp) (b wb : Word) : (abortBase o b wb s).cpsr = s.cpsr := by simp [abortBase]
@[simp] theorem abortBase_spsrFiq (o : BlockOp) (b wb : Word) : (abortBase o b wb s).spsrFiq = s.spsrFiq := by simp [abortBase]
@[simp] theorem abortBase_spsrIrq (o : BlockOp) (b wb : Word) : (abortBase o b wb s).spsrIrq = s.spsrIrq := by simp [abortBase]
@[simp] theorem abortBase_spsrSvc (o : BlockOp) (b wb : Word) : (abortBase o b wb s).spsrSvc = s.spsrSvc := by simp [abortBase]
@[simp] theorem abortBase_spsrAbt (o : BlockOp) (b wb : Word) : (abortBase o b wb s).spsrAbt = s.spsrAbt := by simp [abortBase]
@[simp] theorem abortBase_spsrUnd (o : BlockOp) (b wb : Word) : (abortBase o b wb s).spsrUnd = s.spsrUnd := by simp [abortBase]
@[simp] theorem abortBase_mem (o : BlockOp) (b wb : Word) : (abortBase o b wb s).mem = s.mem := by simp [abortBase]
@[simp] theorem abortBase_stale (o : BlockOp) (b wb : Word) : (abortBase o b wb s).stale = s.stale := by simp [abortBase]
@[simp] theorem abortBase_exec26 (o : BlockOp) (b wb : Word) : (abortBase o b wb s).exec26 = s.exec26 := by simp [abortBase]
@[simp] theorem abortBase_exec32 (o : BlockOp) (b wb : Word) : (abortBase o b wb s).exec32 = s.exec32 := by simp [abortBase]
@[simp] theorem abortBase_bankHazard (o : BlockOp) (b wb : Word) : (abortBase o b wb s).bankHazard = s.bankHazard := by simp [abortBase]
@[simp] theorem abortBase_platform (o : BlockOp) (b wb : Word) : (abortBase o b wb s).platform = s.platform := by simp [abortBase]
@[simp] theorem abortBase_inputs (o : BlockOp) (b wb : Word) : (abortBase o b wb s).inputs = s.inputs := by simp [abortBase]
@[simp] theorem abortBase_draws (o : BlockOp) (b wb : Word) : (abortBase o b wb s).draws = s.draws := by simp [abortBase]
@[simp] theorem abortBase_steps (o : BlockOp) (b wb : Word) : (abortBase o b wb s).steps = s.steps := by simp [abortBase]

@[simp] theorem clearHazard_regs  : (clearHazard s).regs = s.regs := rfl
@[simp] theorem clearHazard_pc  : (clearHazard s).pc = s.pc := rfl
@[simp] theorem clearHazard_cpsr  : (clearHazard s).cpsr = s.cpsr := rfl
@[simp] theorem clearHazard_spsrFiq  : (clearHazard s).spsrFiq = s.spsrFiq := rfl
@[simp] theorem clearHazard_spsrIrq  : (clearHazard s).spsrIrq = s.spsrIrq := rfl
@[simp] theorem clearHazard_spsrSvc  : (clearHazard s).spsrSvc = s.spsrSvc := rfl
@[simp] theorem clearHazard_spsrAbt  : (clearHazard s).spsrAbt = s.spsrAbt := rfl
@[simp] theorem clearHazard_spsrUnd  : (clearHazard s).spsrUnd = s.spsrUnd := rfl
@[simp] theorem clearHazard_mem  : (clearHazard s).mem = s.mem := rfl
@[simp] theorem clearHazard_stale  : (clearHazard s).stale = s.stale := rfl
@[simp] theorem clearHazard_exec26  : (clearHazard s).exec26 = s.exec26 := rfl
@[simp] theorem clearHazard_exec32  : (clearHazard s).exec32 = s.exec32 := rfl
@[simp] theorem clearHazard_platform  : (clearHazard s).platform = s.platform := rfl
@[simp] theorem clearHazard_inputs  : (clearHazard s).inputs = s.inputs := rfl
@[simp] theorem clearHazard_draws  : (clearHazard s).draws = s.draws := rfl
@[simp] theorem clearHazard_steps  : (clearHazard s).steps = s.steps := rfl

@[simp] theorem clearHazard_bankHazard : (clearHazard s).bankHazard = .clear := rfl

@[simp] theorem popInput_regs  : (popInput s).regs = s.regs := rfl
@[simp] theorem popInput_pc  : (popInput s).pc = s.pc := rfl
@[simp] theorem popInput_cpsr  : (popInput s).cpsr = s.cpsr := rfl
@[simp] theorem popInput_spsrFiq  : (popInput s).spsrFiq = s.spsrFiq := rfl
@[simp] theorem popInput_spsrIrq  : (popInput s).spsrIrq = s.spsrIrq := rfl
@[simp] theorem popInput_spsrSvc  : (popInput s).spsrSvc = s.spsrSvc := rfl
@[simp] theorem popInput_spsrAbt  : (popInput s).spsrAbt = s.spsrAbt := rfl
@[simp] theorem popInput_spsrUnd  : (popInput s).spsrUnd = s.spsrUnd := rfl
@[simp] theorem popInput_mem  : (popInput s).mem = s.mem := rfl
@[simp] theorem popInput_stale  : (popInput s).stale = s.stale := rfl
@[simp] theorem popInput_exec26  : (popInput s).exec26 = s.exec26 := rfl
@[simp] theorem popInput_exec32  : (popInput s).exec32 = s.exec32 := rfl
@[simp] theorem popInput_bankHazard  : (popInput s).bankHazard = s.bankHazard := rfl
@[simp] theorem popInput_platform  : (popInput s).platform = s.platform := rfl
@[simp] theorem popInput_draws  : (popInput s).draws = s.draws := rfl
@[simp] theorem popInput_steps : (popInput s).steps = s.steps + 1 := rfl

@[simp] theorem popInput_inputs : (popInput s).inputs = s.inputs.tail := rfl

@[simp] theorem tagExecuted_regs  : (tagExecuted s).regs = s.regs := by unfold tagExecuted; split <;> rfl
@[simp] theorem tagExecuted_pc  : (tagExecuted s).pc = s.pc := by unfold tagExecuted; split <;> rfl
@[simp] theorem tagExecuted_cpsr  : (tagExecuted s).cpsr = s.cpsr := by unfold tagExecuted; split <;> rfl
@[simp] theorem tagExecuted_spsrFiq  : (tagExecuted s).spsrFiq = s.spsrFiq := by unfold tagExecuted; split <;> rfl
@[simp] theorem tagExecuted_spsrIrq  : (tagExecuted s).spsrIrq = s.spsrIrq := by unfold tagExecuted; split <;> rfl
@[simp] theorem tagExecuted_spsrSvc  : (tagExecuted s).spsrSvc = s.spsrSvc := by unfold tagExecuted; split <;> rfl
@[simp] theorem tagExecuted_spsrAbt  : (tagExecuted s).spsrAbt = s.spsrAbt := by unfold tagExecuted; split <;> rfl
@[simp] theorem tagExecuted_spsrUnd  : (tagExecuted s).spsrUnd = s.spsrUnd := by unfold tagExecuted; split <;> rfl
@[simp] theorem tagExecuted_mem  : (tagExecuted s).mem = s.mem := by unfold tagExecuted; split <;> rfl
@[simp] theorem tagExecuted_stale  : (tagExecuted s).stale = s.stale := by unfold tagExecuted; split <;> rfl
@[simp] theorem tagExecuted_bankHazard  : (tagExecuted s).bankHazard = s.bankHazard := by unfold tagExecuted; split <;> rfl
@[simp] theorem tagExecuted_platform  : (tagExecuted s).platform = s.platform := by unfold tagExecuted; split <;> rfl
@[simp] theorem tagExecuted_inputs  : (tagExecuted s).inputs = s.inputs := by unfold tagExecuted; split <;> rfl
@[simp] theorem tagExecuted_draws  : (tagExecuted s).draws = s.draws := by unfold tagExecuted; split <;> rfl
@[simp] theorem tagExecuted_steps  : (tagExecuted s).steps = s.steps := by unfold tagExecuted; split <;> rfl

@[simp] theorem drawWord_regs  : ((drawWord s).2).regs = s.regs := rfl
@[simp] theorem drawWord_pc  : ((drawWord s).2).pc = s.pc := rfl
@[simp] theorem drawWord_cpsr  : ((drawWord s).2).cpsr = s.cpsr := rfl
@[simp] theorem drawWord_spsrFiq  : ((drawWord s).2).spsrFiq = s.spsrFiq := rfl
@[simp] theorem drawWord_spsrIrq  : ((drawWord s).2).spsrIrq = s.spsrIrq := rfl
@[simp] theorem drawWord_spsrSvc  : ((drawWord s).2).spsrSvc = s.spsrSvc := rfl
@[simp] theorem drawWord_spsrAbt  : ((drawWord s).2).spsrAbt = s.spsrAbt := rfl
@[simp] theorem drawWord_spsrUnd  : ((drawWord s).2).spsrUnd = s.spsrUnd := rfl
@[simp] theorem drawWord_mem  : ((drawWord s).2).mem = s.mem := rfl
@[simp] theorem drawWord_stale  : ((drawWord s).2).stale = s.stale := rfl
@[simp] theorem drawWord_exec26  : ((drawWord s).2).exec26 = s.exec26 := rfl
@[simp] theorem drawWord_exec32  : ((drawWord s).2).exec32 = s.exec32 := rfl
@[simp] theorem drawWord_bankHazard  : ((drawWord s).2).bankHazard = s.bankHazard := rfl
@[simp] theorem drawWord_platform  : ((drawWord s).2).platform = s.platform := rfl
@[simp] theorem drawWord_inputs  : ((drawWord s).2).inputs = s.inputs := rfl

@[simp] theorem drawWord_draws : (drawWord s).2.draws = s.draws + 1 := rfl
@[simp] theorem drawWord_steps : (drawWord s).2.steps = s.steps := rfl

end Sys2Proof.Machine
end

