-- ==== Sys2Proof/Laws/Registers.lean ====
section
/-! SUPPORT. Reading a register after a write, in every bank (spec/10_state.md R21, R22). -/

namespace Sys2Proof.Machine

/-- Register numbers 0 to 14 have a physical register in every bank. -/
theorem physReg_some (b : Bank) (i : RegNo) (h : i ≠ 15) : ∃ p, physReg b i = some p := by
  revert i; cases b <;> decide

@[simp] theorem physReg_r15 (b : Bank) : physReg b 15 = none := by cases b <;> rfl

/-- Two register numbers of one bank never share a physical register. -/
theorem physReg_inj (b : Bank) (i j : RegNo) (p : PhysReg) (hi : physReg b i = some p) (hj : physReg b j = some p) :
    i = j := by
  revert i j p; cases b <;> decide

/-- Which registers the banks share: R0 to R7 all of them, R8 to R12 all but the FIQ bank, R13 and R14 none (R21). -/
theorem physReg_eq_iff (b b' : Bank) (i j : RegNo) (hi : i ≠ 15) (hj : j ≠ 15) :
    physReg b i = physReg b' j ↔ i = j ∧ (i.val ≤ 7 ∨ (i.val ≤ 12 ∧ (b = .fiq ↔ b' = .fiq)) ∨ b = b') := by
  revert i j; cases b <;> cases b' <;> decide

/-- A write of register 0 to 14 writes its physical register and no other. -/
theorem writeReg_phys (s : State) (b : Bank) (i : RegNo) (v : Word) (p q : PhysReg) (h : physReg b i = some p) :
    (writeReg s b i v).regs[q] = if q = p then v else s.regs[q] := by
  simp only [writeReg, h, Fin.getElem_fin, Vector.getElem_set, Fin.ext_iff]
  by_cases hq : (p : Nat) = q <;> simp [hq, eq_comm]

/-- A physical register that is not the one written keeps its value. -/
theorem writeReg_frame (s : State) (b : Bank) (i : RegNo) (v : Word) (q : PhysReg) (h : physReg b i ≠ some q) :
    (writeReg s b i v).regs[q] = s.regs[q] := by
  unfold writeReg
  split
  next p hp =>
    have : (p : Nat) ≠ q := fun e => h (by rw [hp, Fin.ext e])
    simp [this]
  next => rfl

/-- Read after write, the same register. -/
@[simp] theorem readReg_writeReg_same (s : State) (b : Bank) (i : RegNo) (v : Word) (h : i ≠ 15) :
    readReg (writeReg s b i v) b i = v := by
  obtain ⟨p, hp⟩ := physReg_some b i h
  simp only [readReg, hp, writeReg_phys s b i v p p hp, if_pos]

/-- Read after write, another physical register. -/
theorem readReg_writeReg_frame (s : State) (b b' : Bank) (i j : RegNo) (v : Word)
    (h : physReg b i ≠ physReg b' j) : readReg (writeReg s b i v) b' j = readReg s b' j := by
  unfold readReg
  split
  next p hp => exact writeReg_frame s b i v p (by rw [← hp]; exact h)
  next => simp

/-- Read after write in one bank, another register number. -/
theorem readReg_writeReg_other (s : State) (b : Bank) (i j : RegNo) (v : Word) (h : i ≠ j) :
    readReg (writeReg s b i v) b j = readReg s b j := by
  by_cases hj : j = 15
  · subst hj; simp [readReg]
  · obtain ⟨q, hq⟩ := physReg_some b j hj
    refine readReg_writeReg_frame s b b i j v fun e => h ?_
    exact physReg_inj b i j q (by rw [e, hq]) hq

@[simp] theorem curBank_setX (s : State) (i : RegNo) (v : Word) : curBank (setX s i v) = curBank s := by
  simp [curBank]

@[simp] theorem getX_setX_same (s : State) (i : RegNo) (v : Word) (h : i ≠ 15) : getX (setX s i v) i = v := by
  simp [getX, setX, curBank, h]

theorem getX_setX_other (s : State) (i j : RegNo) (v : Word) (h : i ≠ j) : getX (setX s i v) j = getX s j := by
  simp only [getX, curBank_setX]; exact readReg_writeReg_other s _ i j v h

/-- The SPSR of a bank after a write of the SPSR of the same bank. -/
theorem getSpsr_setSpsr_same (s : State) (b : Bank) (p : Psr) (h : b ≠ .usr) :
    getSpsr (setSpsr s b p) b = some p := by cases b <;> simp_all [getSpsr, setSpsr]

/-- The SPSR of another bank. -/
theorem getSpsr_setSpsr_other (s : State) (b b' : Bank) (p : Psr) (h : b ≠ b') :
    getSpsr (setSpsr s b p) b' = getSpsr s b' := by cases b <;> cases b' <;> simp_all [getSpsr, setSpsr]

end Sys2Proof.Machine
end

