-- ==== Sys2Proof/Laws/Control.lean ====
section
/-! SUPPORT. Everything the control operations can do: `jump`, `advance`, `whenPassed`, `exceptionReturn`,
`writeR15S` (spec/10_state.md R25, spec/00_scope.md R9, spec/41_data_processing_r15.md R153, R154). -/

namespace Sys2Proof.Machine

/-- The mask of the 26-bit word addresses, bit by bit. -/
theorem getLsbD_mask26 (i : Nat) (h : i < 32) : (0x03FFFFFC#32).getLsbD i = (decide (2 ≤ i) && decide (i < 26)) := by
  have : ∀ j : Fin 32, (0x03FFFFFC#32).getLsbD j = (decide (2 ≤ j.val) && decide (j.val < 26)) := by decide
  exact this ⟨i, h⟩

/-- `trunc26` gives a word address. -/
@[simp] theorem unaligned_trunc26 (v : Word) : unaligned (trunc26 v) = false := by
  simp only [unaligned, trunc26, bne_eq_false_iff_eq]
  ext i hi
  rw [BitVec.getElem_extractLsb', BitVec.getLsbD_and, getLsbD_mask26 _ (by omega)]
  simp; omega

/-- `trunc26` gives an address of the 26-bit space. -/
@[simp] theorem outside26_trunc26 (v : Word) : outside26 (trunc26 v) = false := by
  simp only [outside26, trunc26, bne_eq_false_iff_eq]
  ext i hi
  rw [BitVec.getElem_extractLsb', BitVec.getLsbD_and, getLsbD_mask26 _ (by omega)]
  simp

/-- A word address of the 26-bit space is its own truncation. -/
theorem trunc26_of_inside (q : Word) (h1 : q.toNat < 2 ^ 26) (h2 : q.toNat % 4 = 0) : trunc26 q = q := by
  ext i hi
  have e : trunc26 q = q &&& 0x03FFFFFC#32 := rfl
  rw [e, BitVec.getElem_and, ← BitVec.getLsbD_eq_getElem (x := 0x03FFFFFC#32), getLsbD_mask26 i hi]
  by_cases hi2 : i < 2
  · have : q[i] = false := by
      rw [← BitVec.getLsbD_eq_getElem, BitVec.getLsbD, Nat.testBit_eq_decide_div_mod_eq]
      rcases i with _ | _ | i
      · simp; omega
      · simp; omega
      · omega
    simp [this]
  · by_cases hi26 : i < 26
    · simp [hi26]; omega
    · have : q[i] = false := by
        rw [← BitVec.getLsbD_eq_getElem, BitVec.getLsbD]
        exact Nat.testBit_lt_two_pow (lt_of_lt_of_le h1 (Nat.pow_le_pow_right (by decide) (by omega)))
      simp [this]

/-- If `jump` answers a next state, that state differs in the PC alone; the new PC is word aligned, and in a
26-bit mode inside the 26-bit space. -/
theorem jump_next (m : ModeBits) (v : Word) (s t : State) (h : jump m v s = .next t) :
    ∃ p, t = { s with pc := p } ∧ (p = v ∨ p = trunc26 v) ∧ unaligned p = false ∧
      (is26 s.cpsr.m = true → outside26 p = false) := by
  have al := unaligned_trunc26 v
  have ins := outside26_trunc26 v
  unfold jump at h
  split at h
  · split at h
    · cases h; exact ⟨_, rfl, .inr rfl, al, fun _ => ins⟩
    · split at h
      · cases h
      · split at h
        · cases h
        · next hi hu =>
          cases h
          simp only [Bool.or_eq_true, not_or, Bool.not_eq_true] at hi
          exact ⟨_, rfl, .inl rfl, by simpa using hu, fun _ => hi.1⟩
  · next h26 =>
    split at h
    · cases h; exact ⟨_, rfl, .inr rfl, al, fun _ => ins⟩
    · split at h
      · cases h
      · next hu => cases h; exact ⟨_, rfl, .inl rfl, by simpa using hu, fun e => absurd e h26⟩

/-- `jump` never ends in a fault. -/
theorem jump_no_fault (m : ModeBits) (v : Word) (s : State) (f : Fault) : jump m v s ≠ .fault f := by
  unfold jump; repeat' split
  all_goals simp

/-- If `advance` answers a next state, so does `jump` to PC + 4. -/
theorem advance_next (m : ModeBits) (s t : State) (h : advance m s = .next t) :
    jump m (s.pc + 4#32) s = .next t := by
  unfold advance at h
  split at h
  · cases h
  · split at h
    · cases h
    · exact h

/-- The address after an aligned instruction inside the 26-bit space, not the last word, is in that space. -/
theorem trunc26_next (p : Word) (ha : unaligned p = false) (hi : outside26 p = false) (hl : p ≠ 0x03FFFFFC#32) :
    trunc26 (p + 4#32) = p + 4#32 := by
  have hi' : p.toNat < 2 ^ 26 := by
    have := congrArg BitVec.toNat (show p.extractLsb' 26 6 = 0#6 by simpa [outside26] using hi)
    simp [BitVec.extractLsb'_toNat, Nat.shiftRight_eq_div_pow] at this
    have := p.isLt; omega
  have ha' : p.toNat % 4 = 0 := by
    have := congrArg BitVec.toNat (show p.extractLsb' 0 2 = 0#2 by simpa [unaligned] using ha)
    simpa [BitVec.extractLsb'_toNat] using this
  have hl' : p.toNat ≠ 0x03FFFFFC := fun e => hl (BitVec.eq_of_toNat_eq (by simpa using e))
  have hq : (p + 4#32).toNat = p.toNat + 4 := by simp [BitVec.toNat_add]; omega
  exact trunc26_of_inside _ (by omega) (by omega)

/-- Where sequential execution is allowed and the mode keeps its width, `advance` goes to PC + 4. -/
theorem advance_sequential (s t : State) (hs : Sequential s) (hpc : t.pc = s.pc) (hm : is26 t.cpsr.m = is26 s.cpsr.m) :
    advance s.cpsr.m t = .next { t with pc := s.pc + 4#32 } := by
  obtain ⟨ha, h26, h32⟩ := hs
  unfold advance jump
  rw [hpc, hm]
  cases hw : is26 s.cpsr.m with
  | true =>
    obtain ⟨hi, hl⟩ := h26 hw
    simp [trunc26_next s.pc ha hi hl, hl]
  | false =>
    have hu : unaligned (s.pc + 4#32) = false := by
      have e : s.pc.extractLsb' 0 2 = 0#2 := by simpa [unaligned] using ha
      have : s.pc.toNat % 4 = 0 := by
        have := congrArg BitVec.toNat e; simpa [BitVec.extractLsb'_toNat] using this
      simp only [unaligned, bne_eq_false_iff_eq]
      apply BitVec.eq_of_toNat_eq
      simp [BitVec.extractLsb'_toNat, BitVec.toNat_add]; omega
    simp [h32 hw, hu]

/-- A condition that passes lets the instruction run. -/
theorem whenPassed_passed (c : Cond) (s : State) (r : Result) (h : condPassed c s.cpsr = true) :
    whenPassed c s r = r := by simp [whenPassed, h]

/-- A condition that fails skips the instruction. -/
theorem whenPassed_failed (c : Cond) (s : State) (r : Result) (h : condPassed c s.cpsr = false) :
    whenPassed c s r = advance s.cpsr.m s := by simp [whenPassed, h]

/-- If a conditional instruction answers a next state, it ran or it was skipped. -/
theorem whenPassed_next (c : Cond) (s t : State) (r : Result) (h : whenPassed c s r = .next t) :
    (condPassed c s.cpsr = true ∧ r = .next t) ∨ (condPassed c s.cpsr = false ∧ advance s.cpsr.m s = .next t) := by
  unfold whenPassed at h
  split at h
  · next hp => exact .inl ⟨hp, h⟩
  · next hp => exact .inr ⟨by simpa using hp, h⟩

/-- If an exception return answers a next state, the mode is privileged and the CPSR is the SPSR, with a
legal mode; nothing else changes but the PC. -/
theorem exceptionReturn_next (v : Word) (s t : State) (h : exceptionReturn v s = .next t) :
    ∃ p, isUser s.cpsr.m = false ∧ getSpsr s (curBank s) = some p ∧ isMode p.m = true ∧
      jump s.cpsr.m v { s with cpsr := p } = .next t := by
  unfold exceptionReturn at h
  split at h
  · cases h
  · next hu =>
    split at h
    · cases h
    · next p hp =>
      split at h
      · next hm => exact ⟨p, by simpa using hu, hp, hm, h⟩
      · cases h

end Sys2Proof.Machine
end

