-- ==== Sys2Proof/Laws/Memory.lean ====
section
/-! SUPPORT. The laws of memory: read after write, the canonical form, words and their bytes, IHist
(spec/20_memory.md R60 to R62, spec/10_state.md R35). -/

namespace Sys2Proof.Machine

/-! ### Bytes -/

/-- A byte below every listed address is unlisted. -/
theorem Memory.read_below (m : Memory) (lo a : Nat) (h : Memory.wfFrom lo m = true) (ha : a < lo) :
    Memory.read m a = unlistedByte := by
  induction m generalizing lo with
  | nil => rfl
  | cons e m ih =>
    obtain ⟨k, v⟩ := e
    simp only [Memory.wfFrom, Bool.and_eq_true, decide_eq_true_eq] at h
    rw [Memory.read, if_neg (by omega), ih (k + 1) h.2 (by omega)]

/-- Lowering the bound keeps the form. -/
theorem Memory.wfFrom_mono (m : Memory) (lo lo' : Nat) (h : Memory.wfFrom lo m = true) (hl : lo' ≤ lo) :
    Memory.wfFrom lo' m = true := by
  cases m with
  | nil => rfl
  | cons e m =>
    obtain ⟨k, v⟩ := e
    simp only [Memory.wfFrom, Bool.and_eq_true, decide_eq_true_eq] at h ⊢
    exact ⟨⟨⟨by omega, h.1.1.2⟩, h.1.2⟩, h.2⟩

/-- A write of one byte keeps the canonical form. -/
theorem Memory.wfFrom_write (m : Memory) (lo a : Nat) (b : Byte) (h : Memory.wfFrom lo m = true) (ha : lo ≤ a)
    (hb : a < 2 ^ 32) : Memory.wfFrom lo (Memory.write m a b) = true := by
  induction m generalizing lo with
  | nil => unfold Memory.write; split <;> simp_all [Memory.wfFrom]
  | cons e m ih =>
    obtain ⟨k, v⟩ := e
    have h' := h
    simp only [Memory.wfFrom, Bool.and_eq_true, decide_eq_true_eq, bne_iff_ne] at h'
    unfold Memory.write
    split
    next hk =>
      split
      next => exact h
      next hz =>
        simp only [Memory.wfFrom, Bool.and_eq_true, decide_eq_true_eq, bne_iff_ne]
        exact ⟨⟨⟨ha, hb⟩, hz⟩, ⟨⟨by omega, h'.1.1.2⟩, h'.1.2⟩, h'.2⟩
    next hk =>
      split
      next he =>
        split
        next => exact Memory.wfFrom_mono m (k + 1) lo h'.2 (by omega)
        next hz =>
          simp only [Memory.wfFrom, Bool.and_eq_true, decide_eq_true_eq, bne_iff_ne]
          exact ⟨⟨⟨ha, hb⟩, hz⟩, he ▸ h'.2⟩
      next he =>
        simp only [Memory.wfFrom, Bool.and_eq_true, decide_eq_true_eq, bne_iff_ne]
        exact ⟨h'.1, ih (k + 1) h'.2 (by omega)⟩

/-- A write below 2^32 keeps the canonical form of memory. -/
theorem Memory.wf_write (m : Memory) (a : Nat) (b : Byte) (h : Memory.wf m = true) (ha : a < 2 ^ 32) :
    Memory.wf (Memory.write m a b) = true := Memory.wfFrom_write m 0 a b h (Nat.zero_le a) ha

/-- Read after write on a memory in canonical form. -/
theorem Memory.read_write (m : Memory) (lo a x : Nat) (b : Byte) (h : Memory.wfFrom lo m = true) :
    Memory.read (Memory.write m a b) x = if x = a then b else Memory.read m x := by
  induction m generalizing lo with
  | nil =>
    unfold Memory.write
    by_cases hb : b = unlistedByte <;> by_cases hx : x = a
    · simp [hb, hx, Memory.read]
    · simp [hb, hx, Memory.read]
    · simp [hb, hx, Memory.read]
    · simp [hb, hx, Ne.symm hx, Memory.read]
  | cons e m ih =>
    obtain ⟨k, v⟩ := e
    simp only [Memory.wfFrom, Bool.and_eq_true, decide_eq_true_eq] at h
    unfold Memory.write
    split
    next hk =>
      have below : Memory.read ((k, v) :: m) a = unlistedByte := by
        rw [Memory.read, if_neg (by omega)]; exact Memory.read_below m (k + 1) a h.2 (by omega)
      split
      next hb => by_cases hx : x = a <;> simp [hx, hb, below]
      next hb =>
        by_cases hx : x = a
        · simp [hx, Memory.read]
        · rw [Memory.read, if_neg (Ne.symm hx), if_neg hx]
    next hk =>
      split
      next he =>
        subst he
        have gone : Memory.read m a = unlistedByte := Memory.read_below m (a + 1) a h.2 (by omega)
        split
        next hb =>
          by_cases hx : x = a
          · simp [hx, hb, gone]
          · rw [if_neg hx, Memory.read, if_neg (Ne.symm hx)]
        next hb =>
          by_cases hx : x = a
          · simp [hx, Memory.read]
          · rw [if_neg hx, Memory.read, if_neg (Ne.symm hx), Memory.read, if_neg (Ne.symm hx)]
      next he =>
        by_cases hx : x = a
        · subst hx; rw [Memory.read, if_neg (Ne.symm he), ih (k + 1) h.2, if_pos rfl, if_pos rfl]
        · simp only [Memory.read, ih (k + 1) h.2, hx, if_false]

/-! ### Words -/

theorem byteAddr_lt (w : WordAddr) (k : Nat) (h : k < 4) : byteAddr w k < 2 ^ 32 := by
  have := w.isLt; unfold byteAddr; omega

/-- The bytes of two words are the same only for the same word and the same byte. -/
theorem byteAddr_inj (w w' : WordAddr) (k k' : Nat) (hk : k < 4) (hk' : k' < 4) (h : byteAddr w k = byteAddr w' k') :
    w = w' ∧ k = k' := by
  unfold byteAddr at h
  exact ⟨BitVec.eq_of_toNat_eq (by omega), by omega⟩

/-- Storing a word keeps the canonical form. -/
theorem writeBytes_wf (be : Bool) (m : Memory) (w : WordAddr) (v : Word) (h : Memory.wf m = true) :
    Memory.wf (writeBytes be m w v) = true := by
  unfold writeBytes
  exact Memory.wf_write _ _ _ (Memory.wf_write _ _ _ (Memory.wf_write _ _ _ (Memory.wf_write _ _ _ h
    (byteAddr_lt w 0 (by decide))) (byteAddr_lt w 1 (by decide))) (byteAddr_lt w 2 (by decide)))
    (byteAddr_lt w 3 (by decide))

/-- Every byte after a word store: the four bytes of the word, and every other byte as before. -/
theorem read_writeBytes (be : Bool) (m : Memory) (w : WordAddr) (v : Word) (x : Nat) (h : Memory.wf m = true) :
    Memory.read (writeBytes be m w v) x =
      if x = byteAddr w 3 then byteOfWord be v 3
      else if x = byteAddr w 2 then byteOfWord be v 2
      else if x = byteAddr w 1 then byteOfWord be v 1
      else if x = byteAddr w 0 then byteOfWord be v 0
      else Memory.read m x := by
  have h0 := Memory.wf_write m (byteAddr w 0) (byteOfWord be v 0) h (byteAddr_lt w 0 (by decide))
  have h1 := Memory.wf_write _ (byteAddr w 1) (byteOfWord be v 1) h0 (byteAddr_lt w 1 (by decide))
  have h2 := Memory.wf_write _ (byteAddr w 2) (byteOfWord be v 2) h1 (byteAddr_lt w 2 (by decide))
  unfold writeBytes
  rw [Memory.read_write _ 0 _ x _ h2, Memory.read_write _ 0 _ x _ h1, Memory.read_write _ 0 _ x _ h0,
    Memory.read_write _ 0 _ x _ h]

/-- The four bytes of a word, put together in the same byte order, are the word. -/
theorem wordOfBytes_byteOfWord (be : Bool) (v : Word) :
    wordOfBytes be (byteOfWord be v 0) (byteOfWord be v 1) (byteOfWord be v 2) (byteOfWord be v 3) = v := by
  ext i hi
  cases be <;> simp [wordOfBytes, byteOfWord] <;> grind

/-- Reading the word just stored. -/
theorem readWord_storeWord_same (s : State) (w : WordAddr) (v : Word) (h : Memory.wf s.mem = true) :
    readWord (storeWord s w v) w = v := by
  have r := read_writeBytes s.platform.bigEndian s.mem w v
  unfold readWord
  simp only [storeWord, r _ h, byteAddr, Nat.add_left_cancel_iff]
  simpa using wordOfBytes_byteOfWord s.platform.bigEndian v

/-- Reading another word after a store. -/
theorem readWord_storeWord_other (s : State) (w x : WordAddr) (v : Word) (h : Memory.wf s.mem = true) (hx : x ≠ w) :
    readWord (storeWord s w v) x = readWord s x := by
  have ne : ∀ k k', k < 4 → k' < 4 → byteAddr x k ≠ byteAddr w k' := fun k k' hk hk' e =>
    hx (byteAddr_inj x w k k' hk hk' e).1
  unfold readWord
  simp only [storeWord, read_writeBytes _ _ _ _ _ h]
  simp [ne]

/-- A byte outside the word stored keeps its value. -/
theorem read_storeWord_frame (s : State) (w : WordAddr) (v : Word) (x : Nat) (h : Memory.wf s.mem = true)
    (hx : ∀ k, k < 4 → x ≠ byteAddr w k) : Memory.read (storeWord s w v).mem x = Memory.read s.mem x := by
  simp only [storeWord, read_writeBytes _ _ _ _ _ h]
  simp [hx]

/-- Storing a word keeps the canonical form. -/
theorem storeWord_wf (s : State) (w : WordAddr) (v : Word) (h : Memory.wf s.mem = true) :
    Memory.wf (storeWord s w v).mem = true := writeBytes_wf _ _ _ _ h

/-! ### Accesses -/

/-- Everything a data write can do: it aborts, or it stores the word at the translated address. -/
theorem memWrite_cases (s t : State) (a v : Word) (h : memWrite s a v = some t) :
    writeAborts s a = false ∧ t = storeWord s (translate s (wordAddr a)) v := by
  unfold memWrite at h
  split at h
  · cases h
  · next hn => exact ⟨by simpa using hn, (Option.some.inj h).symm⟩

/-- A data write keeps the canonical form of memory. -/
theorem memWrite_wf (s t : State) (a v : Word) (h : memWrite s a v = some t) (hm : Memory.wf s.mem = true) :
    Memory.wf t.mem = true := by
  obtain ⟨-, rfl⟩ := memWrite_cases s t a v h
  exact storeWord_wf s _ v hm

/-- Everything a data read can do: it aborts, or it reads the word at the translated address. -/
theorem memRead_cases (s : State) (a v : Word) (h : memRead s a = some v) :
    aborts s .dataRead (wordAddr a) = false ∧ v = readWord s (translate s (wordAddr a)) := by
  unfold memRead at h
  split at h
  · cases h
  · next hn => exact ⟨by simpa using hn, (Option.some.inj h).symm⟩

end Sys2Proof.Machine
end

