-- ==== Sys2Proof/Laws/Exec.lean ====
section
/-! SUPPORT. `exec` by the form of the instruction: which shared operation runs it. -/

namespace Sys2Proof.Machine

/-- The 36 data-processing constructors. -/
theorem exec_dp (i : Instr) (op : DpOp) (c : Cond) (sb : Bool) (rd rn : RegNo) (o : Operand2)
    (h : i.form = .dp op c sb rd rn o) (s : State) : exec i s = dataProc op c sb rd rn o s := by
  cases i <;> simp only [Instr.form, Form.dp.injEq, reduceCtorEq] at h <;>
    (obtain ⟨rfl, rfl, rfl, rfl, rfl, rfl⟩ := h; rfl)

/-- The 24 compare constructors. -/
theorem exec_cmp (i : Instr) (op : CmpOp) (p : Bool) (c : Cond) (rn : RegNo) (o : Operand2)
    (h : i.form = .cmp op p c rn o) (s : State) :
    exec i s = if p then compareP op c rn o s else compare op c rn o s := by
  cases i <;> simp only [Instr.form, Form.cmp.injEq, reduceCtorEq] at h <;>
    (obtain ⟨rfl, rfl, rfl, rfl, rfl⟩ := h; rfl)

/-- Every instruction whose condition fails only advances the PC (R92). -/
theorem exec_failed (i : Instr) (s : State) (h : condPassed i.form.cond s.cpsr = false) :
    exec i s = advance s.cpsr.m s := by
  cases i <;> exact whenPassed_failed _ s _ h

/-- The form tells the constructor: MRS. -/
theorem eq_mrs_of_form (i : Instr) (c : Cond) (p : Bool) (rd : RegNo) (h : i.form = .mrs c p rd) : i = .mrs c p rd := by
  cases i <;> simp_all [Instr.form]

/-- MSR from a register. -/
theorem eq_msrReg_of_form (i : Instr) (c : Cond) (p : Bool) (k : BitVec 4) (rm : RegNo)
    (h : i.form = .msrReg c p k rm) : i = .msrReg c p k rm := by
  cases i <;> simp_all [Instr.form]

/-- MSR of an immediate. -/
theorem eq_msrImm_of_form (i : Instr) (c : Cond) (p : Bool) (k : BitVec 4) (o : ImmOp)
    (h : i.form = .msrImm c p k o) : i = .msrImm c p k o := by
  cases i <;> simp_all [Instr.form]

/-- LDM and STM. -/
theorem eq_block_of_form (i : Instr) (l : Bool) (c : Cond) (o : BlockOp) (h : i.form = .block l c o) :
    i = if l then .ldm c o else .stm c o := by
  cases i <;> simp only [Instr.form, Form.block.injEq, reduceCtorEq] at h <;>
    (obtain ⟨rfl, rfl, rfl⟩ := h; rfl)

end Sys2Proof.Machine
end

