-- ==== Sys2Proof/Laws/BlockTransfer.lean ====
section
/-! SUPPORT. Everything the steps of LDM and STM can do: the register list, the loads and the stores
(spec/42_block_transfer.md R181 to R190). -/

namespace Sys2Proof.Machine

/-! ### The register list -/

/-- The register numbers in ascending order. -/
theorem regNos_take (i : RegNo) :
    ((regNumbers.take i.val).map (·.val)) = List.range i.val := by
  revert i; decide

theorem regNos_split (i : RegNo) :
    regNumbers =
      regNumbers.take i.val ++
        i :: regNumbers.drop (i.val + 1) := by
  revert i; decide

/-- How many listed registers have a number below `n`. -/
def listedBelow (list : BitVec 16) (n : Nat) : Nat := ((List.range n).filter fun j => list.getLsbD j).length

/-- A listed register stands in `listedRegs` after the listed registers with lower numbers. -/
theorem listedRegs_split (list : BitVec 16) (i : RegNo) (h : list.getLsbD i.val = true) :
    ∃ pre post, listedRegs list = pre ++ i :: post ∧ pre.length = listedBelow list i.val := by
  refine ⟨(regNumbers.take i.val).filter fun j => list.getLsbD j.val,
    (regNumbers.drop (i.val + 1)).filter fun j => list.getLsbD j.val, ?_, ?_⟩
  · unfold listedRegs
    conv_lhs => rw [regNos_split i]
    rw [List.filter_append, List.filter_cons_of_pos (by simpa using h)]
  · unfold listedBelow
    rw [← regNos_take, List.filter_map, List.length_map]
    rfl

/-- The place of a listed register. -/
theorem listedRegs_getElem (list : BitVec 16) (i : RegNo) (h : list.getLsbD i.val = true) :
    (listedRegs list)[listedBelow list i.val]? = some i := by
  obtain ⟨pre, post, he, hl⟩ := listedRegs_split list i h
  rw [he, ← hl]; simp

theorem mem_listedRegs (list : BitVec 16) (i : RegNo) : i ∈ listedRegs list ↔ list.getLsbD i.val = true := by
  unfold listedRegs
  simp only [List.mem_filter, and_iff_right_iff_imp]
  have all : ∀ j : RegNo, j ∈ regNumbers := by decide
  exact fun _ => all i

theorem listedRegs_nodup (list : BitVec 16) : (listedRegs list).Nodup := by
  unfold listedRegs; exact List.Nodup.filter _ (by decide)

theorem listedRegs_length (list : BitVec 16) : (listedRegs list).length = listedBelow list 16 := by
  unfold listedBelow listedRegs
  have : List.range 16 = regNumbers.map (·.val) := by decide
  rw [this, List.filter_map, List.length_map]
  rfl

/-- The register at a place of the list. -/
theorem listedBelow_of_getElem (list : BitVec 16) (k : Nat) (i : RegNo) (h : (listedRegs list)[k]? = some i) :
    list.getLsbD i.val = true ∧ listedBelow list i.val = k := by
  have hm : i ∈ listedRegs list := List.mem_of_getElem? h
  have hb := (mem_listedRegs list i).1 hm
  refine ⟨hb, ?_⟩
  have h2 := listedRegs_getElem list i hb
  exact (List.getElem?_inj (List.getElem?_eq_some_iff.1 h2).1 (listedRegs_nodup list)).1 (h2.trans h.symm)

/-! ### Loads -/

/-- The address of the `k`-th of consecutive words. -/
theorem addr_succ (a : Word) (k : Nat) : a + 4#32 + BitVec.ofNat 32 (4 * k) = a + BitVec.ofNat 32 (4 * (k + 1)) := by
  apply BitVec.eq_of_toNat_eq; simp [BitVec.toNat_add]; omega

/-- What `loadWords` reads: the words in order, up to the first abort. -/
theorem loadWords_getElem (s : State) (n : Nat) (a : Word) (k : Nat) (h : k < (loadWords s n a).length) :
    (loadWords s n a)[k]? = some (readWord s (translate s (wordAddr (a + BitVec.ofNat 32 (4 * k))))) := by
  induction n generalizing a k with
  | zero => simp [loadWords] at h
  | succ n ih =>
    unfold loadWords at h ⊢
    split at h
    · simp at h
    · next v hv =>
      cases k with
      | zero => simp [(memRead_cases s a v hv).2]
      | succ k => simpa [← addr_succ] using ih (a + 4#32) k (by simpa using h)

theorem loadWords_length_le (s : State) (n : Nat) (a : Word) : (loadWords s n a).length ≤ n := by
  induction n generalizing a with
  | zero => simp [loadWords]
  | succ n ih => unfold loadWords; split <;> simp; exact ih _

theorem loadWords_complete (s : State) (n : Nat) (a : Word)
    (h : ∀ k, k < n → aborts s .dataRead (wordAddr (a + BitVec.ofNat 32 (4 * k))) = false) :
    (loadWords s n a).length = n := by
  induction n generalizing a with
  | zero => rfl
  | succ n ih =>
    have h0 := h 0 (by omega)
    simp at h0
    unfold loadWords memRead
    rw [h0]
    simp only [Bool.false_eq_true, if_false, List.length_cons]
    rw [ih]
    intro k hk
    rw [addr_succ]; exact h (k + 1) (by omega)

theorem loadWords_abort (s : State) (n k : Nat) (a : Word) (hk : k < n)
    (h : ∀ j, j < k → aborts s .dataRead (wordAddr (a + BitVec.ofNat 32 (4 * j))) = false)
    (ha : aborts s .dataRead (wordAddr (a + BitVec.ofNat 32 (4 * k))) = true) :
    (loadWords s n a).length = k := by
  induction n generalizing a k with
  | zero => omega
  | succ n ih =>
    unfold loadWords memRead
    cases k with
    | zero => simp at ha; simp [ha]
    | succ k =>
      have h0 := h 0 (by omega)
      simp at h0
      rw [h0]
      simp only [Bool.false_eq_true, if_false, List.length_cons, Nat.add_right_cancel_iff]
      refine ih k (a + 4#32) (by omega) (fun j hj => ?_) ?_
      · rw [addr_succ]; exact h (j + 1) (by omega)
      · rw [addr_succ]; exact ha

/-- Loading registers changes nothing but registers. -/
theorem loadRegs_eq (b : Bank) (l : List (RegNo × Word)) (s : State) :
    loadRegs b s l = { s with regs := (loadRegs b s l).regs } := by
  induction l generalizing s with
  | nil => rfl
  | cons e l ih =>
    have h := ih (writeReg s b e.1 e.2)
    simp only [loadRegs, List.foldl_cons] at h ⊢
    rw [h]; unfold writeReg; split <;> rfl

/-- A physical register that no loaded register number reaches keeps its value. -/
theorem loadRegs_frame (b : Bank) (l : List (RegNo × Word)) (s : State) (p : PhysReg)
    (h : ∀ e, e ∈ l → physReg b e.1 ≠ some p) : (loadRegs b s l).regs[p] = s.regs[p] := by
  induction l generalizing s with
  | nil => rfl
  | cons e l ih =>
    have := ih (writeReg s b e.1 e.2) fun e' he' => h e' (List.mem_cons_of_mem _ he')
    simp only [loadRegs, List.foldl_cons] at this ⊢
    rw [this, writeReg_frame s b e.1 e.2 p (h e List.mem_cons_self)]

/-- Each loaded register has its word. -/
theorem loadRegs_read (b : Bank) (l : List (RegNo × Word)) (s : State) (i : RegNo) (v : Word) (hi : i ≠ 15)
    (hn : (l.map Prod.fst).Nodup) (hm : (i, v) ∈ l) : readReg (loadRegs b s l) b i = v := by
  induction l generalizing s with
  | nil => cases hm
  | cons e l ih =>
    simp only [List.map_cons, List.nodup_cons] at hn
    rcases List.mem_cons.1 hm with rfl | hm
    · obtain ⟨p, hp⟩ := physReg_some b i hi
      have := loadRegs_frame b l (writeReg s b i v) p fun e he hpe =>
        hn.1 (List.mem_map.2 ⟨e, he, (physReg_inj b i e.1 p hp hpe).symm⟩)
      simp only [loadRegs, List.foldl_cons] at this ⊢
      simp only [readReg, hp, this, writeReg_phys s b i v p p hp, if_true]
    · exact ih (writeReg s b e.1 e.2) hn.2 hm

/-- Drawing loads changes nothing but registers and the counter of free values. -/
theorem drawLoads_eq (b : Bank) (l : List (RegNo × Word)) (s : State) :
    drawLoads b s l = { s with regs := (drawLoads b s l).regs, draws := (drawLoads b s l).draws } := by
  induction l generalizing s with
  | nil => rfl
  | cons e l ih =>
    simp only [drawLoads, List.foldl_cons] at ih ⊢
    rw [ih]; split <;> unfold writeReg <;> (try split) <;> rfl

/-- A physical register that no drawn register number reaches keeps its value. -/
theorem drawLoads_frame (b : Bank) (l : List (RegNo × Word)) (s : State) (p : PhysReg)
    (h : ∀ e, e ∈ l → physReg b e.1 ≠ some p) : (drawLoads b s l).regs[p] = s.regs[p] := by
  induction l generalizing s with
  | nil => rfl
  | cons e l ih =>
    simp only [drawLoads, List.foldl_cons] at ih ⊢
    rw [ih _ fun e' he' => h e' (List.mem_cons_of_mem _ he')]
    split
    · exact writeReg_frame s b e.1 e.2 p (h e List.mem_cons_self)
    · rfl

/-- Each drawn register keeps its value or has its word. -/
theorem drawLoads_read (b : Bank) (l : List (RegNo × Word)) (s : State) (i : RegNo) (v : Word) (hi : i ≠ 15)
    (hn : (l.map Prod.fst).Nodup) (hm : (i, v) ∈ l) :
    readReg (drawLoads b s l) b i = readReg s b i ∨ readReg (drawLoads b s l) b i = v := by
  obtain ⟨p, hp⟩ := physReg_some b i hi
  simp only [readReg, hp]
  induction l generalizing s with
  | nil => cases hm
  | cons e l ih =>
    simp only [List.map_cons, List.nodup_cons] at hn
    rcases List.mem_cons.1 hm with rfl | hm
    · have := drawLoads_frame b l
      simp only [drawLoads, List.foldl_cons] at this ⊢
      rw [this _ p fun e he hpe => hn.1 (List.mem_map.2 ⟨e, he, (physReg_inj b i e.1 p hp hpe).symm⟩)]
      split
      · right; exact (writeReg_phys s b i v p p hp).trans (if_pos rfl)
      · left; rfl
    · have ne : physReg b e.1 ≠ some p := fun hpe =>
        hn.1 (by rw [physReg_inj b e.1 i p hpe hp]; exact List.mem_map_of_mem hm)
      simp only [drawLoads, List.foldl_cons] at ih ⊢
      refine (ih _ hn.2 hm).imp_left fun h => h.trans ?_
      split
      · exact writeReg_frame s b e.1 e.2 p ne
      · rfl

/-! ### Stores -/

/-- A data write changes memory and IHist alone. -/
theorem memWrite_eq (s t : State) (a v : Word) (h : memWrite s a v = some t) :
    t = { s with mem := t.mem, stale := t.stale } := by
  obtain ⟨-, rfl⟩ := memWrite_cases s t a v h; rfl

/-- Whether a data write aborts depends on the platform and the mode alone. -/
theorem writeAborts_congr (s t : State) (a : Word) (hp : t.platform = s.platform) (hm : t.cpsr = s.cpsr) :
    writeAborts t a = writeAborts s a := by
  simp only [writeAborts, vectorProtected, aborts, hp, hm]

/-- Drawing stores changes memory, IHist and the counter of free values alone. -/
theorem drawStores_eq (s : State) (l : List Word) (a : Word) :
    drawStores s l a =
      { s with
        mem := (drawStores s l a).mem, stale := (drawStores s l a).stale, draws := (drawStores s l a).draws } := by
  induction l generalizing s a with
  | nil => rfl
  | cons v l ih =>
    unfold drawStores
    simp only
    rw [ih]
    split
    · cases h : memWrite s a v with
      | none => rfl
      | some t => rw [memWrite_eq s t a v h]; rfl
    · rfl

/-- Storing words changes memory, IHist and the counter of free values alone. -/
theorem storeWords_eq (s : State) (l : List Word) (a : Word) :
    (storeWords s l a).1 =
      { s with
        mem := (storeWords s l a).1.mem, stale := (storeWords s l a).1.stale, draws := (storeWords s l a).1.draws } := by
  induction l generalizing s a with
  | nil => rfl
  | cons v l ih =>
    unfold storeWords
    cases h : memWrite s a v with
    | none => exact drawStores_eq s l (a + 4#32)
    | some t => simp only; rw [ih, memWrite_eq s t a v h]

/-- An invariant of the state that every data write to one of the addresses keeps, is kept by drawn stores. -/
theorem drawStores_induct (P : State → Prop) (l : List Word) (s : State) (a : Word)
    (hw : ∀ (s t : State) (k : Nat) (v : Word), k < l.length → P s → memWrite s (a + BitVec.ofNat 32 (4 * k)) v = some t → P t)
    (hd : ∀ (s : State) (n : Nat), P s → P { s with draws := n }) (hs : P s) : P (drawStores s l a) := by
  induction l generalizing s a with
  | nil => exact hs
  | cons v l ih =>
    unfold drawStores
    simp only
    refine ih _ (a + 4#32) (fun s t k v hk hp h => hw s t (k + 1) v (by simpa using hk) hp (by rw [← addr_succ]; exact h)) ?_
    apply hd
    split
    · cases h : memWrite s a v with
      | none => exact hs
      | some t => exact hw s t 0 v (by simp) hs (by simpa using h)
    · exact hs

/-- The same for stores in order, aborted or not. -/
theorem storeWords_induct (P : State → Prop) (l : List Word) (s : State) (a : Word)
    (hw : ∀ (s t : State) (k : Nat) (v : Word), k < l.length → P s → memWrite s (a + BitVec.ofNat 32 (4 * k)) v = some t → P t)
    (hd : ∀ (s : State) (n : Nat), P s → P { s with draws := n }) (hs : P s) : P (storeWords s l a).1 := by
  induction l generalizing s a with
  | nil => exact hs
  | cons v l ih =>
    have step : ∀ (s t : State) (k : Nat) (v : Word), k < l.length → P s →
        memWrite s (a + 4#32 + BitVec.ofNat 32 (4 * k)) v = some t → P t := fun s t k v hk hp h =>
      hw s t (k + 1) v (by simpa using hk) hp (by rw [← addr_succ]; exact h)
    unfold storeWords
    cases h : memWrite s a v with
    | none => exact drawStores_induct P l s (a + 4#32) step hd hs
    | some t => exact ih t (a + 4#32) step (hw s t 0 v (by simp) hs (by simpa using h))

/-- All words are stored when no write aborts. -/
theorem storeWords_complete (s : State) (l : List Word) (a : Word)
    (h : ∀ k, k < l.length → writeAborts s (a + BitVec.ofNat 32 (4 * k)) = false) : (storeWords s l a).2 = true := by
  induction l generalizing s a with
  | nil => rfl
  | cons v l ih =>
    have h0 := h 0 (by simp)
    simp at h0
    unfold storeWords memWrite
    simp only [h0, Bool.false_eq_true, if_false]
    refine ih _ _ fun k hk => ?_
    rw [addr_succ, writeAborts_congr s (storeWord s _ v) _ rfl rfl]; exact h (k + 1) (by simpa using hk)

/-- Not all words are stored when a write aborts. -/
theorem storeWords_abort (s : State) (l : List Word) (a : Word) (k : Nat) (hk : k < l.length)
    (h : writeAborts s (a + BitVec.ofNat 32 (4 * k)) = true) : (storeWords s l a).2 = false := by
  induction l generalizing s a k with
  | nil => simp at hk
  | cons v l ih =>
    unfold storeWords memWrite
    cases h0 : writeAborts s a with
    | true => simp
    | false =>
      simp only [Bool.false_eq_true, if_false]
      cases k with
      | zero => simp [h0] at h
      | succ k =>
        refine ih _ _ k (by simpa using hk) ?_
        rw [addr_succ, writeAborts_congr s (storeWord s _ v) _ rfl rfl]; exact h

/-- A drawn store keeps the canonical form of memory. -/
theorem drawStores_wf (s : State) (l : List Word) (a : Word) (h : Memory.wf s.mem = true) :
    Memory.wf (drawStores s l a).mem = true :=
  drawStores_induct (fun t => Memory.wf t.mem = true) l s a (fun _ _ _ _ _ hp h => memWrite_wf _ _ _ _ h hp)
    (fun _ _ hp => hp) h

/-- Storing words keeps the canonical form of memory. -/
theorem storeWords_wf (s : State) (l : List Word) (a : Word) (h : Memory.wf s.mem = true) :
    Memory.wf (storeWords s l a).1.mem = true :=
  storeWords_induct (fun t => Memory.wf t.mem = true) l s a (fun _ _ _ _ _ hp h => memWrite_wf _ _ _ _ h hp)
    (fun _ _ hp => hp) h

/-- A word that none of the stores reaches keeps its value (drawn stores). -/
theorem drawStores_other (s : State) (l : List Word) (a : Word) (w : WordAddr) (h : Memory.wf s.mem = true)
    (hw : ∀ k, k < l.length → translate s (wordAddr (a + BitVec.ofNat 32 (4 * k))) ≠ w) :
    readWord (drawStores s l a) w = readWord s w := by
  refine (drawStores_induct
    (fun t => t.platform = s.platform ∧ Memory.wf t.mem = true ∧ readWord t w = readWord s w) l s a ?_ ?_ ⟨rfl, h, rfl⟩).2.2
  · intro s1 t k v hk ⟨hp, hm, hr⟩ ht
    obtain ⟨-, rfl⟩ := memWrite_cases s1 t _ v ht
    have ht : translate s1 = translate s := by funext x; simp [translate, hp]
    refine ⟨hp, storeWord_wf _ _ _ hm, ?_⟩
    rw [readWord_storeWord_other _ _ _ _ hm fun e => hw k hk (by rw [e, ht]), hr]
  · intro s1 n hp; exact hp

/-- A word that none of the stores reaches keeps its value. -/
theorem storeWords_other (s : State) (l : List Word) (a : Word) (w : WordAddr) (h : Memory.wf s.mem = true)
    (hw : ∀ k, k < l.length → translate s (wordAddr (a + BitVec.ofNat 32 (4 * k))) ≠ w) :
    readWord (storeWords s l a).1 w = readWord s w := by
  refine (storeWords_induct
    (fun t => t.platform = s.platform ∧ Memory.wf t.mem = true ∧ readWord t w = readWord s w) l s a ?_ ?_ ⟨rfl, h, rfl⟩).2.2
  · intro s1 t k v hk ⟨hp, hm, hr⟩ ht
    obtain ⟨-, rfl⟩ := memWrite_cases s1 t _ v ht
    have ht : translate s1 = translate s := by funext x; simp [translate, hp]
    refine ⟨hp, storeWord_wf _ _ _ hm, ?_⟩
    rw [readWord_storeWord_other _ _ _ _ hm fun e => hw k hk (by rw [e, ht]), hr]
  · intro s1 n hp; exact hp

/-- The `k`-th value stands in its word after the stores, when no write up to it aborts and no later store
reaches the same word. -/
theorem storeWords_read (s : State) (l : List Word) (a : Word) (k : Nat) (v : Word) (h : Memory.wf s.mem = true)
    (hv : l[k]? = some v) (ha : ∀ j, j ≤ k → writeAborts s (a + BitVec.ofNat 32 (4 * j)) = false)
    (hw : ∀ j, k < j → j < l.length →
      translate s (wordAddr (a + BitVec.ofNat 32 (4 * j))) ≠ translate s (wordAddr (a + BitVec.ofNat 32 (4 * k)))) :
    readWord (storeWords s l a).1 (translate s (wordAddr (a + BitVec.ofNat 32 (4 * k)))) = v := by
  induction l generalizing s a k with
  | nil => simp at hv
  | cons x l ih =>
    have h0 := ha 0 (by omega)
    simp at h0
    have hs := storeWord_wf s (translate s (wordAddr a)) x h
    unfold storeWords memWrite
    simp only [h0, Bool.false_eq_true, if_false]
    cases k with
    | zero =>
      simp at hv ⊢
      rw [storeWords_other _ _ _ _ hs, readWord_storeWord_same _ _ _ h, hv]
      intro j hj
      have := hw (j + 1) (by omega) (by simpa using hj)
      show translate s _ ≠ _
      rw [addr_succ]; simpa using this
    | succ k =>
      have := ih (storeWord s (translate s (wordAddr a)) x) (a + 4#32) k hs (by simpa using hv) (fun j hj => ?_) (fun j hj hl => ?_)
      · rw [addr_succ] at this; exact this
      · rw [addr_succ, writeAborts_congr s (storeWord s _ x) _ rfl rfl]; exact ha (j + 1) (by omega)
      · rw [addr_succ, addr_succ]; exact hw (j + 1) (by omega) (by simpa using hl)

/-- The word whose write aborts first is not written, when no other store reaches it. -/
theorem storeWords_aborted (s : State) (l : List Word) (a : Word) (k : Nat) (h : Memory.wf s.mem = true)
    (hab : writeAborts s (a + BitVec.ofNat 32 (4 * k)) = true)
    (hw : ∀ j, j < l.length → j ≠ k →
      translate s (wordAddr (a + BitVec.ofNat 32 (4 * j))) ≠ translate s (wordAddr (a + BitVec.ofNat 32 (4 * k)))) :
    readWord (storeWords s l a).1 (translate s (wordAddr (a + BitVec.ofNat 32 (4 * k)))) =
      readWord s (translate s (wordAddr (a + BitVec.ofNat 32 (4 * k)))) := by
  refine (storeWords_induct (fun t => t.platform = s.platform ∧ t.cpsr = s.cpsr ∧ Memory.wf t.mem = true ∧
    readWord t (translate s (wordAddr (a + BitVec.ofNat 32 (4 * k)))) =
      readWord s (translate s (wordAddr (a + BitVec.ofNat 32 (4 * k))))) l s a ?_ ?_ ⟨rfl, rfl, h, rfl⟩).2.2.2
  · intro s1 t j v hj ⟨hp, hc, hm, hr⟩ ht
    obtain ⟨hna, rfl⟩ := memWrite_cases s1 t _ v ht
    have ht : translate s1 = translate s := by funext x; simp [translate, hp]
    refine ⟨hp, hc, storeWord_wf _ _ _ hm, ?_⟩
    have hjk : j ≠ k := by
      rintro rfl; rw [writeAborts_congr s s1 _ hp hc, hab] at hna; cases hna
    rw [readWord_storeWord_other _ _ _ _ hm fun e => hw j hj hjk (by rw [e, ht]), hr]
  · intro s1 n hp; exact hp

end Sys2Proof.Machine
end

