-- ==== Sys2Proof/Laws/Decode.lean ====
section
/-! SUPPORT. Small facts about the encoding tables and about forms (spec/30_encoding.md R91, R95, R97). -/

namespace Sys2Proof

@[simp] theorem regOf_regBits (r : RegNo) : regOf (regBits r) = r := rfl
@[simp] theorem regBits_regOf (b : BitVec 4) : regBits (regOf b) = b := rfl
@[simp] theorem cond_ofBits_bits (c : Cond) : Cond.ofBits c.bits = some c := by cases c <;> rfl
@[simp] theorem shiftType_ofBits_bits (t : ShiftType) : ShiftType.ofBits t.bits = t := by cases t <;> rfl
@[simp] theorem opcode_ofBits_dp (op : DpOp) : Opcode.ofBits op.bits = .dp op := by cases op <;> rfl
@[simp] theorem opcode_ofBits_cmp (op : CmpOp) : Opcode.ofBits op.bits = .cmp op := by cases op <;> rfl

/-- A condition field that is not 1111 is the field of the condition it names. -/
theorem cond_bits_ofBits (b : BitVec 4) (c : Cond) (h : Cond.ofBits b = some c) : c.bits = b := by
  revert b c; decide

/-- Only 1111 names no condition (R92). -/
theorem cond_ofBits_none (b : BitVec 4) : Cond.ofBits b = none ↔ b = 0b1111#4 := by
  revert b; decide

theorem shiftType_bits_ofBits (b : BitVec 2) : (ShiftType.ofBits b).bits = b := by revert b; decide

/-- The form of the constructor built from a data-processing form is that form, when Rn is 0000 for MOV and
MVN. -/
theorem form_dpInstr (op : DpOp) (c : Cond) (sb : Bool) (rd rn : RegNo) (o : Operand2)
    (h : (!op.hasNoRn || rn == 0) = true) : (dpInstr op c sb rd rn o).form = .dp op c sb rd rn o := by
  cases op <;> cases o <;> simp_all [dpInstr, Instr.form, DpOp.hasNoRn]

theorem form_cmpInstr (op : CmpOp) (p : Bool) (c : Cond) (rn : RegNo) (o : Operand2) :
    (cmpInstr op p c rn o).form = .cmp op p c rn o := by
  cases op <;> cases p <;> cases o <;> rfl

/-- The form of the instruction of an encodable form is that form. -/
theorem form_instr (f : Form) (h : f.encodable = true) : f.instr.form = f := by
  cases f with
  | dp op c sb rd rn o => exact form_dpInstr op c sb rd rn o (by simpa [Form.encodable, Form.swiOk, Form.movOk] using h)
  | cmp op p c rn o => exact form_cmpInstr op p c rn o
  | block l c o => cases l <;> rfl
  | branch l c o => cases l <;> rfl
  | _ => rfl

/-! ### The fields of an encoded data-processing word -/

variable (c : Cond) (op : BitVec 4) (sb : Bool) (rn rd : RegNo) (o : Operand2)

theorem encodeDp_cond : fieldOf (encodeDp c op sb rn rd o) 28 4 = c.bits := by
  ext i hi; simp [fieldOf, encodeDp]; grind
theorem encodeDp_class : fieldOf (encodeDp c op sb rn rd o) 25 3 = 0b00#2 ++ BitVec.ofBool o.isImm := by
  ext i hi; simp [fieldOf, encodeDp]; grind
theorem encodeDp_opcode : fieldOf (encodeDp c op sb rn rd o) 21 4 = op := by
  ext i hi; simp [fieldOf, encodeDp]; grind
theorem encodeDp_opcodeHi : fieldOf (encodeDp c op sb rn rd o) 23 2 = op.extractLsb' 2 2 := by
  ext i hi; simp [fieldOf, encodeDp]; grind
theorem encodeDp_s : (encodeDp c op sb rn rd o).getLsbD 20 = sb := by
  simp [encodeDp]; grind
theorem encodeDp_rn : fieldOf (encodeDp c op sb rn rd o) 16 4 = regBits rn := by
  ext i hi; simp [fieldOf, encodeDp]; grind
theorem encodeDp_rd : fieldOf (encodeDp c op sb rn rd o) 12 4 = regBits rd := by
  ext i hi; simp [fieldOf, encodeDp]; grind
theorem encodeDp_op2 : fieldOf (encodeDp c op sb rn rd o) 0 12 = o.bits := by
  ext i hi; simp [fieldOf, encodeDp]; grind

end Sys2Proof
end

