-- ==== Sys2Proof/Laws/Flags.lean ====
section
/-! SUPPORT. The adder in plain arithmetic, the bits of a rotation, and what the flag computations leave alone
(spec/40_compare_p.md R130, spec/41_data_processing_r15.md R151, R167, spec/30_encoding.md R96). -/

namespace Sys2Proof.Machine

/-- Bit 31 is the sign. -/
theorem getLsbD_31 (a : Word) : a.getLsbD 31 = decide (2147483648 ≤ a.toNat) := by
  have := BitVec.msb_eq_decide a; simpa [BitVec.msb_eq_getLsbD_last] using this

/-- The integer a complemented word stands for. -/
theorem toInt_not (b : Word) : (~~~b).toInt = -1 - b.toInt := by
  have := b.isLt
  simp only [BitVec.toInt_eq_toNat_cond, BitVec.toNat_not]; split <;> split <;> omega

/-- V of an addition is signed overflow of the exact sum. -/
theorem addWithCarry_ovf (a b : Word) (c : Bool) :
    (addWithCarry a b c).ovf =
      decide (a.toInt + b.toInt + c.toNat < -2147483648 ∨ 2147483647 < a.toInt + b.toInt + c.toNat) := by
  simp only [addWithCarry, getLsbD_31, BitVec.toInt_eq_toNat_cond, BitVec.toNat_ofNat]
  have := a.isLt; have := b.isLt
  rw [Bool.eq_iff_iff]
  simp only [Bool.and_eq_true, beq_iff_eq, bne_iff_ne, ne_eq, decide_eq_decide, decide_eq_true_eq]
  cases c <;> simp only [Bool.toNat_true, Bool.toNat_false] <;> split <;> split <;> omega

/-- The sum. -/
theorem addWithCarry_value (a b : Word) (c : Bool) :
    (addWithCarry a b c).value = a + b + (if c then 1#32 else 0#32) := by
  apply BitVec.eq_of_toNat_eq
  cases c <;> simp [addWithCarry, BitVec.toNat_add]

/-- Adding the complement subtracts. -/
theorem addWithCarry_not_value (a b : Word) (c : Bool) :
    (addWithCarry a (~~~b) c).value = a - b - (if c then 0#32 else 1#32) := by
  have := a.isLt; have := b.isLt
  apply BitVec.eq_of_toNat_eq
  cases c <;> simp [addWithCarry, BitVec.toNat_sub, BitVec.toNat_not] <;> omega

/-- C of a subtraction is "no borrow". -/
theorem addWithCarry_not_carry (a b : Word) (c : Bool) :
    (addWithCarry a (~~~b) c).carry = decide (b.toNat + (!c).toNat ≤ a.toNat) := by
  have := a.isLt; have := b.isLt
  cases c <;> simp [addWithCarry, BitVec.toNat_not] <;> omega

/-- V of a subtraction is signed overflow of the exact difference. -/
theorem addWithCarry_not_ovf (a b : Word) (c : Bool) :
    (addWithCarry a (~~~b) c).ovf =
      decide (a.toInt - b.toInt - (!c).toNat < -2147483648 ∨ 2147483647 < a.toInt - b.toInt - (!c).toNat) := by
  rw [addWithCarry_ovf, toInt_not]
  have e : a.toInt + (-1 - b.toInt) + (c.toNat : Int) = a.toInt - b.toInt - ((!c).toNat : Int) := by
    cases c <;> simp <;> omega
  rw [e]

/-- A bit of a rotated word. -/
theorem getLsbD_rotateRight_mod (w : Word) (r k : Nat) (hr : r < 32) (hk : k < 32) :
    (w.rotateRight r).getLsbD k = w.getLsbD ((k + r) % 32) := by
  rw [BitVec.getLsbD_rotateRight, Nat.mod_eq_of_lt hr]
  by_cases h : k < 32 - r
  · simp only [h, decide_true, cond_true]; congr 1; rw [Nat.mod_eq_of_lt (by omega)]; omega
  · simp only [h, decide_false, cond_false, hk, decide_true, Bool.true_and]; congr 1; omega

/-- The ordinary flag setting of data processing leaves I, F, M and the reserved bits. -/
theorem dpCompute_keeps (op : DpOp) (a b : Word) (p : Psr) (sc : Bool) :
    let q := (dpCompute op a b p sc).psr
    q.i = p.i ∧ q.f = p.f ∧ q.m = p.m ∧ q.reserved = p.reserved := by
  cases op <;> exact ⟨rfl, rfl, rfl, rfl⟩

/-- Likewise for the compares. -/
theorem cmpCompute_keeps (op : CmpOp) (a b : Word) (p : Psr) (sc : Bool) :
    let q := (cmpCompute op a b p sc).psr
    q.i = p.i ∧ q.f = p.f ∧ q.m = p.m ∧ q.reserved = p.reserved := by
  cases op <;> exact ⟨rfl, rfl, rfl, rfl⟩

end Sys2Proof.Machine
end

