-- ==== Sys2Proof/Laws/History.lean ====
section
/-! SUPPORT. The lists of stale values, IHist (spec/10_state.md R35, log 6): what a store does to them, and that it
keeps their form. -/

namespace Sys2Proof.Machine

/-- Dropping an entry drops its word. -/
theorem dropStale_keys (t : List (WordAddr × List Word)) (w : WordAddr) :
    (dropStale t w).map Prod.fst = (t.map Prod.fst).erase w := by
  induction t with
  | nil => rfl
  | cons e t ih =>
    obtain ⟨k, l⟩ := e
    unfold dropStale
    split
    · next hk => simp [hk]
    · next hk => simp [hk, ih]

/-- Dropping adds no entry. -/
theorem dropStale_subset (t : List (WordAddr × List Word)) (w : WordAddr) : ∀ e ∈ dropStale t w, e ∈ t := by
  induction t with
  | nil => simp [dropStale]
  | cons e t ih =>
    obtain ⟨k, l⟩ := e
    unfold dropStale
    split
    · intro e h; exact List.mem_cons_of_mem _ h
    · intro e h
      rcases List.mem_cons.1 h with rfl | h
      · simp
      · exact List.mem_cons_of_mem _ (ih e h)

/-- The values listed for another word are as before. -/
theorem staleOf_dropStale_other (t : List (WordAddr × List Word)) (w x : WordAddr) (h : x ≠ w) :
    staleOf (dropStale t w) x = staleOf t x := by
  induction t with
  | nil => rfl
  | cons e t ih =>
    obtain ⟨k, l⟩ := e
    unfold dropStale
    split
    · next hk => subst hk; simp [staleOf, Ne.symm h]
    · simp [staleOf, ih]

/-- A word without an entry has no stale value. -/
theorem staleOf_absent (t : List (WordAddr × List Word)) (w : WordAddr) (h : w ∉ t.map Prod.fst) : staleOf t w = [] := by
  induction t with
  | nil => rfl
  | cons e t ih =>
    obtain ⟨k, l⟩ := e
    rw [List.map_cons, List.mem_cons, not_or] at h
    rw [staleOf, if_neg (Ne.symm h.1)]; exact ih h.2

/-- The stale values of a word are none, or its entry. -/
theorem staleOf_mem (t : List (WordAddr × List Word)) (w : WordAddr) : staleOf t w = [] ∨ (w, staleOf t w) ∈ t := by
  induction t with
  | nil => simp [staleOf]
  | cons e t ih =>
    obtain ⟨k, l⟩ := e
    unfold staleOf
    split
    · next h => subst h; simp
    · exact ih.imp id (List.mem_cons_of_mem _)

/-- The values listed after an entry is replaced. -/
theorem staleOf_putStale (t : List (WordAddr × List Word)) (w x : WordAddr) (l : List Word)
    (h : (t.map Prod.fst).Nodup) : staleOf (putStale t w l) x = if x = w then l else staleOf t x := by
  have hd : w ∉ (dropStale t w).map Prod.fst := by rw [dropStale_keys]; exact List.Nodup.not_mem_erase h
  unfold putStale
  split
  · next hl =>
    split
    · next hx => rw [hx, staleOf_absent _ _ hd, hl]
    · next hx => exact staleOf_dropStale_other _ _ _ hx
  · split
    · next hx => simp [hx, staleOf]
    · next hx => rw [staleOf, if_neg (Ne.symm hx)]; exact staleOf_dropStale_other _ _ _ hx

/-- Well-formed lists name no word twice. -/
theorem staleWf_keys (s : State) (h : staleWf s = true) : (s.stale.map Prod.fst).Nodup := by
  unfold staleWf at h; simp only [Bool.and_eq_true, decide_eq_true_eq] at h; exact h.1

/-- The form depends on the lists, memory and the byte order alone. -/
theorem staleWf_congr (s t : State) (h1 : t.stale = s.stale) (h2 : t.mem = s.mem) (h3 : t.platform = s.platform)
    (h : staleWf s = true) : staleWf t = true := by
  have : ∀ w, readWord t w = readWord s w := by intro w; unfold readWord; rw [h2, h3]
  unfold staleWf at *; rw [h1]; simp only [this]; exact h

/-- A store keeps the form. -/
theorem storeWord_staleWf (s : State) (w : WordAddr) (v : Word) (hm : Memory.wf s.mem = true) (h : staleWf s = true) :
    staleWf (storeWord s w v) = true := by
  unfold staleWf at h ⊢
  simp only [Bool.and_eq_true, decide_eq_true_eq, List.all_eq_true, Bool.not_eq_true', List.contains_eq_mem,
    decide_eq_false_iff_not] at h ⊢
  obtain ⟨hk, ha⟩ := h
  have hihist : (ihist s w).Nodup := by
    unfold ihist
    rcases staleOf_mem s.stale w with e | e
    · rw [e]; simp
    · exact List.nodup_cons.2 ⟨(ha _ e).2, (ha _ e).1.2⟩
  have hkd : ((dropStale s.stale w).map Prod.fst).Nodup := by rw [dropStale_keys]; exact hk.erase _
  have hnw : w ∉ (dropStale s.stale w).map Prod.fst := by rw [dropStale_keys]; exact List.Nodup.not_mem_erase hk
  have old : ∀ e ∈ dropStale s.stale w, (¬ e.2 = [] ∧ e.2.Nodup) ∧ readWord (storeWord s w v) e.1 ∉ e.2 := by
    intro e he
    have hne : e.1 ≠ w := fun hh => hnw (by have := List.mem_map_of_mem (f := Prod.fst) he; rwa [hh] at this)
    rw [readWord_storeWord_other _ _ _ _ hm hne]
    exact ha e (dropStale_subset _ _ e he)
  show ((putStale s.stale w ((ihist s w).filter (· != v))).map Prod.fst).Nodup ∧
    ∀ e ∈ putStale s.stale w ((ihist s w).filter (· != v)), _
  unfold putStale
  split
  · exact ⟨hkd, old⟩
  · next hne =>
    refine ⟨by simpa using ⟨by simpa using hnw, hkd⟩, ?_⟩
    intro e he
    rcases List.mem_cons.1 he with rfl | he
    · refine ⟨⟨hne, by simpa using hihist.filter _⟩, ?_⟩
      rw [readWord_storeWord_same _ _ _ hm]; simp
    · exact old e he

/-- The stores of an STM keep the form. -/
theorem storeWords_staleWf (s : State) (l : List Word) (a : Word) (hm : Memory.wf s.mem = true) (h : staleWf s = true) :
    staleWf (storeWords s l a).1 = true := by
  refine (storeWords_induct (fun t => Memory.wf t.mem = true ∧ staleWf t = true) l s a ?_ ?_ ⟨hm, h⟩).2
  · intro s1 t k v hk ⟨a, b⟩ ht
    refine ⟨memWrite_wf _ _ _ _ ht a, ?_⟩
    obtain ⟨-, rfl⟩ := memWrite_cases _ _ _ _ ht
    exact storeWord_staleWf _ _ _ a b
  · intro s1 n h; exact ⟨h.1, staleWf_congr s1 _ rfl rfl rfl h.2⟩

end Sys2Proof.Machine
end

