-- ==== Sys2Proof/Laws/Inversion.lean ====
section
/-! SUPPORT. Everything a meaning can do when it answers a next state: one lemma for each shared operation
(spec/10_state.md R25, R33; spec/41_data_processing_r15.md R150 to R154; spec/40_compare_p.md R136;
spec/44_psr_transfer.md R211; spec/42_block_transfer.md R182, R183). -/

namespace Sys2Proof.Machine

/-- The new program counter is legal: word aligned, and in a 26-bit mode inside the 26-bit space (R23, R24). -/
abbrev PcOk (t : State) : Prop := unaligned t.pc = false ∧ (is26 t.cpsr.m = true → outside26 t.pc = false)

/-- If `jump` answers a next state, only the PC has changed, to a legal one. -/
theorem jump_shape (m : ModeBits) (v : Word) (s t : State) (h : jump m v s = .next t) :
    t = { s with pc := t.pc } ∧ PcOk t := by
  obtain ⟨p, rfl, -, h1, h2⟩ := jump_next m v s t h; exact ⟨rfl, h1, h2⟩

/-- The same for `advance`. -/
theorem advance_shape (m : ModeBits) (s t : State) (h : advance m s = .next t) : t = { s with pc := t.pc } ∧ PcOk t :=
  jump_shape m _ s t (advance_next m s t h)

/-- The write of R15 with the S bit changes the PC and the CPSR alone; the new CPSR comes from the value in a
26-bit mode and from the SPSR in a privileged 32-bit mode. -/
theorem writeR15S_shape (v : Word) (s t : State) (h : writeR15S v s = .next t) :
    t = { s with pc := t.pc, cpsr := t.cpsr } ∧ PcOk t ∧
      ((is26 s.cpsr.m = true ∧ t.cpsr = s.cpsr.write26 v) ∨
        (is26 s.cpsr.m = false ∧ isUser s.cpsr.m = false ∧ getSpsr s (curBank s) = some t.cpsr ∧
          isMode t.cpsr.m = true)) := by
  unfold writeR15S at h
  split at h
  · next h26 =>
    obtain ⟨e, ok⟩ := jump_shape _ _ _ _ h
    have hc : t.cpsr = s.cpsr.write26 v := by rw [e]
    refine ⟨by rw [e], ok, .inl ⟨h26, hc⟩⟩
  · next h26 =>
    obtain ⟨p, hu, hp, hm, hj⟩ := exceptionReturn_next v s t h
    obtain ⟨e, ok⟩ := jump_shape _ _ _ _ hj
    have hc : t.cpsr = p := by rw [e]
    refine ⟨by rw [e], ok, .inr ⟨by simpa using h26, hu, by rw [hc]; exact hp, by rw [hc]; exact hm⟩⟩

/-- What a data-processing instruction does: it is skipped, it writes Rd and (with S) the flags, or it writes
R15. -/
theorem dataProc_shape (op : DpOp) (c : Cond) (sb : Bool) (rd rn : RegNo) (o : Operand2) (s t : State)
    (h : dataProc op c sb rd rn o s = .next t) :
    PcOk t ∧
      (t = { s with pc := t.pc } ∨
        (rd ≠ 15 ∧ ∃ r : Alu, r = dpCompute op (readRn s rn) (operand2 s o).value s.cpsr (operand2 s o).carry ∧
          t = { setX s rd r.value with cpsr := if sb then r.psr else s.cpsr, pc := t.pc }) ∨
        (rd = 15 ∧ sb = true ∧ ∃ v, writeR15S v s = .next t)) := by
  rcases whenPassed_next _ _ _ _ h with ⟨-, h⟩ | ⟨-, h⟩
  · split at h
    · cases h
    · simp only [writeResult] at h
      split at h
      · next hrd =>
        split at h
        · next hsb => exact ⟨(writeR15S_shape _ _ _ h).2.1, .inr (.inr ⟨hrd, hsb, _, h⟩)⟩
        · obtain ⟨e, ok⟩ := jump_shape _ _ _ _ h; exact ⟨ok, .inl e⟩
      · next hrd =>
        obtain ⟨e, ok⟩ := advance_shape _ _ _ h
        exact ⟨ok, .inr (.inl ⟨hrd, _, rfl, e⟩)⟩
  · obtain ⟨e, ok⟩ := advance_shape _ _ _ h; exact ⟨ok, .inl e⟩

/-- What a normal compare does: it is skipped, or it writes the flags. -/
theorem compare_shape (op : CmpOp) (c : Cond) (rn : RegNo) (o : Operand2) (s t : State)
    (h : compare op c rn o s = .next t) :
    PcOk t ∧ (t = { s with pc := t.pc } ∨
      t = { s with
        cpsr := (cmpCompute op (readRn s rn) (operand2 s o).value s.cpsr (operand2 s o).carry).psr, pc := t.pc }) := by
  rcases whenPassed_next _ _ _ _ h with ⟨-, h⟩ | ⟨-, h⟩
  · split at h
    · cases h
    · obtain ⟨e, ok⟩ := advance_shape _ _ _ h; exact ⟨ok, .inr e⟩
  · obtain ⟨e, ok⟩ := advance_shape _ _ _ h; exact ⟨ok, .inl e⟩

/-- `noteModeChange` changes BankHazard alone. -/
theorem noteModeChange_eq (m : ModeBits) (s : State) :
    noteModeChange m s = { s with bankHazard := (noteModeChange m s).bankHazard } := by
  unfold noteModeChange; split <;> rfl

/-- What a P form does: it is skipped, or in a 26-bit mode it writes the PSR bits of R33. -/
theorem compareP_shape (op : CmpOp) (c : Cond) (rn : RegNo) (o : Operand2) (s t : State)
    (h : compareP op c rn o s = .next t) :
    PcOk t ∧ (t = { s with pc := t.pc } ∨
      (is26 s.cpsr.m = true ∧ ∃ v, t = { s with cpsr := s.cpsr.write26 v, bankHazard := t.bankHazard, pc := t.pc })) := by
  rcases whenPassed_next _ _ _ _ h with ⟨-, h⟩ | ⟨-, h⟩
  · split at h
    · cases h
    · split at h
      · cases h
      · next h26 =>
        obtain ⟨e, ok⟩ := advance_shape _ _ _ h
        refine ⟨ok, .inr ⟨by simpa using h26,
          (cmpCompute op (readRn s rn) (operand2 s o).value s.cpsr (operand2 s o).carry).value, ?_⟩⟩
        rw [e, noteModeChange_eq]
  · obtain ⟨e, ok⟩ := advance_shape _ _ _ h; exact ⟨ok, .inl e⟩

/-- What MRS does: it is skipped, or it writes Rd. -/
theorem execMrs_shape (c : Cond) (spsr : Bool) (rd : RegNo) (s t : State) (h : execMrs c spsr rd s = .next t) :
    PcOk t ∧ (t = { s with pc := t.pc } ∨ ∃ v, t = { setX s rd v with pc := t.pc, draws := s.draws + 1 }) := by
  rcases whenPassed_next _ _ _ _ h with ⟨-, h⟩ | ⟨-, h⟩
  · split at h
    · cases h
    · split at h
      · cases h
      · next p _ =>
        obtain ⟨e, ok⟩ := advance_shape _ _ _ h
        refine ⟨ok, .inr ⟨p.read ((Config.freeWord s.draws).extractLsb' 0 21), ?_⟩⟩
        rw [e]
        simp only [drawWord, setX, writeReg, curBank]
        cases physReg (bankOf s.cpsr.m) rd <;> rfl
  · obtain ⟨e, ok⟩ := advance_shape _ _ _ h; exact ⟨ok, .inl e⟩

/-- What the write of MSR does: the CPSR (with the control field only in a privileged mode and only to one of
the ten modes), or the SPSR of the current mode. -/
theorem msr_shape (spsr : Bool) (mask : BitVec 4) (v : Word) (s t : State) (h : msr spsr mask v s = .next t) :
    PcOk t ∧
      ((spsr = false ∧ t = { s with cpsr := t.cpsr, bankHazard := t.bankHazard, pc := t.pc } ∧
          ((t.cpsr.m = s.cpsr.m ∧ t.cpsr.i = s.cpsr.i ∧ t.cpsr.f = s.cpsr.f) ∨
            (isUser s.cpsr.m = false ∧ mask.getLsbD 0 = true ∧ isMode t.cpsr.m = true))) ∨
        (spsr = true ∧ ∃ p, t = { setSpsr s (curBank s) p with pc := t.pc })) := by
  unfold msr at h
  split at h
  · next hs =>
    unfold msrSpsr at h
    split at h
    · cases h
    · obtain ⟨e, ok⟩ := advance_shape _ _ _ h; exact ⟨ok, .inr ⟨hs, _, e⟩⟩
  · next hs =>
    simp only [msrCpsr] at h
    split at h
    · next hc =>
      simp only [Bool.and_eq_true, Bool.not_eq_true'] at hc
      split at h
      · next hm =>
        obtain ⟨e, ok⟩ := advance_shape _ _ _ h
        have ht : t.cpsr.m = v.extractLsb' 0 5 := by rw [e, noteModeChange_eq]; rfl
        refine ⟨ok, .inl ⟨by simpa using hs, by rw [e, noteModeChange_eq], .inr ⟨hc.2, hc.1, by rw [ht]; exact hm⟩⟩⟩
      · cases h
    · obtain ⟨e, ok⟩ := advance_shape _ _ _ h
      refine ⟨ok, .inl ⟨by simpa using hs, by rw [e], .inl ?_⟩⟩
      rw [e]; split <;> exact ⟨rfl, rfl, rfl⟩

/-- MSR from a register. -/
theorem execMsrReg_shape (c : Cond) (spsr : Bool) (mask : BitVec 4) (rm : RegNo) (s t : State)
    (h : execMsrReg c spsr mask rm s = .next t) :
    (t = { s with pc := t.pc } ∧ PcOk t) ∨ (rm ≠ 15 ∧ msr spsr mask (getX s rm) s = .next t) := by
  rcases whenPassed_next _ _ _ _ h with ⟨-, h⟩ | ⟨-, h⟩
  · split at h
    · cases h
    · next hr => exact .inr ⟨hr, h⟩
  · exact .inl (advance_shape _ _ _ h)

/-- MSR of an immediate. -/
theorem execMsrImm_shape (c : Cond) (spsr : Bool) (mask : BitVec 4) (o : ImmOp) (s t : State)
    (h : execMsrImm c spsr mask o s = .next t) :
    (t = { s with pc := t.pc } ∧ PcOk t) ∨ msr spsr mask (immValue o) s = .next t := by
  rcases whenPassed_next _ _ _ _ h with ⟨-, h⟩ | ⟨-, h⟩
  · exact .inr h
  · exact .inl (advance_shape _ _ _ h)

/-- What B and BL do: the PC, and R14 for BL. -/
theorem branch_shape (i : Instr) (l : Bool) (c : Cond) (off : BitVec 24) (s t : State)
    (hi : i.form = .branch l c off) (h : exec i s = .next t) :
    PcOk t ∧ (t = { s with pc := t.pc } ∨ (l = true ∧ ∃ v, t = { setX s 14 v with pc := t.pc })) := by
  cases i <;> simp only [Instr.form, reduceCtorEq, Form.branch.injEq] at hi
  all_goals
    obtain ⟨rfl, rfl, rfl⟩ := hi
    rcases whenPassed_next _ _ _ _ h with ⟨-, h⟩ | ⟨-, h⟩
  · obtain ⟨e, ok⟩ := jump_shape _ _ _ _ h; exact ⟨ok, .inl e⟩
  · obtain ⟨e, ok⟩ := advance_shape _ _ _ h; exact ⟨ok, .inl e⟩
  · obtain ⟨e, ok⟩ := jump_shape _ _ _ _ h; exact ⟨ok, .inr ⟨rfl, _, e⟩⟩
  · obtain ⟨e, ok⟩ := advance_shape _ _ _ h; exact ⟨ok, .inl e⟩

/-- A legal program counter follows an exception entry. -/
theorem enter_pcOk (e : Exc) (l : Word) (s : State) : PcOk (enter e l s) := by
  have h : unaligned e.vector = false ∧ outside26 e.vector = false := by cases e <;> decide
  exact ⟨h.1, fun _ => h.2⟩

/-- What SWI, IMB, IMBRange and the undefined instructions do: they are skipped, or they take their exception,
the two IMB after the flush. -/
theorem trap_shape (i : Instr) (s t : State) (h : exec i s = .next t)
    (hi : (∃ c n, i = .swi c n) ∨ (∃ c, i = .imb c) ∨ (∃ c, i = .imbRange c) ∨ ∃ c a b, i = .undefined c a b) :
    PcOk t ∧ (t = { s with pc := t.pc } ∨ ∃ (e : Exc) (l : Word) (u : State), (e = .swi ∨ e = .undefined) ∧
      (u = s ∨ u = imbFlush s) ∧ t = enter e l u) := by
  rcases hi with ⟨c, n, rfl⟩ | ⟨c, rfl⟩ | ⟨c, rfl⟩ | ⟨c, a, b, rfl⟩ <;>
    rcases whenPassed_next _ _ _ _ h with ⟨-, h⟩ | ⟨-, h⟩
  · simp only [Host.Outcome.next.injEq] at h
    subst h
    refine ⟨enter_pcOk _ _ _, .inr ⟨.swi, _, _, .inl rfl, ?_, rfl⟩⟩
    split
    · exact .inr rfl
    · exact .inl rfl
  · obtain ⟨e, ok⟩ := advance_shape _ _ _ h; exact ⟨ok, .inl e⟩
  · simp only [Host.Outcome.next.injEq] at h
    subst h
    exact ⟨enter_pcOk _ _ _, .inr ⟨.swi, _, _, .inl rfl, .inr rfl, rfl⟩⟩
  · obtain ⟨e, ok⟩ := advance_shape _ _ _ h; exact ⟨ok, .inl e⟩
  · simp only [Host.Outcome.next.injEq] at h
    subst h
    exact ⟨enter_pcOk _ _ _, .inr ⟨.swi, _, _, .inl rfl, .inr rfl, rfl⟩⟩
  · obtain ⟨e, ok⟩ := advance_shape _ _ _ h; exact ⟨ok, .inl e⟩
  · simp only [Host.Outcome.next.injEq] at h
    subst h
    exact ⟨enter_pcOk _ _ _, .inr ⟨.undefined, _, _, .inr rfl, .inl rfl, rfl⟩⟩
  · obtain ⟨e, ok⟩ := advance_shape _ _ _ h; exact ⟨ok, .inl e⟩

/-- Write-back changes registers alone. -/
theorem writeBack_eq (o : BlockOp) (wb : Word) (s : State) :
    writeBack o wb s = { s with regs := (writeBack o wb s).regs } := by
  unfold writeBack setX writeReg; split <;> (try split) <;> rfl

/-- The base after an abort changes registers alone. -/
theorem abortBase_eq (o : BlockOp) (b wb : Word) (s : State) :
    abortBase o b wb s = { s with regs := (abortBase o b wb s).regs } := by
  unfold abortBase setX writeReg; split <;> rfl

/-- `WritePSR26` keeps the mode among the ten and 26 bits wide. -/
theorem write26_mode (p : Psr) (v : Word) (h : isMode p.m = true) (h26 : is26 p.m = true) :
    isMode (p.write26 v).m = true ∧ is26 (p.write26 v).m = true := by
  unfold Psr.write26
  split
  · exact ⟨h, h26⟩
  · show isMode (p.m.extractLsb' 2 3 ++ v.extractLsb' 0 2) = true ∧ is26 (p.m.extractLsb' 2 3 ++ v.extractLsb' 0 2) = true
    generalize v.extractLsb' 0 2 = x
    generalize p.m = m at *
    revert x m; decide

/-- `WritePSR26` in a user mode changes the flags alone. -/
theorem write26_user (p : Psr) (v : Word) (h : isUser p.m = true) : p.write26 v = p.withFlags v := by
  unfold Psr.write26; rw [if_pos h]

/-- The fields of an exception entry that are not registers. -/
theorem enter_fields (e : Exc) (l : Word) (u : State) :
    (enter e l u).pc = e.vector ∧ (enter e l u).cpsr = { u.cpsr with m := e.mode, i := true, f := u.cpsr.f || e.setsF } ∧
      getSpsr (enter e l u) (bankOf e.mode) = some u.cpsr := by
  refine ⟨rfl, rfl, ?_⟩
  cases e <;> simp [enter, Exc.mode, bankOf, getSpsr, setSpsr]

/-- The fields of a Reset during a run that R290 fixes. -/
theorem takeReset_fields (s : State) :
    (takeReset s).pc = 0#32 ∧ (takeReset s).cpsr.m = 0b10011#5 ∧ (takeReset s).cpsr.i = true ∧
      (takeReset s).cpsr.f = true ∧ (takeReset s).mem = s.mem ∧ (takeReset s).stale = [] ∧ (takeReset s).exec26 = [] ∧
      (takeReset s).exec32 = [] ∧ (takeReset s).bankHazard = .clear := by
  simp [takeReset, Exc.vector, Exc.mode]

/-- A fetch changes the counter of free values at most. -/
theorem hazardOn_clear (l : List RegNo) (s : State) (h : s.bankHazard = .clear) : hazardOn l s = none := by
  simp [hazardOn, h]

/-- A word that is no instruction, when the machine goes on: the PC advances and BankHazard is cleared. -/
theorem runRejected_shape (r : Reject) (w : Word) (s t : State) (h : runRejected r w s = .next t) :
    PcOk t ∧ t = { clearHazard s with pc := t.pc } := by
  unfold runRejected at h
  split at h
  · cases h
  · split at h
    · cases h
    · split at h
      · cases h
      · exact (advance_shape _ _ _ h).symm

theorem fetch_shape (s t : State) (w : Word) (h : fetch s = some (w, t)) : t = { s with draws := t.draws } := by
  unfold fetch at h
  simp only at h
  split at h
  · cases h
  · split at h <;> (injection h with h; injection h with _ h; rw [← h])

/-- A store word list changes memory, IHist and the counter alone. -/
theorem storeWords_shape (s : State) (l : List Word) (a : Word) :
    (storeWords s l a).1 =
      { s with
        mem := (storeWords s l a).1.mem, stale := (storeWords s l a).1.stale, draws := (storeWords s l a).1.draws } := by
  rw [storeWords_eq s l a]

/-- What LDM does: it changes registers and BankHazard and goes on, it writes R15 with the S bit after changing
registers, or it takes the Data Abort after changing registers. -/
theorem execLdm_shape (c : Cond) (o : BlockOp) (s t : State) (h : execLdm c o s = .next t) :
    PcOk t ∧
      (t = { s with regs := t.regs, bankHazard := t.bankHazard, pc := t.pc } ∨
        (o.s = true ∧ o.list.getLsbD 15 = true ∧ ∃ v u, u = { s with regs := u.regs } ∧ writeR15S v u = .next t) ∨
        ∃ u, u = { s with regs := u.regs, draws := u.draws } ∧ t = enter .dataAbort (r15pc s 8#32) u) := by
  rcases whenPassed_next _ _ _ _ h with ⟨-, h⟩ | ⟨-, h⟩
  · split at h
    · cases h
    · simp only at h
      split at h
      · simp only [Host.Outcome.next.injEq] at h
        subst h
        refine ⟨enter_pcOk _ _ _, .inr (.inr ⟨_, ?_, rfl⟩)⟩
        rw [abortBase_eq, drawLoads_eq]
      · generalize hu : writeBack o (blockWriteBack o (getX s o.rn)) _ = u at h
        have eu : u = { s with regs := u.regs } := by rw [← hu, writeBack_eq, loadRegs_eq]
        unfold ldmFinish at h
        split at h
        · next h15 =>
          split at h
          · next hs => exact ⟨(writeR15S_shape _ _ _ h).2.1, .inr (.inl ⟨hs, h15, _, u, eu, h⟩)⟩
          · obtain ⟨e, ok⟩ := jump_shape _ _ _ _ h
            refine ⟨ok, .inl ?_⟩
            rw [e, eu]
        · obtain ⟨e, ok⟩ := advance_shape _ _ _ h
          refine ⟨ok, .inl ?_⟩
          rw [e, eu]; split <;> rfl
  · obtain ⟨e, ok⟩ := advance_shape _ _ _ h
    refine ⟨ok, .inl ?_⟩
    rw [e]

/-- What STM does: it is skipped, or it stores the words and goes on or takes the Data Abort. -/
theorem execStm_shape (c : Cond) (o : BlockOp) (s t : State) (h : execStm c o s = .next t) :
    PcOk t ∧
      (t = { s with pc := t.pc } ∨
        ∃ u, u = (storeWords s ((listedRegs o.list).map (storedValue o s)) (blockStart o (getX s o.rn))).1 ∧
          (t = { writeBack o (blockWriteBack o (getX s o.rn)) u with pc := t.pc } ∨
            t = enter .dataAbort (r15pc s 8#32) (abortBase o (getX s o.rn) (blockWriteBack o (getX s o.rn)) u))) := by
  rcases whenPassed_next _ _ _ _ h with ⟨-, h⟩ | ⟨-, h⟩
  · split at h
    · cases h
    · simp only at h
      split at h
      · obtain ⟨e, ok⟩ := advance_shape _ _ _ h
        exact ⟨ok, .inr ⟨_, rfl, .inl e⟩⟩
      · simp only [Host.Outcome.next.injEq] at h
        subst h
        exact ⟨enter_pcOk _ _ _, .inr ⟨_, rfl, .inr rfl⟩⟩
  · obtain ⟨e, ok⟩ := advance_shape _ _ _ h; exact ⟨ok, .inl e⟩

end Sys2Proof.Machine
end

