-- ==== Sys2Proof/Laws/PerInstr.lean ====
section
/-! SUPPORT. One lemma per constructor of `Instr`. Family FormRoundTrip: the form of an instruction is
encodable but for the two IMB comment fields of SWI, and determines the instruction. -/

namespace Sys2Proof.Laws.FormRoundTrip

/-- The form of the instruction gives the instruction back, and MOV and MVN have Rn = 0000 in it. -/
def Statement (i : Instr) : Prop := i.form.instr = i ∧ i.form.movOk = true

theorem mrs (c : Cond) (p : Bool) (rd : RegNo) : Statement (.mrs c p rd) := ⟨rfl, rfl⟩
theorem msrReg (c : Cond) (p : Bool) (m : BitVec 4) (rm : RegNo) : Statement (.msrReg c p m rm) := ⟨rfl, rfl⟩
theorem msrImm (c : Cond) (p : Bool) (m : BitVec 4) (o : ImmOp) : Statement (.msrImm c p m o) := ⟨rfl, rfl⟩
theorem andImm (c : Cond) (sb : Bool) (rd rn : RegNo) (o : ImmOp) : Statement (.andImm c sb rd rn o) := ⟨rfl, rfl⟩
theorem eorImm (c : Cond) (sb : Bool) (rd rn : RegNo) (o : ImmOp) : Statement (.eorImm c sb rd rn o) := ⟨rfl, rfl⟩
theorem subImm (c : Cond) (sb : Bool) (rd rn : RegNo) (o : ImmOp) : Statement (.subImm c sb rd rn o) := ⟨rfl, rfl⟩
theorem rsbImm (c : Cond) (sb : Bool) (rd rn : RegNo) (o : ImmOp) : Statement (.rsbImm c sb rd rn o) := ⟨rfl, rfl⟩
theorem addImm (c : Cond) (sb : Bool) (rd rn : RegNo) (o : ImmOp) : Statement (.addImm c sb rd rn o) := ⟨rfl, rfl⟩
theorem adcImm (c : Cond) (sb : Bool) (rd rn : RegNo) (o : ImmOp) : Statement (.adcImm c sb rd rn o) := ⟨rfl, rfl⟩
theorem sbcImm (c : Cond) (sb : Bool) (rd rn : RegNo) (o : ImmOp) : Statement (.sbcImm c sb rd rn o) := ⟨rfl, rfl⟩
theorem rscImm (c : Cond) (sb : Bool) (rd rn : RegNo) (o : ImmOp) : Statement (.rscImm c sb rd rn o) := ⟨rfl, rfl⟩
theorem tstImm (c : Cond) (rn : RegNo) (o : ImmOp) : Statement (.tstImm c rn o) := ⟨rfl, rfl⟩
theorem tstpImm (c : Cond) (rn : RegNo) (o : ImmOp) : Statement (.tstpImm c rn o) := ⟨rfl, rfl⟩
theorem teqImm (c : Cond) (rn : RegNo) (o : ImmOp) : Statement (.teqImm c rn o) := ⟨rfl, rfl⟩
theorem teqpImm (c : Cond) (rn : RegNo) (o : ImmOp) : Statement (.teqpImm c rn o) := ⟨rfl, rfl⟩
theorem cmpImm (c : Cond) (rn : RegNo) (o : ImmOp) : Statement (.cmpImm c rn o) := ⟨rfl, rfl⟩
theorem cmppImm (c : Cond) (rn : RegNo) (o : ImmOp) : Statement (.cmppImm c rn o) := ⟨rfl, rfl⟩
theorem cmnImm (c : Cond) (rn : RegNo) (o : ImmOp) : Statement (.cmnImm c rn o) := ⟨rfl, rfl⟩
theorem cmnpImm (c : Cond) (rn : RegNo) (o : ImmOp) : Statement (.cmnpImm c rn o) := ⟨rfl, rfl⟩
theorem orrImm (c : Cond) (sb : Bool) (rd rn : RegNo) (o : ImmOp) : Statement (.orrImm c sb rd rn o) := ⟨rfl, rfl⟩
theorem movImm (c : Cond) (sb : Bool) (rd : RegNo) (o : ImmOp) : Statement (.movImm c sb rd o) := ⟨rfl, rfl⟩
theorem bicImm (c : Cond) (sb : Bool) (rd rn : RegNo) (o : ImmOp) : Statement (.bicImm c sb rd rn o) := ⟨rfl, rfl⟩
theorem mvnImm (c : Cond) (sb : Bool) (rd : RegNo) (o : ImmOp) : Statement (.mvnImm c sb rd o) := ⟨rfl, rfl⟩
theorem andImmShift (c : Cond) (sb : Bool) (rd rn : RegNo) (o : ImmShiftOp) : Statement (.andImmShift c sb rd rn o) := ⟨rfl, rfl⟩
theorem eorImmShift (c : Cond) (sb : Bool) (rd rn : RegNo) (o : ImmShiftOp) : Statement (.eorImmShift c sb rd rn o) := ⟨rfl, rfl⟩
theorem subImmShift (c : Cond) (sb : Bool) (rd rn : RegNo) (o : ImmShiftOp) : Statement (.subImmShift c sb rd rn o) := ⟨rfl, rfl⟩
theorem rsbImmShift (c : Cond) (sb : Bool) (rd rn : RegNo) (o : ImmShiftOp) : Statement (.rsbImmShift c sb rd rn o) := ⟨rfl, rfl⟩
theorem addImmShift (c : Cond) (sb : Bool) (rd rn : RegNo) (o : ImmShiftOp) : Statement (.addImmShift c sb rd rn o) := ⟨rfl, rfl⟩
theorem adcImmShift (c : Cond) (sb : Bool) (rd rn : RegNo) (o : ImmShiftOp) : Statement (.adcImmShift c sb rd rn o) := ⟨rfl, rfl⟩
theorem sbcImmShift (c : Cond) (sb : Bool) (rd rn : RegNo) (o : ImmShiftOp) : Statement (.sbcImmShift c sb rd rn o) := ⟨rfl, rfl⟩
theorem rscImmShift (c : Cond) (sb : Bool) (rd rn : RegNo) (o : ImmShiftOp) : Statement (.rscImmShift c sb rd rn o) := ⟨rfl, rfl⟩
theorem tstImmShift (c : Cond) (rn : RegNo) (o : ImmShiftOp) : Statement (.tstImmShift c rn o) := ⟨rfl, rfl⟩
theorem tstpImmShift (c : Cond) (rn : RegNo) (o : ImmShiftOp) : Statement (.tstpImmShift c rn o) := ⟨rfl, rfl⟩
theorem teqImmShift (c : Cond) (rn : RegNo) (o : ImmShiftOp) : Statement (.teqImmShift c rn o) := ⟨rfl, rfl⟩
theorem teqpImmShift (c : Cond) (rn : RegNo) (o : ImmShiftOp) : Statement (.teqpImmShift c rn o) := ⟨rfl, rfl⟩
theorem cmpImmShift (c : Cond) (rn : RegNo) (o : ImmShiftOp) : Statement (.cmpImmShift c rn o) := ⟨rfl, rfl⟩
theorem cmppImmShift (c : Cond) (rn : RegNo) (o : ImmShiftOp) : Statement (.cmppImmShift c rn o) := ⟨rfl, rfl⟩
theorem cmnImmShift (c : Cond) (rn : RegNo) (o : ImmShiftOp) : Statement (.cmnImmShift c rn o) := ⟨rfl, rfl⟩
theorem cmnpImmShift (c : Cond) (rn : RegNo) (o : ImmShiftOp) : Statement (.cmnpImmShift c rn o) := ⟨rfl, rfl⟩
theorem orrImmShift (c : Cond) (sb : Bool) (rd rn : RegNo) (o : ImmShiftOp) : Statement (.orrImmShift c sb rd rn o) := ⟨rfl, rfl⟩
theorem movImmShift (c : Cond) (sb : Bool) (rd : RegNo) (o : ImmShiftOp) : Statement (.movImmShift c sb rd o) := ⟨rfl, rfl⟩
theorem bicImmShift (c : Cond) (sb : Bool) (rd rn : RegNo) (o : ImmShiftOp) : Statement (.bicImmShift c sb rd rn o) := ⟨rfl, rfl⟩
theorem mvnImmShift (c : Cond) (sb : Bool) (rd : RegNo) (o : ImmShiftOp) : Statement (.mvnImmShift c sb rd o) := ⟨rfl, rfl⟩
theorem andRegShift (c : Cond) (sb : Bool) (rd rn : RegNo) (o : RegShiftOp) : Statement (.andRegShift c sb rd rn o) := ⟨rfl, rfl⟩
theorem eorRegShift (c : Cond) (sb : Bool) (rd rn : RegNo) (o : RegShiftOp) : Statement (.eorRegShift c sb rd rn o) := ⟨rfl, rfl⟩
theorem subRegShift (c : Cond) (sb : Bool) (rd rn : RegNo) (o : RegShiftOp) : Statement (.subRegShift c sb rd rn o) := ⟨rfl, rfl⟩
theorem rsbRegShift (c : Cond) (sb : Bool) (rd rn : RegNo) (o : RegShiftOp) : Statement (.rsbRegShift c sb rd rn o) := ⟨rfl, rfl⟩
theorem addRegShift (c : Cond) (sb : Bool) (rd rn : RegNo) (o : RegShiftOp) : Statement (.addRegShift c sb rd rn o) := ⟨rfl, rfl⟩
theorem adcRegShift (c : Cond) (sb : Bool) (rd rn : RegNo) (o : RegShiftOp) : Statement (.adcRegShift c sb rd rn o) := ⟨rfl, rfl⟩
theorem sbcRegShift (c : Cond) (sb : Bool) (rd rn : RegNo) (o : RegShiftOp) : Statement (.sbcRegShift c sb rd rn o) := ⟨rfl, rfl⟩
theorem rscRegShift (c : Cond) (sb : Bool) (rd rn : RegNo) (o : RegShiftOp) : Statement (.rscRegShift c sb rd rn o) := ⟨rfl, rfl⟩
theorem tstRegShift (c : Cond) (rn : RegNo) (o : RegShiftOp) : Statement (.tstRegShift c rn o) := ⟨rfl, rfl⟩
theorem tstpRegShift (c : Cond) (rn : RegNo) (o : RegShiftOp) : Statement (.tstpRegShift c rn o) := ⟨rfl, rfl⟩
theorem teqRegShift (c : Cond) (rn : RegNo) (o : RegShiftOp) : Statement (.teqRegShift c rn o) := ⟨rfl, rfl⟩
theorem teqpRegShift (c : Cond) (rn : RegNo) (o : RegShiftOp) : Statement (.teqpRegShift c rn o) := ⟨rfl, rfl⟩
theorem cmpRegShift (c : Cond) (rn : RegNo) (o : RegShiftOp) : Statement (.cmpRegShift c rn o) := ⟨rfl, rfl⟩
theorem cmppRegShift (c : Cond) (rn : RegNo) (o : RegShiftOp) : Statement (.cmppRegShift c rn o) := ⟨rfl, rfl⟩
theorem cmnRegShift (c : Cond) (rn : RegNo) (o : RegShiftOp) : Statement (.cmnRegShift c rn o) := ⟨rfl, rfl⟩
theorem cmnpRegShift (c : Cond) (rn : RegNo) (o : RegShiftOp) : Statement (.cmnpRegShift c rn o) := ⟨rfl, rfl⟩
theorem orrRegShift (c : Cond) (sb : Bool) (rd rn : RegNo) (o : RegShiftOp) : Statement (.orrRegShift c sb rd rn o) := ⟨rfl, rfl⟩
theorem movRegShift (c : Cond) (sb : Bool) (rd : RegNo) (o : RegShiftOp) : Statement (.movRegShift c sb rd o) := ⟨rfl, rfl⟩
theorem bicRegShift (c : Cond) (sb : Bool) (rd rn : RegNo) (o : RegShiftOp) : Statement (.bicRegShift c sb rd rn o) := ⟨rfl, rfl⟩
theorem mvnRegShift (c : Cond) (sb : Bool) (rd : RegNo) (o : RegShiftOp) : Statement (.mvnRegShift c sb rd o) := ⟨rfl, rfl⟩
theorem ldm (c : Cond) (o : BlockOp) : Statement (.ldm c o) := ⟨rfl, rfl⟩
theorem stm (c : Cond) (o : BlockOp) : Statement (.stm c o) := ⟨rfl, rfl⟩
theorem b (c : Cond) (n : BitVec 24) : Statement (.b c n) := ⟨rfl, rfl⟩
theorem bl (c : Cond) (n : BitVec 24) : Statement (.bl c n) := ⟨rfl, rfl⟩
theorem imb (c : Cond) : Statement (.imb c) := ⟨rfl, rfl⟩
theorem imbRange (c : Cond) : Statement (.imbRange c) := ⟨rfl, rfl⟩
theorem swi (c : Cond) (n : BitVec 24) : Statement (.swi c n) := ⟨rfl, rfl⟩
theorem undefined (c : Cond) (hi : BitVec 20) (lo : BitVec 4) : Statement (.undefined c hi lo) := ⟨rfl, rfl⟩

end Sys2Proof.Laws.FormRoundTrip
end

