-- ==== Sys2Proof/Tests/Slice0.lean ====
section
/-! SUPPORT. The model's own tests: ill-formed terms refused by each check of WellFormed, words written out from the
encoding tables for every constructor, one small step per instruction with results from the rules' examples and
spec/95_test_vectors.md, and a witness for the hypotheses of every statement that has some. -/

namespace Sys2Proof.Tests

open Sys2Proof.Machine Sys2Proof.Stated

/-! ### A small machine -/

/-- The platform of spec/95_test_vectors.md, with the hazard parameter on. -/
def plat : Config.Platform :=
  { bigEndian := false, storePcOffset := .eight, prefetchWords := 1, vectorWriteAbort26 := false, aborts := [],
    translate := [], abortModel := .baseUpdated, modeChangeBankHazard := true, haltAddr := none }

/-- A PSR with flags, masks and mode given: bits 31:28, 7, 6 and 4:0 of `w`. -/
def psr (w : Word) : Psr := Psr.ofWord w

/-- A machine in the state of `w` at `pc`, with some registers of the current bank set. -/
def at_ (w pc : Word) (rs : List (RegNo × Word)) : State :=
  rs.foldl (fun s r => setX s r.1 r.2) { State.reset with pc := pc, platform := plat, cpsr := psr w, inputs := [Config.Input.quiet] }

/-- The same with words in memory, none of them stale. -/
def withMem (s : State) (l : List (Word × Word)) : State :=
  l.foldl (fun s p => { storeWord s (wordAddr p.1) p.2 with stale := [] }) s

/-- What a step leaves, or nothing when it stops. -/
def see {α : Type} (r : Result) (f : State → α) : Option α :=
  match r with
  | .next t => some (f t)
  | _ => none

/-- Why a step stops. -/
def whyRefused (r : Result) : Option Refusal :=
  match r with
  | .refused q => some q
  | _ => none

/-- The named bits of the CPSR in the layout of R27, with 0 in the reserved positions. -/
def cpsrOf (t : State) : Word := t.cpsr.read 0#21

/-- A register, the CPSR and the PC. -/
def rcp (i : RegNo) (t : State) : Word × Word × Word := (getX t i, cpsrOf t, t.pc)

/-! ### WellFormed refuses -/

/-- R111: an SWI with the IMB comment is no SWI row. -/
theorem test_ill_formed_swi : (Instr.swi .al 0xF00000#24).wellFormed = false := by decide

/-- R100: MOV has no Rn. -/
theorem test_ill_formed_mov_rn : (Form.dp .mov .al false 0 1 (.imm ⟨0#4, 0#8⟩)).wellFormed = false := by decide

/-- R98. -/
theorem test_ill_formed_reg_shift : (Instr.addRegShift .al false 0 1 ⟨15, .lsl, 2⟩).wellFormed = false := by decide

/-- R98, R100: a P form has Rd 1111. -/
theorem test_ill_formed_p_reg_shift : (Instr.teqpRegShift .al 0 ⟨1, .lsl, 2⟩).wellFormed = false := by decide

/-- R210. -/
theorem test_ill_formed_mrs_pc : (Instr.mrs .al false 15).wellFormed = false := by decide

/-- R189, line 1. -/
theorem test_ill_formed_empty_list : (Instr.ldm .al ⟨false, true, false, false, 0, 0#16⟩).wellFormed = false := by decide

/-- R189, line 2. -/
theorem test_ill_formed_base_r15 : (Instr.stm .al ⟨false, true, false, false, 15, 1#16⟩).wellFormed = false := by decide

/-- R189, line 3. -/
theorem test_ill_formed_ldm_writeback : (Instr.ldm .al ⟨false, true, false, true, 0, 3#16⟩).wellFormed = false := by decide

/-- R189, line 4. -/
theorem test_ill_formed_stm_writeback : (Instr.stm .al ⟨false, true, false, true, 1, 3#16⟩).wellFormed = false := by decide

/-- R189, line 6. -/
theorem test_ill_formed_user_bank : (Instr.stm .al ⟨false, true, true, true, 0, 0x6000#16⟩).wellFormed = false := by decide

/-- The lowest listed base may be written back by STM (R189, last paragraph). -/
theorem test_well_formed_stm : (Instr.stm .al ⟨false, true, false, true, 0, 3#16⟩).wellFormed = true := by decide

/-! ### Decoding -/

/-- R94, R95, R96: fields written out by hand. -/
theorem test_decode_data_processing_imm :
    decode 0x12012381#32 = .ok (.andImm .ne false 2 1 ⟨3#4, 0x81#8⟩) ∧
    decode 0x52347AA6#32 = .ok (.eorImm .pl true 7 4 ⟨10#4, 0xA6#8⟩) ∧
    decode 0x9247C1CB#32 = .ok (.subImm .ls false 12 7 ⟨1#4, 0xCB#8⟩) ∧
    decode 0xD27A48F0#32 = .ok (.rsbImm .le true 4 10 ⟨8#4, 0xF0#8⟩) ∧
    decode 0x22809F15#32 = .ok (.addImm .cs false 9 0 ⟨15#4, 0x15#8⟩) ∧
    decode 0x62B3163A#32 = .ok (.adcImm .vs true 1 3 ⟨6#4, 0x3A#8⟩) ∧
    decode 0xA2C66D5F#32 = .ok (.sbcImm .ge false 6 6 ⟨13#4, 0x5F#8⟩) ∧
    decode 0xE2F9B484#32 = .ok (.rscImm .al true 11 9 ⟨4#4, 0x84#8⟩) ∧
    decode 0x438BA73D#32 = .ok (.orrImm .mi false 10 11 ⟨7#4, 0x3D#8⟩) ∧
    decode 0x83B02E62#32 = .ok (.movImm .hi true 2 ⟨14#4, 0x62#8⟩) ∧
    decode 0xC3C47587#32 = .ok (.bicImm .gt false 7 4 ⟨5#4, 0x87#8⟩) ∧
    decode 0x13F0CCAC#32 = .ok (.mvnImm .ne true 12 ⟨12#4, 0xAC#8⟩) := by decide

/-- R94, R95, R100, R96: Rd 0000 and Rd 1111. -/
theorem test_decode_compare_imm :
    decode 0x331C0BA9#32 = .ok (.tstImm .cc 12 ⟨11#4, 0xA9#8⟩) ∧
    decode 0x733202CE#32 = .ok (.teqImm .vc 2 ⟨2#4, 0xCE#8⟩) ∧
    decode 0xB35509F3#32 = .ok (.cmpImm .lt 5 ⟨9#4, 0xF3#8⟩) ∧
    decode 0x03780018#32 = .ok (.cmnImm .eq 8 ⟨0#4, 0x18#8⟩) ∧
    decode 0x331CFBA9#32 = .ok (.tstpImm .cc 12 ⟨11#4, 0xA9#8⟩) ∧
    decode 0x7332F2CE#32 = .ok (.teqpImm .vc 2 ⟨2#4, 0xCE#8⟩) ∧
    decode 0xB355F9F3#32 = .ok (.cmppImm .lt 5 ⟨9#4, 0xF3#8⟩) ∧
    decode 0x0378F018#32 = .ok (.cmnpImm .eq 8 ⟨0#4, 0x18#8⟩) := by decide

/-- R94, R95, R97: fields written out by hand. -/
theorem test_decode_data_processing_imm_shift :
    decode 0x00012289#32 = .ok (.andImmShift .eq false 2 1 ⟨5#5, .lsl, 9⟩) ∧
    decode 0x4034782A#32 = .ok (.eorImmShift .mi true 7 4 ⟨16#5, .lsr, 10⟩) ∧
    decode 0x8047CDCB#32 = .ok (.subImmShift .hi false 12 7 ⟨27#5, .asr, 11⟩) ∧
    decode 0xC07A436C#32 = .ok (.rsbImmShift .gt true 4 10 ⟨6#5, .ror, 12⟩) ∧
    decode 0x1080988D#32 = .ok (.addImmShift .ne false 9 0 ⟨17#5, .lsl, 13⟩) ∧
    decode 0x50B31E2E#32 = .ok (.adcImmShift .pl true 1 3 ⟨28#5, .lsr, 14⟩) ∧
    decode 0x90C663CF#32 = .ok (.sbcImmShift .ls false 6 6 ⟨7#5, .asr, 15⟩) ∧
    decode 0xD0F9B960#32 = .ok (.rscImmShift .le true 11 9 ⟨18#5, .ror, 0⟩) ∧
    decode 0x318BA485#32 = .ok (.orrImmShift .cc false 10 11 ⟨9#5, .lsl, 5⟩) ∧
    decode 0x71B02A26#32 = .ok (.movImmShift .vc true 2 ⟨20#5, .lsr, 6⟩) ∧
    decode 0xB1C47FC7#32 = .ok (.bicImmShift .lt false 7 4 ⟨31#5, .asr, 7⟩) ∧
    decode 0x01F0C568#32 = .ok (.mvnImmShift .eq true 12 ⟨10#5, .ror, 8⟩) := by decide

/-- R94, R95, R100, R97: Rd 0000 and Rd 1111. -/
theorem test_decode_compare_imm_shift :
    decode 0x211C0E81#32 = .ok (.tstImmShift .cs 12 ⟨29#5, .lsl, 1⟩) ∧
    decode 0x61320422#32 = .ok (.teqImmShift .vs 2 ⟨8#5, .lsr, 2⟩) ∧
    decode 0xA15509C3#32 = .ok (.cmpImmShift .ge 5 ⟨19#5, .asr, 3⟩) ∧
    decode 0xE1780F64#32 = .ok (.cmnImmShift .al 8 ⟨30#5, .ror, 4⟩) ∧
    decode 0x211CFE81#32 = .ok (.tstpImmShift .cs 12 ⟨29#5, .lsl, 1⟩) ∧
    decode 0x6132F422#32 = .ok (.teqpImmShift .vs 2 ⟨8#5, .lsr, 2⟩) ∧
    decode 0xA155F9C3#32 = .ok (.cmppImmShift .ge 5 ⟨19#5, .asr, 3⟩) ∧
    decode 0xE178FF64#32 = .ok (.cmnpImmShift .al 8 ⟨30#5, .ror, 4⟩) := by decide

/-- R94, R95, R98: fields written out by hand. -/
theorem test_decode_data_processing_reg_shift :
    decode 0x20012432#32 = .ok (.andRegShift .cs false 2 1 ⟨4, .lsr, 2⟩) ∧
    decode 0x60347753#32 = .ok (.eorRegShift .vs true 7 4 ⟨7, .asr, 3⟩) ∧
    decode 0xA047CA74#32 = .ok (.subRegShift .ge false 12 7 ⟨10, .ror, 4⟩) ∧
    decode 0xE07A4015#32 = .ok (.rsbRegShift .al true 4 10 ⟨0, .lsl, 5⟩) ∧
    decode 0x30809336#32 = .ok (.addRegShift .cc false 9 0 ⟨3, .lsr, 6⟩) ∧
    decode 0x70B31657#32 = .ok (.adcRegShift .vc true 1 3 ⟨6, .asr, 7⟩) ∧
    decode 0xB0C66978#32 = .ok (.sbcRegShift .lt false 6 6 ⟨9, .ror, 8⟩) ∧
    decode 0x00F9BC19#32 = .ok (.rscRegShift .eq true 11 9 ⟨12, .lsl, 9⟩) ∧
    decode 0x518BA131#32 = .ok (.orrRegShift .pl false 10 11 ⟨1, .lsr, 1⟩) ∧
    decode 0x91B02452#32 = .ok (.movRegShift .ls true 2 ⟨4, .asr, 2⟩) ∧
    decode 0xD1C47773#32 = .ok (.bicRegShift .le false 7 4 ⟨7, .ror, 3⟩) ∧
    decode 0x21F0CA14#32 = .ok (.mvnRegShift .cs true 12 ⟨10, .lsl, 4⟩) := by decide

/-- R94, R95, R100, R98: Rd 0000 and Rd 1111. -/
theorem test_decode_compare_reg_shift :
    decode 0x411C023A#32 = .ok (.tstRegShift .mi 12 ⟨2, .lsr, 10⟩) ∧
    decode 0x8132055B#32 = .ok (.teqRegShift .hi 2 ⟨5, .asr, 11⟩) ∧
    decode 0xC155087C#32 = .ok (.cmpRegShift .gt 5 ⟨8, .ror, 12⟩) ∧
    decode 0x11780B10#32 = .ok (.cmnRegShift .ne 8 ⟨11, .lsl, 0⟩) ∧
    decode 0x411CF23A#32 = .ok (.tstpRegShift .mi 12 ⟨2, .lsr, 10⟩) ∧
    decode 0x8132F55B#32 = .ok (.teqpRegShift .hi 2 ⟨5, .asr, 11⟩) ∧
    decode 0xC155F87C#32 = .ok (.cmppRegShift .gt 5 ⟨8, .ror, 12⟩) ∧
    decode 0x1178FB10#32 = .ok (.cmnpRegShift .ne 8 ⟨11, .lsl, 0⟩) := by decide

/-- R101: the three PSR transfer formats. -/
theorem test_decode_psr_transfer :
    decode 0x910F7000#32 = .ok (.mrs .ls false 7) ∧
    decode 0xE14FC000#32 = .ok (.mrs .al true 12) ∧
    decode 0x3126F00B#32 = .ok (.msrReg .cc false 0b0110#4 11) ∧
    decode 0xE169F002#32 = .ok (.msrReg .al true 0b1001#4 2) ∧
    decode 0xE361FDD3#32 = .ok (.msrImm .al true 0b0001#4 ⟨13#4, 0xD3#8⟩) := by decide

/-- R102: each bit of P, U, S, W, L in turn. -/
theorem test_decode_block_transfer :
    decode 0xE9138421#32 = .ok (.ldm .al ⟨true, false, false, false, 3, 0x8421#16⟩) ∧
    decode 0xA8891248#32 = .ok (.stm .ge ⟨false, true, false, false, 9, 0x1248#16⟩) ∧
    decode 0xE85D7FFF#32 = .ok (.ldm .al ⟨false, false, true, false, 13, 0x7FFF#16⟩) ∧
    decode 0xE8200001#32 = .ok (.stm .al ⟨false, false, false, true, 0, 0x0001#16⟩) := by decide

/-- R103: the offset is 24 bits. -/
theorem test_decode_branch :
    decode 0xCA800001#32 = .ok (.b .gt 0x800001#24) ∧
    decode 0xEB7FFFFE#32 = .ok (.bl .al 0x7FFFFE#24) := by decide

/-- R104, R105, R107. -/
theorem test_decode_swi_and_undefined :
    decode 0x5FF00000#32 = .ok (.imb .pl) ∧
    decode 0xEFF00001#32 = .ok (.imbRange .al) ∧
    decode 0xEFF00002#32 = .ok (.swi .al 0xF00002#24) ∧
    decode 0x07579BD9#32 = .ok (.undefined .eq 0xABCDE#20 9#4) := by decide

/-- 95_test_vectors.md 2.2: the words outside the table. -/
theorem test_decode_rejects :
    decode 0xE1501001#32 = .error .compareRd ∧ decode 0xE1A10002#32 = .error .movRn ∧
    decode 0xE3200000#32 = .error .reservedEncoding ∧ decode 0xE10F0001#32 = .error .reservedEncoding ∧
    decode 0xFA000000#32 = .error .condNv ∧ decode 0xE0800090#32 = .error .multiply ∧
    decode 0xE1000090#32 = .error .swap ∧ decode 0xE01000B0#32 = .error .halfword ∧
    decode 0xE7900000#32 = .error .singleTransfer ∧ decode 0xEE000010#32 = .error .coprocessor := by decide

/-- The encoder gives back three of the words. -/
theorem test_encode :
    encode (.stm .al ⟨true, false, false, true, 13, 0x4003#16⟩) = 0xE92D4003#32 ∧
    encode (.movRegShift .al true 0 ⟨2, .ror, 1⟩) = 0xE1B00271#32 ∧
    encode (.msrImm .al false 0b1000#4 ⟨2#4, 0x0F#8⟩) = 0xE328F20F#32 := by decide

/-! ### One step per instruction: the word, the state, the result of the rule's example or of 95_test_vectors.md -/

/-- R155. -/
theorem test_and : see (runWord 0xE0110002#32 (at_ 0x30000010#32 0x8000#32 [(1, 0xF0#32), (2, 0x0F#32)])) (rcp 0) =
    some (0#32, 0x70000010#32, 0x8004#32) := by decide

/-- R156. -/
theorem test_eor : see (runWord 0xE0210002#32 (at_ 0x10#32 0x8000#32 [(1, 0xFF00FF00#32), (2, 0x0FF00FF0#32)])) (rcp 0) =
    some (0xF0F0F0F0#32, 0x10#32, 0x8004#32) := by decide

/-- R157: signed overflow. -/
theorem test_sub : see (runWord 0xE0510002#32 (at_ 0x10#32 0x8000#32 [(1, 0x80000000#32), (2, 1#32)])) (rcp 0) =
    some (0x7FFFFFFF#32, 0x30000010#32, 0x8004#32) := by decide

/-- R158: negating the most negative number. -/
theorem test_rsb : see (runWord 0xE2710000#32 (at_ 0x10#32 0x8000#32 [(1, 0x80000000#32)])) (rcp 0) =
    some (0x80000000#32, 0x90000010#32, 0x8004#32) := by decide

/-- R159: carry and overflow together. -/
theorem test_add : see (runWord 0xE0910002#32 (at_ 0x10#32 0x8000#32 [(1, 0x80000000#32), (2, 0x80000000#32)])) (rcp 0) =
    some (0#32, 0x70000010#32, 0x8004#32) := by decide

/-- R160. -/
theorem test_adc : see (runWord 0xE0B10002#32 (at_ 0x20000010#32 0x8000#32 [(1, 0xFFFFFFFF#32), (2, 0xFFFFFFFF#32)])) (rcp 0) =
    some (0xFFFFFFFF#32, 0xA0000010#32, 0x8004#32) := by decide

/-- R161: 0 - 0 with C = 0. -/
theorem test_sbc : see (runWord 0xE0D10002#32 (at_ 0x10#32 0x8000#32 [])) (rcp 0) =
    some (0xFFFFFFFF#32, 0x80000010#32, 0x8004#32) := by decide

/-- R162. -/
theorem test_rsc : see (runWord 0xE0F10002#32 (at_ 0x10#32 0x8000#32 [(1, 3#32), (2, 5#32)])) (rcp 0) =
    some (1#32, 0x20000010#32, 0x8004#32) := by decide

/-- R163, R96: the carry of a rotated immediate. -/
theorem test_orr : see (runWord 0xE3910102#32 (at_ 0x10#32 0x8000#32 [(1, 1#32)])) (rcp 0) =
    some (0x80000001#32, 0xA0000010#32, 0x8004#32) := by decide

/-- R164, R97: RRX. -/
theorem test_mov_rrx : see (runWord 0xE1B00061#32 (at_ 0x20000010#32 0x8000#32 [(1, 3#32)])) (rcp 0) =
    some (0x80000001#32, 0xA0000010#32, 0x8004#32) := by decide

/-- R164, R98: LSL by 33. -/
theorem test_mov_lsl_33 : see (runWord 0xE1B00211#32 (at_ 0x10#32 0x8000#32 [(1, 0x80000001#32), (2, 33#32)])) (rcp 0) =
    some (0#32, 0x40000010#32, 0x8004#32) := by decide

/-- R165. -/
theorem test_bic : see (runWord 0xE1D10002#32 (at_ 0x10#32 0x8000#32 [(1, 0xFFFFFFFF#32), (2, 0x7FFFFFFF#32)])) (rcp 0) =
    some (0x80000000#32, 0x80000010#32, 0x8004#32) := by decide

/-- R166. -/
theorem test_mvn : see (runWord 0xE1F00001#32 (at_ 0x10#32 0x8000#32 [(1, 0xFFFFFFFF#32)])) (rcp 0) =
    some (0#32, 0x40000010#32, 0x8004#32) := by decide

/-- R98, R97: ASR by 40 and ROR by 0x104. -/
theorem test_register_shifts :
    operand2 (at_ 0x10#32 0#32 [(1, 0x80000001#32), (2, 40#32)]) (.regShift ⟨2, .asr, 1⟩) = ⟨0xFFFFFFFF#32, true⟩ ∧
    operand2 (at_ 0x10#32 0#32 [(1, 0xF#32), (2, 0x104#32)]) (.regShift ⟨2, .ror, 1⟩) = ⟨0xF0000000#32, true⟩ := by decide

/-- R131. -/
theorem test_tst : see (runWord 0xE3100001#32 (at_ 0x20000010#32 0x8000#32 [(0, 2#32)])) (rcp 0) =
    some (2#32, 0x60000010#32, 0x8004#32) := by decide

/-- R132. -/
theorem test_teq : see (runWord 0xE1300001#32 (at_ 0x10#32 0x8000#32 [(0, 0x80000000#32)])) (rcp 0) =
    some (0x80000000#32, 0x80000010#32, 0x8004#32) := by decide

/-- R133. -/
theorem test_cmp : see (runWord 0xE1500001#32 (at_ 0x10#32 0x8000#32 [(0, 0x50000000#32), (1, 0x10000000#32)])) (rcp 0) =
    some (0x50000000#32, 0x20000010#32, 0x8004#32) := by decide

/-- R134. -/
theorem test_cmn : see (runWord 0xE3700001#32 (at_ 0x10#32 0x8000#32 [(0, 0xFFFFFFFF#32)])) (rcp 0) =
    some (0xFFFFFFFF#32, 0x60000010#32, 0x8004#32) := by decide

/-- R138, in svc26. -/
theorem test_tstp : see (runWord 0xE310F10F#32 (at_ 0x3#32 0x8000#32 [(0, 0xF0000003#32)])) cpsrOf =
    some 0xC0000003#32 := by decide

/-- R139: svc26 to fiq26, and usr26 protected. -/
theorem test_teqp :
    see (runWord 0xE33FF342#32 (at_ 0x3#32 0x8000#32 [])) cpsrOf = some 0x00000081#32 ∧
    see (runWord 0xE33FF3C3#32 (at_ 0xA0000000#32 0x8000#32 [])) cpsrOf = some 0#32 := by decide

/-- R140: result bits, not flags. -/
theorem test_cmpp : see (runWord 0xE150F001#32 (at_ 0#32 0x8000#32 [(0, 0x50000000#32), (1, 0x10000000#32)])) cpsrOf =
    some 0x40000000#32 := by decide

/-- R141, in irq26. -/
theorem test_cmnp : see (runWord 0xE372F343#32 (at_ 0x2#32 0x8000#32 [(2, 0x30000001#32)])) cpsrOf =
    some 0x300000C2#32 := by decide

/-- R137, R98. -/
theorem test_p_form_refused :
    whyRefused (runWord 0xE130F000#32 (at_ 0x13#32 0x8000#32 [])) = some .pFormIn32bitMode ∧
    whyRefused (runWord 0xE1A0011F#32 (at_ 0x13#32 0x8000#32 [])) = some .r15WithRegisterShift ∧
    whyRefused (runWord 0xE130F112#32 (at_ 0x3#32 0x8000#32 [])) = some .r15WithRegisterShift := by decide

/-- R99: Rm with status bits (svc26), Rn without (usr26). -/
theorem test_read_r15 :
    see (runWord 0xE1A0000F#32 (at_ 0x80000083#32 0x8000#32 [])) (rcp 0) = some (0x8800800B#32, 0x80000083#32, 0x8004#32) ∧
    see (runWord 0xE28F0000#32 (at_ 0x60000000#32 0x8000#32 [])) (rcp 0) = some (0x8008#32, 0x60000000#32, 0x8004#32) := by
  decide

/-- R152, R153: MOV PC, R14 and MOVS PC, R14 in svc26. -/
theorem test_mov_pc_26 :
    see (runWord 0xE1A0F00E#32 (at_ 0x3#32 0x8000#32 [(14, 0x88009002#32)])) (fun t => (cpsrOf t, t.pc)) =
      some (0x3#32, 0x9000#32) ∧
    see (runWord 0xE1B0F00E#32 (at_ 0x3#32 0x8000#32 [(14, 0x88009002#32)])) (fun t => (cpsrOf t, t.pc)) =
      some (0x80000082#32, 0x9000#32) := by decide

/-- R154: MOVS PC, R14 in Supervisor32 to usr26, and refused for a target above the 26-bit space. -/
theorem test_movs_pc_32 :
    see (runWord 0xE1B0F00E#32 { at_ 0x93#32 0x8#32 [(14, 0x8004#32)] with spsrSvc := psr 0x20000000#32 })
      (fun t => (cpsrOf t, t.pc)) = some (0x20000000#32, 0x8004#32) ∧
    whyRefused (runWord 0xE1B0F00E#32 (at_ 0x93#32 0x8#32 [(14, 0x04008000#32)])) = some .enter26Outside26bitSpace := by
  decide

/-- R183: STMDB R13!, {R0, R1, R14}. -/
theorem test_stm : see (runWord 0xE92D4003#32 (at_ 0x10#32 0x8000#32
      [(13, 0x2000#32), (0, 1#32), (1, 2#32), (14, 0x60008000#32)]))
    (fun t => (readWord t (wordAddr 0x1FF4#32), readWord t (wordAddr 0x1FF8#32), readWord t (wordAddr 0x1FFC#32), rcp 13 t)) =
    some (1#32, 2#32, 0x60008000#32, 0x1FF4#32, 0x10#32, 0x8004#32) := by decide

/-- R68, R190, R257: STM to a protected vector in usr26. -/
theorem test_stm_abort : see (runWord 0xE8800002#32
      { at_ 0#32 0x8000#32 [(1, 0x11#32)] with platform := { plat with vectorWriteAbort26 := true } })
    (fun t => (t.mem, rcp 14 t)) = some ([], 0x8008#32, 0x97#32, 0x10#32) := by decide

/-- R182: LDMIA R13!, {R0, R1}. -/
theorem test_ldm : see (runWord 0xE8BD0003#32
      (withMem (at_ 0x10#32 0x8000#32 [(13, 0x1000#32)]) [(0x1000#32, 0x11#32), (0x1004#32, 0x22#32)]))
    (fun t => (getX t 0, getX t 1, rcp 13 t)) = some (0x11#32, 0x22#32, 0x1008#32, 0x10#32, 0x8004#32) := by decide

/-- R185: LDMIA R13!, {R0, PC}^ in usr26. -/
theorem test_ldm_pc_psr : see (runWord 0xE8FD8001#32
      (withMem (at_ 0#32 0x8000#32 [(13, 0x1000#32)]) [(0x1000#32, 7#32), (0x1004#32, 0xAC009003#32)]))
    (fun t => (getX t 0, rcp 13 t)) = some (7#32, 0x1008#32, 0xA0000000#32, 0x9000#32) := by decide

/-- R200, R202: a branch that wraps in usr26. -/
theorem test_b : see (runWord 0xEAFFFFC0#32 (at_ 0#32 0x10#32 [])) (rcp 14) =
    some (0#32, 0#32, 0x03FFFF18#32) := by decide

/-- R201: the link in svc26 and in User32. -/
theorem test_bl :
    see (runWord 0xEB000002#32 (at_ 0x60000003#32 0x8000#32 [])) (rcp 14) =
      some (0x60008007#32, 0x60000003#32, 0x8010#32) ∧
    see (runWord 0xEB000002#32 (at_ 0x60000010#32 0x8000#32 [])) (rcp 14) =
      some (0x8004#32, 0x60000010#32, 0x8010#32) := by decide

/-- R210: the layout of the value MRS reads, with the reserved positions all 0 and all 1. -/
theorem test_mrs : (psr 0x60000083#32).read 0#21 = 0x60000083#32 ∧ (psr 0x60000083#32).read 0x1FFFFF#21 = 0x6FFFFFA3#32 := by
  decide

/-- R210: MRS R0, CPSR goes on to the next instruction; the SPSR in User32 is refused. -/
theorem test_mrs_step :
    see (runWord 0xE10F0000#32 (at_ 0x60000083#32 0x8000#32 [])) (fun t => (t.pc, t.draws)) = some (0x8004#32, 1) ∧
    whyRefused (runWord 0xE14F0000#32 (at_ 0x10#32 0x8000#32 [])) = some .noSpsrInUserMode := by decide

/-- R211: MSR CPSR_fc, R0 in Supervisor32 and in usr26. -/
theorem test_msr_reg :
    see (runWord 0xE129F000#32 (at_ 0xD3#32 0x8000#32 [(0, 0x80000000#32)])) cpsrOf = some 0x80000000#32 ∧
    see (runWord 0xE129F000#32 (at_ 0#32 0x8000#32 [(0, 0xF00000D3#32)])) cpsrOf = some 0xF0000000#32 := by decide

/-- R211: MSR SPSR_fc, #0; R214: a mode outside the ten. -/
theorem test_msr_imm :
    see (runWord 0xE369F000#32 { at_ 0x93#32 0x8000#32 [] with spsrSvc := psr 0xF00000DF#32 }) (fun t => t.spsrSvc) =
      some (psr 0#32) ∧
    whyRefused (runWord 0xE321F01F#32 (at_ 0x93#32 0x8000#32 [])) = some .illegalModeValue := by decide

/-- R230: SWI from usr26. -/
theorem test_swi : see (runWord 0xEF123456#32 (at_ 0x60000000#32 0x8000#32 [])) (fun t => (t.spsrSvc, rcp 14 t)) =
    some (psr 0x60000000#32, 0x8004#32, 0x60000093#32, 0x8#32) := by decide

/-- R232, R74. -/
theorem test_imb : see (runWord 0xEFF00000#32 { at_ 0#32 0x8000#32 [] with stale := [(0x2400#30, [1#32])], exec32 := [7#30] })
    (fun t => (t.stale, t.exec26, t.exec32, rcp 14 t)) = some ([], [], [], 0x8004#32, 0x93#32, 0x8#32) := by decide

/-- R233: the same, and not when its condition fails. -/
theorem test_imb_range :
    see (runWord 0xEFF00001#32 { at_ 0#32 0x8000#32 [] with stale := [(0x2400#30, [1#32])] }) (fun t => (t.stale, t.pc)) =
      some ([], 0x8#32) ∧
    see (runWord 0x0FF00001#32 { at_ 0#32 0x8000#32 [] with stale := [(0x2400#30, [1#32])] }) (fun t => (t.stale, t.pc)) =
      some ([(0x2400#30, [1#32])], 0x8004#32) := by decide

/-- R255, from FIQ32. -/
theorem test_undefined : see (runWord 0xE7FFFFFF#32 (at_ 0xD1#32 0x8000#32 [])) (fun t => (t.spsrUnd, rcp 14 t)) =
    some (psr 0xD1#32, 0x8004#32, 0xDB#32, 0x4#32) := by decide

/-- R260, R262: IRQ before the instruction at 0x8008. -/
theorem test_irq : see (step { at_ 0x60000000#32 0x8008#32 [] with inputs := [⟨false, false, true⟩] })
    (fun t => (t.spsrIrq, rcp 14 t)) = some (psr 0x60000000#32, 0x800C#32, 0x60000092#32, 0x18#32) := by decide

/-- R295, R296. -/
theorem test_hazards :
    whyRefused (runWord 0xE1A00000#32 (at_ 0#32 0x03FFFFFC#32 [])) = some .sequentialWrap26 ∧
    whyRefused (runWord 0xE1A00000#32 { at_ 0#32 0x8004#32 [] with exec32 := [0x2000#30] }) = some .sharedCodeWithoutImb := by
  decide

/-- R298, R299. -/
theorem test_bank_hazard :
    whyRefused (runWord 0xE3A0D000#32 { at_ 0#32 0x8004#32 [] with bankHazard := .modeChange false }) =
      some .bankedRegisterAfterModeChange ∧
    whyRefused (runWord 0xE1A0000D#32 { at_ 0x3#32 0x8004#32 [] with bankHazard := .userBankLdm }) =
      some .bankedRegisterAfterUserBankLdm := by decide

/-- R9, R298: before the condition is looked at, and R8 only when a FIQ mode is involved; a rejected word (CMP with Rd R13). -/
theorem test_bank_hazard_first :
    whyRefused (runWord 0x03A0D000#32 { at_ 0#32 0x8004#32 [] with bankHazard := .modeChange false }) =
      some .bankedRegisterAfterModeChange ∧
    whyRefused (runWord 0xE3A08000#32 { at_ 0#32 0x8004#32 [] with bankHazard := .modeChange true }) =
      some .bankedRegisterAfterModeChange ∧
    see (runWord 0xE3A08000#32 { at_ 0#32 0x8004#32 [] with bankHazard := .modeChange false }) (·.pc) = some 0x8008#32 ∧
    whyRefused (runWord 0x0350D000#32 { at_ 0#32 0x8004#32 [] with bankHazard := .modeChange false }) =
      some .bankedRegisterAfterModeChange := by decide

/-- The host's entry: the word placed is the word the next step runs, from reset (log 18). -/
theorem test_with_fetch_word :
    decodeTableWord 32 0xE3A01005 = some (.movImm .al false 1 ⟨0#4, 5#8⟩) ∧
    see (step (State.reset.withFetchWord 32 0xE3A01005)) (fun t => (t.regs[1], t.pc)) = some (5#32, 4#32) := by decide

/-! ### Witnesses: for every statement with hypotheses, concrete data that meet them together, one line for each clause -/

/-- usr26. -/
def u26 : State := at_ 0#32 0x8000#32 []

/-- svc26. -/
def s26 : State := at_ 0x3#32 0x8000#32 [(13, 0x1000#32)]

/-- User32. -/
def u32 : State := at_ 0x10#32 0x8000#32 []

/-- Supervisor32, with SPSR_svc naming usr26. -/
def s32 : State := { at_ 0x93#32 0x8000#32 [(13, 0x1000#32)] with spsrSvc := psr 0x20000000#32 }

/-- A state whose memory system aborts one kind of access to one byte range. -/
def aborting (s : State) (k : Config.Access) (lo hi : Nat) : State :=
  { s with platform := { s.platform with aborts := [⟨lo, hi, some k, none, true⟩] } }

theorem witness_DecodeAfterEncode :
    (Instr.subRegShift .gt true 15 0 ⟨15, .ror, 14⟩).encodable = true ∧ (Instr.ldm .al ⟨true, true, true, true, 15, 0xFFFF#16⟩).encodable = true ∧
    (Instr.msrImm .eq true 15#4 ⟨15#4, 255#8⟩).encodable = true ∧ (Instr.b .le 0xFFFFFF#24).encodable = true ∧
    (Instr.swi .al 0xF00002#24).encodable = true ∧ (Instr.undefined .al 0xFFFFF#20 15#4).encodable = true := by decide

theorem witness_EncodeAfterDecode : decode 0xC0500F6E#32 = .ok (.subImmShift .gt true 0 0 ⟨30#5, .ror, 14⟩) := by decide

/-- One word for each clause of OutOfTableWordsRejected, at the edge of its class. -/
theorem witness_OutOfTableWordsRejected :
    (0xF0000000#32).extractLsb' 28 4 = 0b1111#4 ∧
    (let w := 0xE0FFFF9F#32;
      w.extractLsb' 25 3 = 0b000#3 ∧ w.extractLsb' 4 4 = 0b1001#4 ∧ w.getLsbD 24 = false) ∧
    (let w := 0xE1400090#32;
      w.extractLsb' 25 3 = 0b000#3 ∧ w.extractLsb' 4 4 = 0b1001#4 ∧ w.extractLsb' 23 2 = 0b10#2) ∧
    (let w := 0xE1800090#32;
      w.extractLsb' 25 3 = 0b000#3 ∧ w.getLsbD 7 = true ∧ w.getLsbD 4 = true ∧ w.extractLsb' 23 2 = 0b11#2) ∧
    (let w := 0xE00000B0#32;
      w.extractLsb' 25 3 = 0b000#3 ∧ w.getLsbD 7 = true ∧ w.getLsbD 4 = true ∧ w.extractLsb' 5 2 ≠ 0b00#2) ∧
    (let w := 0xE3400000#32; w.extractLsb' 23 5 = 0b00110#5 ∧ w.extractLsb' 20 2 = 0b00#2) ∧
    (let w := 0xE10F0001#32;
      w.extractLsb' 23 5 = 0b00010#5 ∧ w.extractLsb' 20 2 = 0b00#2 ∧ w.getLsbD 7 = false ∧ w.extractLsb' 0 12 ≠ 0#12) ∧
    (let w := 0xE1200000#32;
      w.extractLsb' 23 5 = 0b00010#5 ∧ w.extractLsb' 20 2 = 0b10#2 ∧ w.getLsbD 7 = false ∧ w.extractLsb' 12 4 ≠ 0b1111#4) ∧
    (let w := 0xE3200000#32;
      w.extractLsb' 23 5 = 0b00110#5 ∧ w.extractLsb' 20 2 = 0b10#2 ∧ w.extractLsb' 12 4 ≠ 0b1111#4) ∧
    (let w := 0xE7FFFFEF#32; w.extractLsb' 26 2 = 0b01#2 ∧ w.getLsbD 4 = false) ∧
    (let w := 0xEE000000#32; w.extractLsb' 24 4 = 0b1110#4) ∧ (let w := 0xEC000000#32; w.extractLsb' 25 3 = 0b110#3) ∧
    (let w := 0xE3501000#32;
      w.extractLsb' 26 2 = 0b00#2 ∧ w.getLsbD 25 = true ∧ w.extractLsb' 23 2 = 0b10#2 ∧ w.getLsbD 20 = true ∧
        w.extractLsb' 12 4 ≠ 0b0000#4 ∧ w.extractLsb' 12 4 ≠ 0b1111#4) ∧
    (let w := 0xE1AF0000#32;
      w.extractLsb' 26 2 = 0b00#2 ∧ w.getLsbD 4 = false ∧ w.extractLsb' 21 4 = 0b1101#4 ∧ w.extractLsb' 16 4 ≠ 0b0000#4) := by
  decide

/-- In both byte orders, SUBS R0, R0, #1 in memory at the program counter of a usr26 state. -/
theorem witness_StepRunsDecodedInstruction (big : Bool) :
    let s := withMem { u26 with platform := { plat with bigEndian := big } } [(0x8000#32, 0xE2500001#32)]
    decodeBytes s.platform.bigEndian
      (Memory.read s.mem (4 * (translate s (wordAddr s.pc)).toNat))
      (Memory.read s.mem (4 * (translate s (wordAddr s.pc)).toNat + 1))
      (Memory.read s.mem (4 * (translate s (wordAddr s.pc)).toNat + 2))
      (Memory.read s.mem (4 * (translate s (wordAddr s.pc)).toNat + 3)) = .ok (.subImm .al true 0 0 ⟨0#4, 1#8⟩) ∧
    staleOf s.stale (translate s (wordAddr s.pc)) = [] ∧ s.platform.haltAddr ≠ some s.pc ∧ pendingExc s = none ∧
    aborts s .fetch (wordAddr s.pc) = false ∧ sharedCode (encode (.subImm .al true 0 0 ⟨0#4, 1#8⟩)) s = false ∧
    bankHazardRefusal (.subImm .al true 0 0 ⟨0#4, 1#8⟩) s = none := by
  cases big <;> decide

theorem witness_FetchReturnsHistoryMember :
    aborts (aborting u26 .fetch 0x8000 0x8000) .fetch (wordAddr u26.pc) = true ∧
    (fetch { u26 with stale := [(0x2000#30, [1#32])] }).isSome = true ∧
    staleOf u26.stale (translate u26 (wordAddr u26.pc)) = [] ∧ aborts u26 .fetch (wordAddr u26.pc) = false := by decide

theorem witness_RejectedWordRefusedOrSkipped :
    decode 0xFFFFFFFF#32 = .error .condNv ∧ sharedCode 0xFFFFFFFF#32 u26 = false ∧
    decode 0xE1A10002#32 = .error .movRn ∧ condOf 0xE1A10002#32 = some .al ∧ condPassed .al u26.cpsr = true ∧
    decode 0x05900000#32 = .error .singleTransfer ∧ condOf 0x05900000#32 = some .eq ∧ condPassed .eq u26.cpsr = false ∧
    Sequential u26 ∧ u26.bankHazard = .clear ∧
    decode 0x0590D000#32 = .error .singleTransfer ∧ 13 ∈ rejectedRegs 0x0590D000#32 ∧
    decode 0x010FE001#32 = .error .reservedEncoding ∧ 14 ∈ rejectedRegs 0x010FE001#32 := by decide

/-- The registers at the edges: R12 counts with a FIQ mode and not without, R13 in both, R7 in neither. -/
theorem witness_RejectedWordRefusedOrSkipped_hazard :
    let fiq := { u26 with bankHazard := .modeChange true }
    let svc := { s26 with bankHazard := .modeChange false }
    let ldmFiq := { at_ 0x11#32 0x8000#32 [] with bankHazard := .userBankLdm }
    let ldmSvc := { s26 with bankHazard := .userBankLdm }
    decode 0x0350C000#32 = .error .compareRd ∧ rejectedRegs 0x0350C000#32 = [0, 12] ∧
    decode 0x0357D000#32 = .error .compareRd ∧ rejectedRegs 0x0357D000#32 = [7, 13] ∧
    countsUnderHazard fiq 12 ∧ countsUnderHazard fiq 8 ∧ countsUnderHazard ldmFiq 12 ∧ countsUnderHazard ldmSvc 13 ∧
    (∀ q ∈ rejectedRegs 0x0350C000#32, ¬ countsUnderHazard svc q) ∧ (∀ q ∈ rejectedRegs 0x0350C000#32, ¬ countsUnderHazard ldmSvc q) ∧
    ¬ countsUnderHazard fiq 7 := by
  refine ⟨?_, ?_, ?_, ?_, ?_, ?_, ?_, ?_, ?_, ?_, ?_⟩ <;> (try simp only [countsUnderHazard]) <;> decide

theorem witness_FailedConditionOnlyAdvances :
    condPassed (Instr.movImm .eq false 0 ⟨0#4, 1#8⟩).form.cond u26.cpsr = false ∧ Sequential u26 ∧
    Sequential (at_ 0#32 0x03FFFFF8#32 []) ∧ Sequential (at_ 0x10#32 0xFFFFFFF8#32 []) := by decide

/-- svc26 and Supervisor32 at the last word of their program space, and each kind of instruction that goes on to the next. -/
theorem witness_SequentialWrapRefused :
    let s := { s26 with pc := 0x03FFFFFC#32 }
    let t := { s32 with pc := 0xFFFFFFFC#32 }
    is26 s.cpsr.m = true ∧ is26 t.cpsr.m = false ∧ condPassed (Instr.b .eq 0#24).form.cond s.cpsr = false ∧
    condPassed (Instr.b .eq 0#24).form.cond t.cpsr = false ∧
    (∀ u, u = s ∨ u = t →
      completesSequentially (Instr.addRegShift .al true 14 0 ⟨1, .lsl, 2⟩).form u ∧
      completesSequentially (Instr.cmpImm .al 0 ⟨0#4, 0#8⟩).form u ∧
      completesSequentially (Instr.mrs .al true 14).form u ∧
      completesSequentially (Instr.msrReg .al true 15#4 14).form u ∧
      completesSequentially (Instr.msrImm .al false 15#4 ⟨0#4, 0x10#8⟩).form u) := by
  refine ⟨by decide, by decide, by decide, by decide, ?_⟩
  rintro u (rfl | rfl) <;> simp only [completesSequentially, msrAllowed, Instr.form] <;> decide

/-- LDM and STM. -/
theorem witness_SequentialWrapRefused_memory :
    let s := { s26 with pc := 0x03FFFFFC#32 }
    completesSequentially (Instr.ldm .al ⟨false, true, false, true, 13, 0x4001#16⟩).form s ∧
    completesSequentially (Instr.stm .al ⟨true, false, false, true, 13, 0xC001#16⟩).form s := by
  simp only [completesSequentially, readsReach, storeAborts, Instr.form]; decide

/-- Where R25 and R295 meet: at 0xFFFFFFFC an MSR from Supervisor32 to svc26, at 0x03FFFFFC one from svc26 to Supervisor32. -/
theorem witness_SequentialWrapRefused_msr :
    let t := { s32 with pc := 0xFFFFFFFC#32 }
    let s := { s26 with pc := 0x03FFFFFC#32 }
    completesSequentially (Instr.msrImm .al false 1#4 ⟨0#4, 0x03#8⟩).form t ∧ is26 t.cpsr.m = false ∧ outside26 t.pc = true ∧
    is26 ((0x03#32).extractLsb' 0 5) = true ∧ condPassed .al t.cpsr = true ∧
    completesSequentially (Instr.msrImm .al false 1#4 ⟨0#4, 0x13#8⟩).form s ∧ is26 s.cpsr.m = true := by
  simp only [completesSequentially, msrAllowed, Instr.form]; decide

theorem witness_SequentialWrapRefused_pform :
    completesSequentially (Instr.teqpImm .al 15 ⟨0#4, 3#8⟩).form { s26 with pc := 0x03FFFFFC#32 } := ⟨by decide, nofun⟩

theorem witness_InterruptsTakenByPriority :
    u26.platform.haltAddr ≠ some u26.pc ∧
    (let s := { u26 with inputs := [⟨true, true, true⟩] }; (nextInput s).reset = true) ∧
    (let s := { u26 with inputs := [⟨false, true, true⟩] };
      (nextInput s).reset = false ∧ s.cpsr.f = false ∧ (nextInput s).fiq = true) ∧
    (let s := { at_ 0x50#32 0x8000#32 [] with inputs := [⟨false, true, true⟩] };
      (nextInput s).reset = false ∧ ¬(s.cpsr.f = false ∧ (nextInput s).fiq = true) ∧ s.cpsr.i = false ∧
        (nextInput s).irq = true) := by decide

theorem witness_PrefetchAbortTaken :
    let s := aborting u26 .fetch 0x8000 0x8000
    s.platform.haltAddr ≠ some s.pc ∧ pendingExc s = none ∧ aborts s .fetch (wordAddr s.pc) = true := by decide

/-- One word on from a word executed in the other width, with PREFETCH_MAX = 4; the 26-bit distance wraps. -/
theorem witness_SharedCodeRefusedWithoutImb :
    (let s := { at_ 0#32 0x8004#32 [] with exec32 := [0x2000#30] };
      is26 s.cpsr.m = true ∧ ∃ e ∈ s.exec32, (s.pc.extractLsb' 2 30 - e).toNat ≤ s.platform.prefetchWords) ∧
    (let s := { at_ 0x10#32 0#32 [] with exec26 := [0xFFFFFF#30] };
      is26 s.cpsr.m = false ∧ s.pc.toNat < 2 ^ 26 ∧
        ∃ e ∈ s.exec26, (s.pc.extractLsb' 2 30 - e).toNat % 2 ^ 24 ≤ s.platform.prefetchWords) ∧
    condPassed .eq u32.cpsr = false ∧ decode 0x0FF00000#32 = .ok (.imb .eq) :=
  ⟨⟨by decide, _, .head _, by simp [at_, plat]⟩, ⟨by decide, by simp [at_], _, .head _, by simp [at_, plat]⟩, by decide, by decide⟩

/-- And a word that is no IMB. -/
theorem witness_SharedCodeRefusedWithoutImb_other (c : Cond) :
    ¬(decode 0xE1A00000#32 = .ok (.imb c) ∨ decode 0xE1A00000#32 = .ok (.imbRange c)) := by cases c <;> decide

/-- The registers at the edges: R13, R14, R8 and R12 refused, R7, R15 and (no FIQ mode) R12 not. -/
theorem witness_BankHazardChecked :
    ({ s26 with bankHazard := .modeChange true } : State).bankHazard = .modeChange true ∧
    ({ s26 with bankHazard := .userBankLdm } : State).bankHazard = .userBankLdm ∧ s26.bankHazard = .clear ∧
    namesRegister (Instr.movImm .eq false 13 ⟨0#4, 0#8⟩).form 13 ∧ namesRegister (Instr.bl .al 0#24).form 14 ∧
    namesRegister (Instr.mrs .al false 8).form 8 ∧ namesRegister (Instr.stm .al ⟨false, true, false, false, 0, 0x1000#16⟩).form 12 ∧
    ((at_ 0x11#32 0#32 []).cpsr.m = 0b00001#5 ∨ (at_ 0x11#32 0#32 []).cpsr.m = 0b10001#5) ∧
    ¬(s26.cpsr.m = 0b00001#5 ∨ s26.cpsr.m = 0b10001#5) ∧
    (∀ r, namesRegister (Instr.addImmShift .al false 7 15 ⟨0#5, .lsl, 12⟩).form r → r.val < 8 ∨ r = 15 ∨ (false = false ∧ r.val ≤ 12)) ∧
    (∀ r, namesRegister (Instr.addImmShift .al false 7 15 ⟨0#5, .lsl, 12⟩).form r →
      r.val < 8 ∨ r = 15 ∨ (¬(s26.cpsr.m = 0b00001#5 ∨ s26.cpsr.m = 0b10001#5) ∧ r.val ≤ 12)) := by
  simp only [namesRegister, operandNames, Instr.form]; decide

/-- The amounts at the edges of ImmediateShiftTable's clauses. -/
theorem witness_ImmediateShiftTable :
    unaligned u26.pc = false ∧ ((0#5).toNat = 0 ∧ 0 < (1#5).toNat ∧ 0 < (31#5).toNat) ∧
    (ImmShiftOp.mk 0#5 .lsl 15).ty = .lsl ∧ (ImmShiftOp.mk 1#5 .lsr 15).ty = .lsr ∧ (ImmShiftOp.mk 31#5 .asr 0).ty = .asr ∧
    (ImmShiftOp.mk 0#5 .ror 0).ty = .ror := by decide

/-- The amounts at the edges of RegisterShiftTable's clauses: 0 (with bits above the low byte), 1, 32, 33, 255. -/
theorem witness_RegisterShiftTable :
    (RegShiftOp.mk 2 .lsl 1).rm ≠ 15 ∧ (RegShiftOp.mk 2 .lsl 1).rs ≠ 15 ∧
    (getX (at_ 0#32 0#32 [(2, 0x100#32)]) 2).toNat % 256 = 0 ∧ (getX (at_ 0#32 0#32 [(2, 1#32)]) 2).toNat % 256 = 1 ∧
    (getX (at_ 0#32 0#32 [(2, 0x120#32)]) 2).toNat % 256 = 32 ∧ (getX (at_ 0#32 0#32 [(2, 33#32)]) 2).toNat % 256 = 33 ∧
    (getX (at_ 0#32 0#32 [(2, 0xFFFFFFFF#32)]) 2).toNat % 256 = 255 := by decide

theorem witness_OperandRegisterReads : unaligned u26.pc = false ∧ unaligned (at_ 0x10#32 0xFFFFFFFC#32 []).pc = false ∧
    (14 : RegNo) ≠ 15 := by decide

/-- R7 of two banks, R12 of usr and svc and of usr and fiq, R13 of svc and irq. -/
theorem witness_BankedRegisters :
    sameRegister .fiq 7 .und 7 ∧ sameRegister .usr 12 .svc 12 ∧ ¬ sameRegister .usr 12 .fiq 12 ∧ sameRegister .fiq 8 .fiq 8 ∧
    ¬ sameRegister .svc 13 .irq 13 ∧ sameRegister .abt 14 .abt 14 ∧ ¬ sameRegister .usr 13 .usr 14 := by
  simp only [sameRegister]; decide

/-- Each operand format. -/
theorem witness_DataProcessingResult :
    (Instr.adcImm .al true 14 15 ⟨0#4, 1#8⟩).form = .dp .adc .al true 14 15 (.imm ⟨0#4, 1#8⟩) ∧
    (Instr.bicImmShift .al false 0 0 ⟨0#5, .ror, 15⟩).form = .dp .bic .al false 0 0 (.immShift ⟨0#5, .ror, 15⟩) ∧
    (Instr.rscRegShift .al true 1 14 ⟨2, .asr, 3⟩).form = .dp .rsc .al true 1 14 (.regShift ⟨2, .asr, 3⟩) ∧
    condPassed .al u26.cpsr = true ∧ r15WithRegShift (.imm ⟨0#4, 1#8⟩) [14, 15] = false ∧
    r15WithRegShift (.immShift ⟨0#5, .ror, 15⟩) [0, 0] = false ∧ r15WithRegShift (.regShift ⟨2, .asr, 3⟩) [1, 14] = false ∧
    Sequential u26 ∧ Sequential s32 := by decide

/-- MOV PC, R14 in a 26-bit mode with any R14, in a 32-bit mode with an aligned and with an unaligned one. -/
theorem witness_DataProcessingToPc :
    (Instr.movImmShift .al false 15 ⟨0#5, .lsl, 14⟩).form = .dp .mov .al false 15 0 (.immShift ⟨0#5, .lsl, 14⟩) ∧
    condPassed .al s26.cpsr = true ∧ r15WithRegShift (.immShift ⟨0#5, .lsl, 14⟩) [15, 0] = false ∧ is26 s26.cpsr.m = true ∧
    (let s := at_ 0x10#32 0x8000#32 [(14, 0xFFFFFFFC#32)];
      dpValue .mov (readRn s 0) (operand2 s (.immShift ⟨0#5, .lsl, 14⟩)).value s.cpsr.c &&& 3#32 = 0#32) ∧
    (let s := at_ 0x10#32 0x8000#32 [(14, 0x8002#32)];
      is26 s.cpsr.m = false ∧
        (dpValue .mov (readRn s 0) (operand2 s (.immShift ⟨0#5, .lsl, 14⟩)).value s.cpsr.c).extractLsb' 0 2 ≠ 0#2) := by decide

theorem witness_DataProcessingToPcAndPsr26 :
    (Instr.subImm .al true 15 14 ⟨0#4, 4#8⟩).form = .dp .sub .al true 15 14 (.imm ⟨0#4, 4#8⟩) ∧
    r15WithRegShift (.imm ⟨0#4, 4#8⟩) [15, 14] = false ∧
    condPassed .al s26.cpsr = true ∧ is26 s26.cpsr.m = true ∧ isMode s26.cpsr.m = true ∧
    is26 u26.cpsr.m = true ∧ isMode u26.cpsr.m = true := by decide

/-- MOVS PC, R14: from User32; with an SPSR outside the ten modes; to usr26 above the 26-bit space, from above it, and
inside it; to an unaligned address. -/
theorem witness_DataProcessingExceptionReturn :
    let i := Instr.movImmShift .al true 15 ⟨0#5, .lsl, 14⟩
    let v := fun s : State => dpValue .mov (readRn s 0) (operand2 s (.immShift ⟨0#5, .lsl, 14⟩)).value s.cpsr.c
    i.form = .dp .mov .al true 15 0 (.immShift ⟨0#5, .lsl, 14⟩) ∧
    r15WithRegShift (.immShift ⟨0#5, .lsl, 14⟩) [15, 0] = false ∧
    u32.cpsr.m = 0b10000#5 ∧ is26 s32.cpsr.m = false ∧ isMode s32.cpsr.m = true ∧ condPassed .al s32.cpsr = true ∧
    getSpsr s32 (bankOf s32.cpsr.m) = some (psr 0x20000000#32) ∧
    isMode (psr 0x1F#32).m = false ∧ isMode (psr 0x20000000#32).m = true ∧ is26 (psr 0x20000000#32).m = true ∧
    (v (setX s32 14 0x04000000#32)).extractLsb' 26 6 ≠ 0#6 ∧ (0x04000000#32).extractLsb' 26 6 ≠ 0#6 ∧
    (v (setX s32 14 0x03FFFFFC#32)).extractLsb' 26 6 = 0#6 ∧ s32.pc.extractLsb' 26 6 = 0#6 ∧
    (v (setX s32 14 0x03FFFFFC#32)).extractLsb' 0 2 = 0#2 ∧ (v (setX s32 14 0x8001#32)).extractLsb' 0 2 ≠ 0#2 := by decide

theorem witness_RegisterShiftWithR15Refused :
    condPassed .al u26.cpsr = true ∧ condPassed .al s32.cpsr = true ∧
    (Instr.addRegShift .al false 0 1 ⟨15, .lsl, 2⟩).form = .dp .add .al false 0 1 (.regShift ⟨15, .lsl, 2⟩) ∧
    (Instr.cmpRegShift .al 15 ⟨1, .lsl, 2⟩).form = .cmp .cmp false .al 15 (.regShift ⟨1, .lsl, 2⟩) ∧
    (Instr.cmppRegShift .al 0 ⟨1, .lsl, 2⟩).form = .cmp .cmp true .al 0 (.regShift ⟨1, .lsl, 2⟩) := by decide

theorem witness_CompareResult :
    (Instr.cmnRegShift .al 14 ⟨0, .lsr, 1⟩).form = .cmp .cmn false .al 14 (.regShift ⟨0, .lsr, 1⟩) ∧
    r15WithRegShift (.regShift ⟨0, .lsr, 1⟩) [14] = false ∧
    (Instr.tstImm .al 15 ⟨0#4, 1#8⟩).form = .cmp .tst false .al 15 (.imm ⟨0#4, 1#8⟩) ∧
    r15WithRegShift (.imm ⟨0#4, 1#8⟩) [15] = false ∧ condPassed .al s32.cpsr = true ∧ Sequential s32 ∧ Sequential u26 := by decide

theorem witness_PFormResult :
    (Instr.teqpImm .al 15 ⟨1#4, 0x0F#8⟩).form = .cmp .teq true .al 15 (.imm ⟨1#4, 0x0F#8⟩) ∧
    condPassed .al s26.cpsr = true ∧ Sequential s26 ∧ is26 s26.cpsr.m = true ∧ isMode s26.cpsr.m = true ∧
    condPassed .al u26.cpsr = true ∧ Sequential u26 ∧ is26 u26.cpsr.m = true ∧ isMode u26.cpsr.m = true := by decide

theorem witness_PFormResult_operand (r : RegShiftOp) : Operand2.imm ⟨1#4, 0x0F#8⟩ ≠ .regShift r := nofun

theorem witness_PFormRefusedIn32BitMode :
    (Instr.tstpImmShift .al 0 ⟨0#5, .lsl, 15⟩).form = .cmp .tst true .al 0 (.immShift ⟨0#5, .lsl, 15⟩) ∧
    condPassed .al s32.cpsr = true ∧ is26 s32.cpsr.m = false := by decide

theorem witness_PFormRefusedIn32BitMode_operand (r : RegShiftOp) : Operand2.immShift ⟨0#5, .lsl, 15⟩ ≠ .regShift r := nofun

/-- Each line of BlockTransferRefusals' chain is met, and the last. -/
theorem witness_BlockTransferRefusals :
    blockRefusal true ⟨false, true, false, false, 15, 0#16⟩ 0#5 = some .ldmStmEmptyList ∧
    blockRefusal false ⟨false, true, false, false, 15, 1#16⟩ 0#5 = some .ldmStmBaseR15 ∧
    blockRefusal true ⟨false, true, false, true, 0, 1#16⟩ 0#5 = some .ldmBaseInListWriteback ∧
    blockRefusal false ⟨false, true, false, true, 14, 0x6000#16⟩ 0#5 = some .stmBaseInListWriteback ∧
    blockRefusal false ⟨false, true, false, true, 13, 0x6000#16⟩ 0#5 = none ∧
    blockRefusal false ⟨false, true, true, false, 0, 0x8000#16⟩ 0b10000#5 = some .userBankTransferInUserMode ∧
    blockRefusal true ⟨false, true, true, true, 0, 0x4000#16⟩ 0b10011#5 = some .userBankTransferWithWriteback ∧
    blockRefusal true ⟨false, true, true, false, 0, 0x8000#16⟩ 0b10000#5 = some .noSpsrInUser32 ∧
    blockRefusal true ⟨false, true, true, true, 0, 0x8000#16⟩ 0#5 = none := by decide

/-- LDMIA R13!, {R0, R14}, and with S = 1 and no write-back. -/
theorem witness_LdmLoadsListedRegisters :
    condPassed .al s32.cpsr = true ∧ blockRefusal true ⟨false, true, false, true, 13, 0x4001#16⟩ s32.cpsr.m = none ∧
    blockRefusal true ⟨true, false, true, false, 13, 0x4001#16⟩ s32.cpsr.m = none ∧ (0x4001#16).getLsbD 15 = false ∧
    (∀ k, k < count 0x4001#16 → aborts s32 .dataRead (virtAt s32 ⟨false, true, false, true, 13, 0x4001#16⟩ k) = false) ∧
    (∀ k, k < count 0x4001#16 → aborts s32 .dataRead (virtAt s32 ⟨true, false, true, false, 13, 0x4001#16⟩ k) = false) ∧
    Sequential s32 := by decide

/-- LDMIA R13!, {R0, PC}: in svc26, and in Supervisor32 with an aligned and an unaligned word. -/
theorem witness_LdmLoadsPc :
    let o : BlockOp := ⟨false, true, false, true, 13, 0x8001#16⟩
    blockRefusal true o s26.cpsr.m = none ∧ condPassed .al s26.cpsr = true ∧ o.list.getLsbD 15 = true ∧ o.s = false ∧
    (∀ k, k < count o.list → aborts s26 .dataRead (virtAt s26 o k) = false) ∧ is26 s26.cpsr.m = true ∧
    blockRefusal true o s32.cpsr.m = none ∧ condPassed .al s32.cpsr = true ∧ is26 s32.cpsr.m = false ∧
    (∀ k, k < count o.list → aborts s32 .dataRead (virtAt s32 o k) = false) ∧
    (loadedFor (withMem s32 [(0x1004#32, 0x8002#32)]) o 15).extractLsb' 0 2 ≠ 0#2 ∧
    (loadedFor (withMem s32 [(0x1004#32, 0xFFFFFFFC#32)]) o 15).extractLsb' 0 2 = 0#2 := by decide

theorem witness_LdmLoadsPcAndPsr26 :
    let o : BlockOp := ⟨false, true, true, true, 13, 0x8001#16⟩
    condPassed .al s26.cpsr = true ∧ blockRefusal true o s26.cpsr.m = none ∧ o.list.getLsbD 15 = true ∧ o.s = true ∧
    is26 s26.cpsr.m = true ∧ isMode s26.cpsr.m = true ∧
    (∀ k, k < count o.list → aborts s26 .dataRead (virtAt s26 o k) = false) := by decide

/-- LDMIA R13!, {R0, PC}^: the same edges as for MOVS PC, R14. -/
theorem witness_LdmExceptionReturn :
    let o : BlockOp := ⟨false, true, true, true, 13, 0x8001#16⟩
    let v := fun w : Word => loadedFor (withMem s32 [(0x1004#32, w)]) o 15
    condPassed .al s32.cpsr = true ∧ o.rn ≠ 15 ∧ (o.w = true → o.list.getLsbD o.rn.val = false) ∧
    o.list.getLsbD 15 = true ∧ o.s = true ∧ is26 s32.cpsr.m = false ∧ isMode s32.cpsr.m = true ∧
    u32.cpsr.m = 0b10000#5 ∧ getSpsr s32 (curBank s32) = some (psr 0x20000000#32) ∧
    (∀ k, k < count o.list → aborts s32 .dataRead (virtAt s32 o k) = false) ∧
    isMode (psr 0x14#32).m = false ∧ isMode (psr 0x20000000#32).m = true ∧ is26 (psr 0x20000000#32).m = true ∧
    (v 0x04000000#32).extractLsb' 26 6 ≠ 0#6 ∧ (v 0x03FFFFFC#32).extractLsb' 26 6 = 0#6 ∧ s32.pc.extractLsb' 26 6 = 0#6 ∧
    (v 0x8002#32).extractLsb' 0 2 ≠ 0#2 ∧ (v 0x03FFFFFC#32).extractLsb' 0 2 = 0#2 := by decide

/-- The second of three reads aborts. -/
theorem witness_LdmDataAbort :
    let o : BlockOp := ⟨false, true, false, true, 13, 0x0007#16⟩
    let s := aborting s32 .dataRead 0x1004 0x1004
    condPassed .al s.cpsr = true ∧ blockRefusal true o s.cpsr.m = none ∧ 1 < count o.list ∧
    aborts s .dataRead (virtAt s o 1) = true ∧ (∀ j, j < 1 → aborts s .dataRead (virtAt s o j) = false) := by decide

/-- STMDB R13!, {R0, R14, PC}: three words of their own. -/
theorem witness_StmStoresListedRegisters :
    let o : BlockOp := ⟨true, false, false, true, 13, 0xC001#16⟩
    condPassed .al s32.cpsr = true ∧ blockRefusal false o s32.cpsr.m = none ∧
    (∀ k, k < count o.list → aborts s32 .dataWrite (virtAt s32 o k) = false) ∧ s32.platform.vectorWriteAbort26 = false ∧
    Sequential s32 ∧ Memory.wf s32.mem = true ∧
    (∀ j, j < 3 → ∀ k, k < 3 → j ≠ k → wordAt s32 o j ≠ wordAt s32 o k) := by decide

/-- The same as the hypothesis of the statement words it. -/
theorem witness_StmStoresListedRegisters_reach (k : Nat) (h : k < 3) :
    ¬ storeAborts s32 ⟨true, false, false, true, 13, 0xC001#16⟩ k := by
  unfold storeAborts; revert k; decide

/-- The last word of the protected vectors, with R68's parameter on, and the word after it. -/
theorem witness_StmDataAbort :
    let o : BlockOp := ⟨false, true, false, true, 13, 0x0007#16⟩
    let s := { at_ 0x3#32 0x8000#32 [(13, 0x1C#32)] with platform := { plat with vectorWriteAbort26 := true } }
    condPassed .al s.cpsr = true ∧ blockRefusal false o s.cpsr.m = none ∧ 0 < count o.list ∧ storeAborts s o 0 ∧
    ¬ storeAborts (setX s 13 0x20#32) o 0 ∧ (∀ j, j < 0 → ¬ storeAborts s o j) ∧ unaligned s.pc = false ∧
    Memory.wf s.mem = true := by
  unfold storeAborts; decide

/-- The second of three writes aborts. -/
theorem witness_StmDataAbort_second :
    let o : BlockOp := ⟨false, true, false, true, 13, 0x0007#16⟩
    let s := aborting s32 .dataWrite 0x1004 0x1004
    condPassed .al s.cpsr = true ∧ blockRefusal false o s.cpsr.m = none ∧ 1 < count o.list ∧
    storeAborts s o 1 ∧ (∀ j, j < 1 → ¬ storeAborts s o j) ∧ unaligned s.pc = false ∧ Memory.wf s.mem = true := by
  unfold storeAborts; decide

theorem witness_StmMemoryFrame :
    let o : BlockOp := ⟨true, false, false, true, 13, 0xC001#16⟩
    (see (exec (.stm .al o) s32) (fun _ => ())).isSome = true ∧ Memory.wf s32.mem = true ∧
    (∀ k, k < count o.list → 0x1000 / 4 ≠ (wordAt s32 o k).toNat) ∧
    (∀ k, k < count o.list → 0xFF3 / 4 ≠ (wordAt s32 o k).toNat) := by decide

theorem witness_ProtectedVectorsNeverWritten :
    let s := { at_ 0#32 0x8000#32 [] with platform := { plat with vectorWriteAbort26 := true } }
    is26 s.cpsr.m = true ∧ s.platform.vectorWriteAbort26 = true ∧ s.platform.translate = [] ∧ Memory.wf s.mem = true ∧
    (see (exec (.stm .al ⟨false, true, false, false, 0, 1#16⟩) s) (fun _ => ())).isSome = true := by decide

theorem witness_StoreExtendsHistory :
    (memWrite s32 0xFFFFFFFC#32 1#32).isSome = true ∧ Memory.wf s32.mem = true ∧ staleWf s32 = true := by decide

theorem witness_BranchTarget_BranchWithLinkSavesReturn :
    condPassed .al u26.cpsr = true ∧ unaligned u26.pc = false ∧ unaligned (at_ 0x10#32 0xFFFFFFFC#32 []).pc = false := by decide

theorem witness_MrsReadsNamedBits :
    condPassed .al s32.cpsr = true ∧ Sequential s32 ∧ getSpsr s32 (bankOf s32.cpsr.m) = some (psr 0x20000000#32) ∧
    bankOf u26.cpsr.m = .usr ∧ bankOf u32.cpsr.m = .usr ∧ condPassed .al u32.cpsr = true := by decide

/-- Supervisor32 to svc26, and in usr26. -/
theorem witness_MsrWritesCpsr :
    isMsr (.msrReg .al false 0b1001#4 0) .al false 0b1001#4 3#32 (setX s32 0 3#32) ∧
    isMsr (.msrImm .al false 0b1001#4 ⟨0#4, 3#8⟩) .al false 0b1001#4 ((3#8).zeroExtend 32 |>.rotateRight (2 * (0#4).toNat)) u26 :=
  ⟨.inl ⟨0, rfl, by decide, by decide⟩, .inr ⟨_, rfl, rfl⟩⟩

theorem witness_MsrWritesCpsr_states :
    condPassed .al s32.cpsr = true ∧ Sequential (setX s32 0 3#32) ∧ isMode (msrPsr s32.cpsr 0b1001#4 3#32 false).m = true ∧
    (s32.pc + 4#32).extractLsb' 26 6 = 0#6 ∧ isUser u26.cpsr.m = true ∧ Sequential u26 ∧
    ((0b1001#4).getLsbD 0 && !isUser u26.cpsr.m) = false := by decide

/-- The edges of MsrRefusals: mode 11111; entering a 26-bit mode at 0x03FFFFFC, whose next instruction is outside. -/
theorem witness_MsrRefusals :
    condPassed .al u26.cpsr = true ∧ bankOf u26.cpsr.m = .usr ∧ isUser s32.cpsr.m = false ∧
    (0b0001#4).getLsbD 0 = true ∧ isMode ((0xFFFFFFFF#32).extractLsb' 0 5) = false ∧
    isMode ((3#32).extractLsb' 0 5) = true ∧ is26 s32.cpsr.m = false ∧ is26 ((3#32).extractLsb' 0 5) = true ∧
    (0x03FFFFFC#32) ≠ 0xFFFFFFFC#32 ∧ (0x03FFFFFC#32 + 4#32).extractLsb' 26 6 ≠ 0#6 := by decide

theorem witness_MsrWritesSpsr :
    isMsr (.msrReg .al true 0b1111#4 13) .al true 0b1111#4 0x1000#32 s32 ∧
    condPassed .al s32.cpsr = true ∧ Sequential s32 ∧ getSpsr s32 (bankOf s32.cpsr.m) = some (psr 0x20000000#32) :=
  ⟨.inl ⟨13, rfl, by decide, by decide⟩, by decide⟩

theorem witness_SwiTakesSoftwareInterrupt :
    condPassed .al u26.cpsr = true ∧ (0xF00002#24) ≠ 0xF00000#24 ∧ (0xF00002#24) ≠ 0xF00001#24 := by decide

theorem witness_ImbFlushesInstructionInformation : condPassed .al u26.cpsr = true ∧ condPassed .al s32.cpsr = true := by decide

theorem witness_UndefinedInstructionTrap : condPassed .al u26.cpsr = true ∧ condPassed .al s32.cpsr = true := by decide

/-- SWI and the undefined trap, from usr26 and from Supervisor32. -/
theorem witness_ExceptionReturnRestores :
    Inv u26 ∧ Inv s32 ∧ condPassed (Instr.swi .al 0#24).form.cond u26.cpsr = true ∧
    (see (exec (.swi .al 0#24) u26) (fun _ => ())).isSome = true ∧ (see (exec (.imb .al) s32) (fun _ => ())).isSome = true ∧
    (see (exec (.undefined .al 0#20 0#4) s32) (fun _ => ())).isSome = true := by decide

theorem witness_RegisterInstructionFrame :
    isRegisterForm (Instr.movImm .al true 0 ⟨0#4, 0#8⟩).form = true ∧ isRegisterForm (Instr.bl .al 0#24).form = true ∧
    isRegisterForm (Instr.msrReg .al true 0#4 0).form = true ∧
    (see (exec (.movImm .al true 0 ⟨0#4, 0#8⟩) u26) (fun _ => ())).isSome = true ∧
    (see (exec (.bl .al 0#24) u26) (fun _ => ())).isSome = true ∧
    (see (exec (.msrReg .al true 0#4 0) s32) (fun _ => ())).isSome = true := by decide

theorem witness_StatusRegisterFrame :
    writesNoStatus (Instr.movImm .al false 0 ⟨0#4, 0#8⟩).form = true ∧ writesNoStatus (Instr.bl .al 0#24).form = true ∧
    (Instr.movImm .al true 14 ⟨0#4, 0#8⟩).form = .dp .mov .al true 14 0 (.imm ⟨0#4, 0#8⟩) ∧
    (Instr.tstImm .al 0 ⟨0#4, 0#8⟩).form = .cmp .tst false .al 0 (.imm ⟨0#4, 0#8⟩) ∧
    (see (exec (.movImm .al false 0 ⟨0#4, 0#8⟩) u26) (fun _ => ())).isSome = true ∧
    (see (exec (.movImm .al true 14 ⟨0#4, 0#8⟩) u26) (fun _ => ())).isSome = true ∧
    (see (exec (.tstImm .al 0 ⟨0#4, 0#8⟩) u26) (fun _ => ())).isSome = true := by decide

theorem witness_BlockTransferFrame :
    see (exec (.ldm .al ⟨false, true, false, false, 13, 1#16⟩) s32) (·.pc) = some 0x8004#32 ∧
    see (exec (.stm .al ⟨false, true, false, false, 13, 0x8000#16⟩) s32) (·.pc) = some 0x8004#32 := by decide

theorem witness_UserModeCannotChangeModeOrMasks :
    isUser u26.cpsr.m = true ∧ isUser u32.cpsr.m = true ∧
    (see (exec (.teqpImm .al 0 ⟨0#4, 3#8⟩) u26) (fun _ => ())).isSome = true ∧
    (see (exec (.msrImm .al false 15#4 ⟨0#4, 0x13#8⟩) u32) (fun _ => ())).isSome = true ∧
    (see (exec (.swi .al 0#24) u32) (fun _ => ())).isSome = true := by decide

theorem witness_OnlyMsrOrExceptionLeaves26BitModes :
    isMode s26.cpsr.m = true ∧ is26 s26.cpsr.m = true ∧
    see (exec (.msrImm .al false 1#4 ⟨0#4, 0x13#8⟩) s26) (fun t => is26 t.cpsr.m) = some false ∧
    see (exec (.swi .al 0#24) s26) (fun t => is26 t.cpsr.m) = some false := by decide

theorem witness_StepKeepsInvariant_StepKeepsHistoryWellFormed :
    let s := withMem s32 [(0x8000#32, 0xE92D4003#32)]
    Inv s ∧ staleWf s = true ∧ see (step s) (·.pc) = some 0x8004#32 := by decide

end Sys2Proof.Tests
end

/-! PROOF. BankHazard and the words that are no instruction: which registers count (spec/70_reset_and_hazards.md
R298, R299), and what `runInstr` and `runRejected` answer. Settles O14 and O7. -/

namespace Sys2Proof.Machine

open Sys2Proof.Stated

theorem isBanked_iff (fiq : Bool) (r : RegNo) :
    isBanked fiq r = true ↔ r = 13 ∨ r = 14 ∨ (fiq = true ∧ 8 ≤ r.val ∧ r.val ≤ 12) := by
  simp [isBanked, and_assoc, or_assoc]

/-- The registers that are not banked, listed: R0 to R7, R15, and R8 to R12 where no FIQ mode is involved. -/
theorem isBanked_eq_false_iff (fiq : Bool) (r : RegNo) :
    isBanked fiq r = false ↔ r.val < 8 ∨ r = 15 ∨ (fiq = false ∧ r.val ≤ 12) := by
  revert fiq r; decide

theorem curBank_eq_fiq_iff (s : State) : curBank s = .fiq ↔ s.cpsr.m = 0b00001#5 ∨ s.cpsr.m = 0b10001#5 := by
  unfold curBank; generalize s.cpsr.m = m; revert m; decide

/-- R298: what counts after a mode change. -/
theorem countsUnderHazard_modeChange {s : State} {fiq : Bool} (h : s.bankHazard = .modeChange fiq) (r : RegNo) :
    countsUnderHazard s r ↔ isBanked fiq r = true := by
  rw [isBanked_iff]; simp only [countsUnderHazard, h]; simp; tauto

/-- R299: what counts after a user-bank LDM. -/
theorem countsUnderHazard_userBankLdm {s : State} (h : s.bankHazard = .userBankLdm) (r : RegNo) :
    countsUnderHazard s r ↔ isBanked (curBank s == .fiq) r = true := by
  rw [isBanked_iff, beq_iff_eq, curBank_eq_fiq_iff]; simp only [countsUnderHazard, h]; simp; tauto

theorem hazardOn_modeChange {s : State} {fiq : Bool} (h : s.bankHazard = .modeChange fiq) {regs : List RegNo} {r : RegNo}
    (hr : r ∈ regs) (hc : isBanked fiq r = true) : hazardOn regs s = some .bankedRegisterAfterModeChange := by
  simp only [hazardOn, h]; exact if_pos (List.any_eq_true.2 ⟨r, hr, hc⟩)

theorem hazardOn_userBankLdm {s : State} (h : s.bankHazard = .userBankLdm) {regs : List RegNo} {r : RegNo}
    (hr : r ∈ regs) (hc : isBanked (curBank s == .fiq) r = true) :
    hazardOn regs s = some .bankedRegisterAfterUserBankLdm := by
  simp only [hazardOn, h]; exact if_pos (List.any_eq_true.2 ⟨r, hr, hc⟩)

theorem hazardOn_modeChange_none {s : State} {fiq : Bool} (h : s.bankHazard = .modeChange fiq) {regs : List RegNo}
    (hr : ∀ r ∈ regs, isBanked fiq r = false) : hazardOn regs s = none := by
  simpa [hazardOn, h] using hr

theorem hazardOn_userBankLdm_none {s : State} (h : s.bankHazard = .userBankLdm) {regs : List RegNo}
    (hr : ∀ r ∈ regs, isBanked (curBank s == .fiq) r = false) : hazardOn regs s = none := by
  simpa [hazardOn, h] using hr

/-- A word whose registers do not count meets no hazard, whichever hazard it is. -/
theorem hazardOn_none_of_not_counts {s : State} {regs : List RegNo} (h : ∀ r ∈ regs, ¬ countsUnderHazard s r) :
    hazardOn regs s = none := by
  cases hb : s.bankHazard with
  | clear => exact hazardOn_clear regs s hb
  | modeChange fiq =>
    exact hazardOn_modeChange_none hb fun r hr => by simpa [countsUnderHazard_modeChange hb] using h r hr
  | userBankLdm =>
    exact hazardOn_userBankLdm_none hb fun r hr => by simpa [countsUnderHazard_userBankLdm hb] using h r hr

/-! ### The hazard check of an instruction -/

theorem mem_operandRegs (o : Operand2) (r : RegNo) : r ∈ operandRegs o ↔ operandNames o r := by
  cases o <;> simp [operandRegs, operandNames]

/-- The registers the model checks are those the statement says the instruction names. -/
theorem mem_regsUsed (f : Form) (r : RegNo) : r ∈ regsUsed f ↔ namesRegister f r := by
  cases f with
  | dp op c sb rd rn o => cases op <;> simp [regsUsed, namesRegister, DpOp.hasNoRn, mem_operandRegs]
  | block l c o => simp [regsUsed, namesRegister, mem_listedRegs]
  | branch l c off => cases l <;> simp [regsUsed, namesRegister]
  | _ => simp [regsUsed, namesRegister, mem_operandRegs]

theorem runInstr_refused {i : Instr} {s : State} {q : Refusal} (h : hazardOn (regsUsed i.form) s = some q) :
    runInstr i s = .refused q := by
  simp [runInstr, bankHazardRefusal, h]

theorem runInstr_exec {i : Instr} {s : State} (h : hazardOn (regsUsed i.form) s = none) :
    runInstr i s = exec i { s with bankHazard := .clear } := by
  simp [runInstr, bankHazardRefusal, h, clearHazard]

/-- Settles O14: under each hazard, an instruction that names a banked register is refused, and any other runs. -/
theorem bankHazardChecked : Obligations.BankHazardChecked := by
  unfold Obligations.BankHazardChecked
  intro i s fiqMode
  have hfiq : (curBank s == .fiq) = true ↔ fiqMode := by rw [beq_iff_eq]; exact curBank_eq_fiq_iff s
  refine ⟨fun q hb => ⟨?_, fun hn => ?_⟩, fun hb => ⟨?_, fun hn => ?_⟩, fun hb => ?_⟩
  · rintro ⟨r, hr, hc⟩
    exact runInstr_refused (hazardOn_modeChange hb ((mem_regsUsed _ r).2 hr) ((isBanked_iff q r).2 hc))
  · exact runInstr_exec (hazardOn_modeChange_none hb fun r hr =>
      (isBanked_eq_false_iff q r).2 (hn r ((mem_regsUsed _ r).1 hr)))
  · rintro ⟨r, hr, hc⟩
    exact runInstr_refused (hazardOn_userBankLdm hb ((mem_regsUsed _ r).2 hr) ((isBanked_iff _ r).2 (by rwa [hfiq])))
  · exact runInstr_exec (hazardOn_userBankLdm_none hb fun r hr =>
      (isBanked_eq_false_iff _ r).2 (by rw [← Bool.not_eq_true, hfiq]; exact hn r ((mem_regsUsed _ r).1 hr)))
  · exact runInstr_exec (hazardOn_clear _ s hb)

/-! ### Words that are no instruction -/

/-- The tags of R36 play no part in the hazard check. -/
theorem hazardOn_tagExecuted (regs : List RegNo) (s : State) : hazardOn regs (tagExecuted s) = hazardOn regs s := by
  unfold tagExecuted; split <;> rfl

theorem runWord_rejected {s : State} {w : Word} {r : Reject} (hd : decode w = .error r) (hs : sharedCode w s = false) :
    runWord w s = runRejected r w (tagExecuted s) := by
  simp [runWord, hd, hs]

/-- Condition 1111 is the first thing the decoder rejects (R92). -/
theorem decode_condNv {w : Word} (h : condOf w = none) : decode w = .error .condNv := by simp [decode, h]

theorem runRejected_condNv {w : Word} (r : Reject) (s : State) (h : condOf w = none) :
    runRejected r w s = .refused (rejectRefusal r) := by
  simp [runRejected, h]

theorem runRejected_passed {w : Word} {c : Cond} {s : State} (r : Reject) (h : condOf w = some c)
    (hp : condPassed c s.cpsr = true) : runRejected r w s = .refused (rejectRefusal r) := by
  simp [runRejected, h, hp]

theorem runRejected_hazard {w : Word} {c : Cond} {s : State} {q : Refusal} (r : Reject) (h : condOf w = some c)
    (hp : condPassed c s.cpsr = false) (hq : hazardOn (rejectedRegs w) s = some q) : runRejected r w s = .refused q := by
  simp [runRejected, h, hp, hq]

theorem runRejected_skipped {w : Word} {c : Cond} {s : State} (r : Reject) (h : condOf w = some c)
    (hp : condPassed c s.cpsr = false) (hq : hazardOn (rejectedRegs w) s = none) :
    runRejected r w s = advance s.cpsr.m (clearHazard s) := by
  simp [runRejected, h, hp, hq]

/-- Where sequential execution is allowed, the skip goes to PC + 4 with BankHazard cleared; the rest is the tagged state. -/
theorem advance_clearHazard_tagExecuted {s : State} (hs : Sequential s) :
    advance s.cpsr.m (clearHazard (tagExecuted s)) =
      .next { clearHazard (tagExecuted s) with pc := s.pc + 4#32 } :=
  advance_sequential s (clearHazard (tagExecuted s)) hs (by simp) (by simp)

/-- Settles O7: by the condition of the word, and for a failing one by the hazard it meets. -/
theorem rejectedWordRefusedOrSkipped : Obligations.RejectedWordRefusedOrSkipped := by
  unfold Obligations.RejectedWordRefusedOrSkipped
  intro s w r hd hs
  have htag : (tagExecuted s).cpsr = s.cpsr := tagExecuted_cpsr s
  rw [runWord_rejected hd hs]
  refine ⟨fun hnv => ?_, fun c hc hp => runRejected_passed r hc (by rwa [htag]), fun c hc hp => ?_⟩
  · have hc : condOf w = none := (cond_ofBits_none _).2 hnv
    obtain rfl : .condNv = r := Except.error.inj ((decode_condNv hc).symm.trans hd)
    exact runRejected_condNv .condNv _ hc
  have hp' : condPassed c (tagExecuted s).cpsr = false := by rwa [htag]
  refine ⟨fun hseq hfree => ?_, fun fiq hb => ?_, fun hb => ?_⟩
  · have hq : hazardOn (rejectedRegs w) s = none :=
      hfree.elim (hazardOn_clear _ s) hazardOn_none_of_not_counts
    rw [runRejected_skipped r hc hp' (by rwa [hazardOn_tagExecuted]), htag, advance_clearHazard_tagExecuted hseq]
    exact ⟨_, rfl, rfl, htag, tagExecuted_regs s, tagExecuted_mem s, rfl⟩
  · rintro ⟨q, hq, hcount⟩
    exact runRejected_hazard r hc hp' ((hazardOn_tagExecuted _ s).trans
      (hazardOn_modeChange hb hq ((countsUnderHazard_modeChange hb q).1 hcount)))
  · rintro ⟨q, hq, hcount⟩
    exact runRejected_hazard r hc hp' ((hazardOn_tagExecuted _ s).trans
      (hazardOn_userBankLdm hb hq ((countsUnderHazard_userBankLdm hb q).1 hcount)))

end Sys2Proof.Machine

/-! PROOF. The word that decodes to an instruction is its encoding (spec/30_encoding.md R90 to R111), class by class. -/

namespace Sys2Proof

/-! ### Words and their fields -/

/-- Adjacent fields of a word, joined. -/
theorem fieldOf_append {w : Word} {lo hi m n : Nat} (h : hi = lo + n) :
    fieldOf w hi m ++ fieldOf w lo n = fieldOf w lo (m + n) :=
  BitVec.extractLsb'_append_extractLsb'_eq_extractLsb' h

/-- One bit as a field. -/
theorem ofBool_getLsbD (w : Word) (i : Nat) : BitVec.ofBool (w.getLsbD i) = fieldOf w i 1 := by
  ext j hj; obtain rfl : j = 0 := by omega
  simp

theorem condOf_bits {w : Word} {c : Cond} (h : condOf w = some c) : c.bits = fieldOf w 28 4 := cond_bits_ofBits _ c h

theorem opcode_dp_bits {b : BitVec 4} {op : DpOp} (h : Opcode.ofBits b = .dp op) : op.bits = b := by
  revert b; cases op <;> decide

theorem opcode_cmp_bits {b : BitVec 4} {op : CmpOp} (h : Opcode.ofBits b = .cmp op) :
    op.bits = b ∧ b.extractLsb' 2 2 = 0b10#2 := by
  revert b; cases op <;> decide

/-! ### The classes of R93 -/

/-- A compare opcode has S = 1 (R95): with S = 0 its word is a PSR transfer or reserved. -/
def compareSetsFlags (w : Word) : Prop := fieldOf w 23 2 = 0b10#2 → w.getLsbD 20 = true

/-- The fixed fields of the words of a class that has instructions. -/
def classFields (w : Word) : DecodeClass → Prop
  | .psrReg => fieldOf w 25 3 = 0b000#3 ∧ fieldOf w 23 2 = 0b10#2 ∧ w.getLsbD 20 = false
  | .dpImmShift => fieldOf w 25 3 = 0b000#3 ∧ w.getLsbD 4 = false ∧ compareSetsFlags w
  | .dpRegShift => fieldOf w 25 3 = 0b000#3 ∧ w.getLsbD 7 = false ∧ w.getLsbD 4 = true ∧ compareSetsFlags w
  | .psrImm => fieldOf w 25 3 = 0b001#3 ∧ fieldOf w 23 2 = 0b10#2 ∧ fieldOf w 20 2 = 0b10#2
  | .dpImm => fieldOf w 25 3 = 0b001#3 ∧ compareSetsFlags w
  | .undefinedSpace => fieldOf w 25 3 = 0b011#3 ∧ w.getLsbD 4 = true
  | .block => fieldOf w 25 3 = 0b100#3
  | .branch => fieldOf w 25 3 = 0b101#3
  | .swi => fieldOf w 25 3 = 0b111#3 ∧ w.getLsbD 24 = true
  | _ => True

theorem getLsbD_20_of_fieldOf_20_2 {w : Word} (h0 : fieldOf w 20 2 ≠ 0b00#2) (h2 : fieldOf w 20 2 ≠ 0b10#2) :
    w.getLsbD 20 = true := by
  have e : (fieldOf w 20 2).getLsbD 0 = w.getLsbD 20 := by simp
  rw [← e]
  generalize fieldOf w 20 2 = x at h0 h2
  revert x; decide

/-- A word has the fixed fields of its class. -/
theorem classify_fields (w : Word) : classFields w (classify w) := by
  unfold classify
  split <;> rename_i hc
  · have hc := BitVec.eq_of_toNat_eq (y := 0b000#3) hc
    split
    · repeat' split
      all_goals trivial
    · next h74 =>
      split
      · next hp => exact ⟨hc, by simpa using hp⟩
      · next hp =>
        have hs : compareSetsFlags w := by simpa [compareSetsFlags] using hp
        split
        · next h4 => exact ⟨hc, by simpa [h4] using h74, h4, hs⟩
        · next h4 => exact ⟨hc, by simpa using h4, hs⟩
  · have hc := BitVec.eq_of_toNat_eq (y := 0b001#3) hc
    split
    · next hp => exact ⟨hc, by simpa using hp⟩
    · next hp2 =>
      split
      · trivial
      · next hp0 =>
        refine ⟨hc, fun hop => getLsbD_20_of_fieldOf_20_2 (fun e => hp0 ?_) fun e => hp2 ?_⟩ <;>
          simp only [hop, e, BEq.rfl, Bool.and_true]
  · trivial
  · split
    · exact ⟨BitVec.eq_of_toNat_eq (y := 0b011#3) hc, ‹_›⟩
    · trivial
  · exact BitVec.eq_of_toNat_eq (y := 0b100#3) hc
  · exact BitVec.eq_of_toNat_eq (y := 0b101#3) hc
  · trivial
  · split
    · refine ⟨?_, ‹_›⟩
      generalize fieldOf w 25 3 = x at *
      revert x; decide
    · trivial

/-! ### Decoding and encoding again -/

theorem fieldOf_fieldOf {w : Word} {lo n k m : Nat} (h : k + m ≤ n) :
    (fieldOf w lo n).extractLsb' k m = fieldOf w (lo + k) m := by
  ext i hi
  have : k + i < n := by omega
  simp [this, Nat.add_assoc]

theorem operand2_bits_immOpOf (w : Word) : (Operand2.imm (immOpOf w)).bits = fieldOf w 0 12 := by
  simp only [Operand2.bits, immOpOf]
  exact fieldOf_append rfl

theorem operand2_bits_immShiftOpOf {w : Word} (h4 : w.getLsbD 4 = false) :
    (Operand2.immShift (immShiftOpOf w)).bits = fieldOf w 0 12 := by
  have h4' : fieldOf w 4 1 = 0b0#1 := by rw [← ofBool_getLsbD, h4]; rfl
  simp only [Operand2.bits, immShiftOpOf, shiftType_bits_ofBits, regBits_regOf, ← h4']
  simp only [fieldOf_append]

theorem operand2_bits_regShiftOpOf {w : Word} (h7 : w.getLsbD 7 = false) (h4 : w.getLsbD 4 = true) :
    (Operand2.regShift (regShiftOpOf w)).bits = fieldOf w 0 12 := by
  have h7' : fieldOf w 7 1 = 0b0#1 := by rw [← ofBool_getLsbD, h7]; rfl
  have h4' : fieldOf w 4 1 = 0b1#1 := by rw [← ofBool_getLsbD, h4]; rfl
  simp only [Operand2.bits, regShiftOpOf, shiftType_bits_ofBits, regBits_regOf, ← h7', ← h4']
  simp only [fieldOf_append]

/-- The data-processing word is its fields put together (R94). -/
theorem encodeDp_fields {w : Word} {c : Cond} {o : Operand2} (hc : condOf w = some c)
    (hcl : fieldOf w 25 3 = if o.isImm then 0b001#3 else 0b000#3) (ho : o.bits = fieldOf w 0 12) :
    encodeDp c (fieldOf w 21 4) (w.getLsbD 20) (regOf (fieldOf w 16 4)) (regOf (fieldOf w 12 4)) o = w := by
  have h26 : fieldOf w 26 2 = 0b00#2 := by
    rw [← fieldOf_fieldOf (lo := 25) (n := 3) (k := 1) (by decide), hcl]; cases o.isImm <;> rfl
  have h25 : fieldOf w 25 1 = BitVec.ofBool o.isImm := by
    rw [← fieldOf_fieldOf (lo := 25) (n := 3) (k := 0) (by decide), hcl]; cases o.isImm <;> rfl
  simp only [encodeDp, condOf_bits hc, regBits_regOf, ofBool_getLsbD, ho, ← h26, ← h25, fieldOf_append]
  exact BitVec.extractLsb'_eq_self

/-- The data-processing classes: MOV and MVN have Rn = 0000, and a compare has S = 1 (R95, R100). -/
theorem encodeForm_of_decodeDp {w : Word} {c : Cond} {o : Operand2} {f : Form} (hc : condOf w = some c)
    (hcl : fieldOf w 25 3 = if o.isImm then 0b001#3 else 0b000#3) (ho : o.bits = fieldOf w 0 12) (hs : compareSetsFlags w)
    (h : decodeDp w c o = .ok f) : encodeForm f = w ∧ f.encodable = true := by
  have henc := encodeDp_fields hc hcl ho
  simp only [decodeDp] at h
  split at h
  · next op hop =>
    rw [← opcode_dp_bits hop] at henc
    split at h
    · cases h
    · next hrn =>
      cases h
      have hmov : (!op.hasNoRn || regOf (fieldOf w 16 4) == 0) = true := by simpa [imp_iff_not_or] using hrn
      exact ⟨henc, hmov⟩
  · next op hop =>
    obtain ⟨hbits, hcmp⟩ := opcode_cmp_bits hop
    have hS : w.getLsbD 20 = true := hs (by rwa [fieldOf_fieldOf (by decide)] at hcmp)
    rw [← hbits, hS] at henc
    split at h
    · next hrd => cases h; refine ⟨?_, rfl⟩; rwa [eq_of_beq hrd] at henc
    · split at h
      · next hrd => cases h; refine ⟨?_, rfl⟩; rwa [eq_of_beq hrd] at henc
      · cases h

/-- MRS and the register form of MSR (R101). -/
theorem encodeForm_of_decodePsrReg {w : Word} {c : Cond} {f : Form} (hc : condOf w = some c)
    (hcl : classFields w .psrReg) (h : decodePsrReg w c = .ok f) : encodeForm f = w ∧ f.encodable = true := by
  obtain ⟨h25, h23, h20⟩ := hcl
  have h23' : fieldOf w 23 5 = 0b00010#5 := by rw [← fieldOf_append (hi := 25) (m := 3) (n := 2) rfl, h25, h23]; rfl
  have hb (b : Bool) (h21 : w.getLsbD 21 = b) : fieldOf w 20 2 = BitVec.ofBool b ++ 0b0#1 := by
    rw [← fieldOf_append (hi := 21) (m := 1) (n := 1) rfl, ← ofBool_getLsbD, ← ofBool_getLsbD, h21, h20]; rfl
  unfold decodePsrReg at h
  split at h
  · next h21 =>
    have h20' : fieldOf w 20 2 = 0b00#2 := hb false (by simpa using h21)
    split at h
    · next hf =>
      obtain ⟨h16, h0⟩ := by simpa only [Bool.and_eq_true, beq_iff_eq] using hf
      cases h
      refine ⟨?_, rfl⟩
      simp only [encodeForm, condOf_bits hc, regBits_regOf, ofBool_getLsbD, ← h23', ← h20', ← h16, ← h0, fieldOf_append]
      exact BitVec.extractLsb'_eq_self
    · cases h
  · next h21 =>
    have h20' : fieldOf w 20 2 = 0b10#2 := hb true (by simpa using h21)
    split at h
    · next hf =>
      obtain ⟨h12, h4⟩ := by simpa only [Bool.and_eq_true, beq_iff_eq] using hf
      cases h
      refine ⟨?_, rfl⟩
      simp only [encodeForm, condOf_bits hc, regBits_regOf, ofBool_getLsbD, ← h23', ← h20', ← h12, ← h4, fieldOf_append]
      exact BitVec.extractLsb'_eq_self
    · cases h

/-- The immediate form of MSR (R101). -/
theorem encodeForm_of_decodePsrImm {w : Word} {c : Cond} {f : Form} (hc : condOf w = some c)
    (hcl : classFields w .psrImm) (h : decodePsrImm w c = .ok f) : encodeForm f = w ∧ f.encodable = true := by
  obtain ⟨h25, h23, h20⟩ := hcl
  have h23' : fieldOf w 23 5 = 0b00110#5 := by rw [← fieldOf_append (hi := 25) (m := 3) (n := 2) rfl, h25, h23]; rfl
  unfold decodePsrImm at h
  split at h
  · next hf =>
    cases h
    refine ⟨?_, rfl⟩
    simp only [encodeForm, immOpOf, condOf_bits hc, ofBool_getLsbD, ← h23', ← h20, ← eq_of_beq hf, fieldOf_append]
    exact BitVec.extractLsb'_eq_self
  · cases h

theorem encodeForm_block {w : Word} {c : Cond} (hc : condOf w = some c) (hcl : classFields w .block) :
    encodeForm (.block (w.getLsbD 20) c (blockOpOf w)) = w := by
  have h25 : fieldOf w 25 3 = 0b100#3 := hcl
  simp only [encodeForm, blockOpOf, condOf_bits hc, regBits_regOf, ofBool_getLsbD, ← h25, fieldOf_append]
  exact BitVec.extractLsb'_eq_self

theorem encodeForm_branch {w : Word} {c : Cond} (hc : condOf w = some c) (hcl : classFields w .branch) :
    encodeForm (.branch (w.getLsbD 24) c (fieldOf w 0 24)) = w := by
  have h25 : fieldOf w 25 3 = 0b101#3 := hcl
  simp only [encodeForm, condOf_bits hc, ofBool_getLsbD, ← h25, fieldOf_append]
  exact BitVec.extractLsb'_eq_self

theorem encodeForm_undefined {w : Word} {c : Cond} (hc : condOf w = some c) (hcl : classFields w .undefinedSpace) :
    encodeForm (.undefined c (fieldOf w 5 20) (fieldOf w 0 4)) = w := by
  obtain ⟨h25, h4⟩ := hcl
  have h4' : fieldOf w 4 1 = 0b1#1 := by rw [← ofBool_getLsbD, h4]; rfl
  simp only [encodeForm, condOf_bits hc, ← h25, ← h4', fieldOf_append]
  exact BitVec.extractLsb'_eq_self

theorem encodeForm_decodeSwi {w : Word} {c : Cond} (hc : condOf w = some c) (hcl : classFields w .swi) :
    encodeForm (decodeSwi w c) = w ∧ (decodeSwi w c).encodable = true := by
  obtain ⟨h25, h24⟩ := hcl
  have h24' : fieldOf w 24 4 = 0b1111#4 := by
    rw [← fieldOf_append (hi := 25) (m := 3) (n := 1) rfl, ← ofBool_getLsbD, h25, h24]; rfl
  have henc : c.bits ++ 0b1111#4 ++ fieldOf w 0 24 = w := by
    simp only [condOf_bits hc, ← h24', fieldOf_append]
    exact BitVec.extractLsb'_eq_self
  simp only [decodeSwi]
  split
  · next hn => exact ⟨by rwa [eq_of_beq hn] at henc, rfl⟩
  · split
    · next hn => exact ⟨by rwa [eq_of_beq hn] at henc, rfl⟩
    · next h0 h1 => exact ⟨henc, by simp_all [Form.encodable, Form.swiOk, Form.movOk]⟩

/-- A word whose body decodes to a form is the encoding of that form, and the form is encodable. -/
theorem encodeForm_of_decodeBody {w : Word} {c : Cond} {f : Form} (hc : condOf w = some c)
    (h : decodeBody w c = .ok f) : encodeForm f = w ∧ f.encodable = true := by
  have hcl := classify_fields w
  unfold decodeBody at h
  cases hk : classify w <;> rw [hk] at h hcl
  case psrReg => exact encodeForm_of_decodePsrReg hc hcl h
  case psrImm => exact encodeForm_of_decodePsrImm hc hcl h
  case dpImmShift =>
    obtain ⟨h25, h4, hs⟩ := hcl
    exact encodeForm_of_decodeDp (o := .immShift (immShiftOpOf w)) hc h25 (operand2_bits_immShiftOpOf h4) hs h
  case dpRegShift =>
    obtain ⟨h25, h7, h4, hs⟩ := hcl
    exact encodeForm_of_decodeDp (o := .regShift (regShiftOpOf w)) hc h25 (operand2_bits_regShiftOpOf h7 h4) hs h
  case dpImm =>
    obtain ⟨h25, hs⟩ := hcl
    exact encodeForm_of_decodeDp (o := .imm (immOpOf w)) hc h25 (operand2_bits_immOpOf w) hs h
  case undefinedSpace => cases h; exact ⟨encodeForm_undefined hc hcl, rfl⟩
  case block => cases h; exact ⟨encodeForm_block hc hcl, rfl⟩
  case branch => cases h; exact ⟨encodeForm_branch hc hcl, rfl⟩
  case swi => cases h; exact encodeForm_decodeSwi hc hcl
  all_goals cases h

/-- The word that decodes to an instruction is its encoding. -/
theorem encode_of_decode {w : Word} {i : Instr} (h : decode w = .ok i) : encode i = w ∧ i.encodable = true := by
  unfold decode at h
  split at h
  · cases h
  · next c hc =>
    cases hb : decodeBody w c with
    | error r => rw [hb] at h; cases h
    | ok f =>
      rw [hb] at h
      cases h
      obtain ⟨henc, hok⟩ := encodeForm_of_decodeBody hc hb
      have hform : f.instr.form = f := form_instr f hok
      exact ⟨by rw [encode, hform, henc], by rw [Instr.encodable, hform, hok]⟩

end Sys2Proof

/-! PROOF. One step that fetches an instruction (spec/00_scope.md R9, spec/20_memory.md R72). Settles O5. -/

namespace Sys2Proof.Machine

/-- The fetch of a word without stale values, not aborted (R72). -/
theorem fetch_present {s : State} (ha : aborts s .fetch (wordAddr s.pc) = false)
    (hs : staleOf s.stale (translate s (wordAddr s.pc)) = []) :
    fetch s = some (readWord s (translate s (wordAddr s.pc)), s) := by
  simp [fetch, ha, hs]

/-- The step of a machine that is not at `HALT_ADDR`, takes no exception, and fetches a word (R9). -/
theorem step_fetched {s t : State} {w : Word} (hh : s.platform.haltAddr ≠ some s.pc) (hp : pendingExc s = none)
    (hf : fetch (popInput s) = some (w, t)) : step s = runWord w t := by
  simp [step, atHalt, hh, stepRunning, hp, hf]

/-- A fetched word that decodes to an instruction and violates no hazard (R9 steps 2 to 4). -/
theorem runWord_exec {s : State} {w : Word} {i : Instr} (hd : decode w = .ok i) (hs : sharedCode w s = false)
    (hb : bankHazardRefusal i s = none) : runWord w s = exec i (clearHazard (tagExecuted s)) := by
  have hb' : hazardOn (regsUsed i.form) (tagExecuted s) = none := (hazardOn_tagExecuted _ s).trans hb
  simp [runWord, hd, hs, runInstr_exec hb', clearHazard]

/-- The state in which a step runs its instruction, field by field. -/
theorem clearHazard_tagExecuted_popInput (s : State) :
    clearHazard (tagExecuted (popInput s)) =
      { s with
        inputs := s.inputs.tail
        steps := s.steps + 1
        exec26 := if is26 s.cpsr.m then addExecuted s.exec26 (wordAddr s.pc) else s.exec26
        exec32 := if is26 s.cpsr.m then s.exec32 else addExecuted s.exec32 (wordAddr s.pc)
        bankHazard := .clear } := by
  cases h : is26 s.cpsr.m <;> simp [tagExecuted, h] <;> rfl

/-- Settles O5: the word at the program counter is the encoding of its instruction, so the hazard check of the
statement is that of the fetched word. -/
theorem stepRunsDecodedInstruction : Obligations.StepRunsDecodedInstruction := by
  unfold Obligations.StepRunsDecodedInstruction
  intro s i hbytes hstale hhalt hpend habort hshared hbank
  have hd : decode (readWord s (translate s (wordAddr s.pc))) = .ok i := hbytes
  rw [(encode_of_decode hd).1] at hshared
  have hf : fetch (popInput s) = some (readWord s (translate s (wordAddr s.pc)), popInput s) :=
    fetch_present (s := popInput s) habort hstale
  rw [step_fetched hhalt hpend hf, runWord_exec (s := popInput s) hd hshared hbank, clearHazard_tagExecuted_popInput]

end Sys2Proof.Machine

/-! PROOF. Everything an instruction can do to the mode, the registers and the memory when it answers a next state, in one
lemma over the formats; then the frames of the register instructions (spec/10_state.md R30, spec/41_data_processing_r15.md
R150, R151) and the ways out of a 26-bit mode (R33, R212). Settles O56, O52 and O53. -/

namespace Sys2Proof.Machine

open Sys2Proof.Stated

/-! ### What an instruction can do -/

/-- `t` has the memory, IHist, Seen26 and platform of `s`. -/
structure SameMemory (s t : State) : Prop where
  mem : t.mem = s.mem
  stale : t.stale = s.stale
  exec26 : t.exec26 = s.exec26
  platform : t.platform = s.platform

/-- The states whose memory an instruction can leave: its own, flushed (R74), or after the stores of an STM (R183, R190). -/
inductive MemorySource (s : State) : State → Prop
  | kept : MemorySource s s
  | flushed : MemorySource s (imbFlush s)
  | stored (l : List Word) (a : Word) : MemorySource s (storeWords s l a).1

/-- Where the mode, I and F of the next state come from: they are kept, or written by R33, from an SPSR (R154, R186), by MSR
(R211) or by an exception entry (R252). -/
inductive CpsrEffect (i : Instr) (s t : State) : Prop
  | kept (h : t.cpsr.m = s.cpsr.m ∧ t.cpsr.i = s.cpsr.i ∧ t.cpsr.f = s.cpsr.f)
  | write26 (h26 : is26 s.cpsr.m = true) (v : Word) (h : t.cpsr = s.cpsr.write26 v)
  | fromSpsr (h32 : is26 s.cpsr.m = false) (hu : isUser s.cpsr.m = false) (hm : isMode t.cpsr.m = true)
  | msr (c : Cond) (mask : BitVec 4) (v : Word) (hi : isMsr i c false mask v s) (hmask : mask.getLsbD 0 = true)
      (hu : isUser s.cpsr.m = false) (hm : isMode t.cpsr.m = true)
  | exception (e : Exc) (he : e = .swi ∨ e = .undefined ∨ e = .dataAbort) (hpc : t.pc = e.vector)
      (hc : t.cpsr = { s.cpsr with m := e.mode, i := true, f := s.cpsr.f || e.setsF })
      (hs : getSpsr t (bankOf e.mode) = some s.cpsr)

theorem CpsrEffect.of_cpsr_eq {i : Instr} {s t : State} (h : t.cpsr = s.cpsr) : CpsrEffect i s t :=
  .kept (by rw [h]; exact ⟨rfl, rfl, rfl⟩)

/-- The entry of an exception of the instruction, from a state with the instruction's CPSR. -/
theorem CpsrEffect.of_enter (i : Instr) {s u : State} {e : Exc} (l : Word) (he : e = .swi ∨ e = .undefined ∨ e = .dataAbort)
    (hu : u.cpsr = s.cpsr) : CpsrEffect i s (enter e l u) := by
  obtain ⟨hpc, hc, hs⟩ := enter_fields e l u
  rw [hu] at hc hs
  exact .exception e he hpc hc hs

/-- The write of R15 with the S bit, after a change of registers alone. -/
theorem CpsrEffect.of_writeR15S (i : Instr) {s t u : State} {v : Word} (hu : u.cpsr = s.cpsr)
    (h : writeR15S v u = .next t) : CpsrEffect i s t := by
  obtain ⟨-, -, ⟨h26, hc⟩ | ⟨h32, huser, -, hm⟩⟩ := writeR15S_shape v u t h
  · rw [hu] at h26 hc; exact .write26 h26 v hc
  · rw [hu] at h32 huser; exact .fromSpsr h32 huser hm

/-- What a register instruction changes besides the PC: status, its destination register, or the SPSR that an MSR names. -/
inductive RegisterEffect (i : Instr) (s t : State) : Prop
  | status (e : t = { s with cpsr := t.cpsr, bankHazard := t.bankHazard, pc := t.pc })
  | register (rd : RegNo) (v : Word) (hd : destination i.form = some rd)
      (e : t = { setX s rd v with cpsr := t.cpsr, draws := t.draws, pc := t.pc })
  | spsr (hw : writesSpsr i.form = true) (p : Psr) (e : t = { setSpsr s (curBank s) p with pc := t.pc })

theorem RegisterEffect.of_pc {i : Instr} {s t : State} (e : t = { s with pc := t.pc }) : RegisterEffect i s t :=
  .status (by rw [e])

theorem RegisterEffect.sameMemory {i : Instr} {s t : State} (h : RegisterEffect i s t) : SameMemory s t := by
  rcases h with e | ⟨rd, v, -, e⟩ | ⟨-, p, e⟩ <;> rw [e] <;> constructor <;> simp

/-- Data processing. -/
theorem dp_effect {i : Instr} {op : DpOp} {c : Cond} {sb : Bool} {rd rn : RegNo} {o : Operand2} {s t : State}
    (hf : i.form = .dp op c sb rd rn o) (h : exec i s = .next t) :
    PcOk t ∧ CpsrEffect i s t ∧ RegisterEffect i s t := by
  rw [exec_dp i op c sb rd rn o hf] at h
  obtain ⟨ok, e | ⟨-, r, hr, e⟩ | ⟨-, -, v, h15⟩⟩ := dataProc_shape op c sb rd rn o s t h
  · exact ⟨ok, .of_cpsr_eq (by rw [e]), .of_pc e⟩
  · refine ⟨ok, .kept ?_, .register rd r.value (by rw [hf]; rfl) (by rw [e])⟩
    obtain ⟨hi, hff, hm, -⟩ := dpCompute_keeps op (readRn s rn) (operand2 s o).value s.cpsr (operand2 s o).carry
    rw [← hr] at hi hff hm
    rw [e]
    cases sb
    · exact ⟨rfl, rfl, rfl⟩
    · exact ⟨hm, hi, hff⟩
  · exact ⟨ok, .of_writeR15S i rfl h15, .status (by rw [(writeR15S_shape v s t h15).1])⟩

/-- Compares, in both forms. -/
theorem cmp_effect {i : Instr} {op : CmpOp} {p : Bool} {c : Cond} {rn : RegNo} {o : Operand2} {s t : State}
    (hf : i.form = .cmp op p c rn o) (h : exec i s = .next t) :
    PcOk t ∧ CpsrEffect i s t ∧ RegisterEffect i s t := by
  rw [exec_cmp i op p c rn o hf] at h
  cases p with
  | false =>
    obtain ⟨ok, e | e⟩ := compare_shape op c rn o s t h
    · exact ⟨ok, .of_cpsr_eq (by rw [e]), .of_pc e⟩
    · obtain ⟨hi, hff, hm, -⟩ := cmpCompute_keeps op (readRn s rn) (operand2 s o).value s.cpsr (operand2 s o).carry
      exact ⟨ok, .kept (by rw [e]; exact ⟨hm, hi, hff⟩), .status (by rw [e])⟩
  | true =>
    obtain ⟨ok, e | ⟨h26, v, e⟩⟩ := compareP_shape op c rn o s t h
    · exact ⟨ok, .of_cpsr_eq (by rw [e]), .of_pc e⟩
    · exact ⟨ok, .write26 h26 v (by rw [e]), .status (by rw [e])⟩

/-- The write of an MSR whose value is `v`. -/
theorem msr_effect {i : Instr} {c : Cond} {spsr : Bool} {mask : BitVec 4} {v : Word} {s t : State}
    (hi : isMsr i c spsr mask v s) (hw : writesSpsr i.form = spsr) (h : msr spsr mask v s = .next t) :
    PcOk t ∧ CpsrEffect i s t ∧ RegisterEffect i s t := by
  obtain ⟨ok, ⟨rfl, e, hk | ⟨hu, hmask, hm⟩⟩ | ⟨rfl, p, e⟩⟩ := msr_shape spsr mask v s t h
  · exact ⟨ok, .kept hk, .status e⟩
  · exact ⟨ok, .msr c mask v hi hmask hu hm, .status e⟩
  · exact ⟨ok, .of_cpsr_eq (by rw [e]; simp), .spsr hw p e⟩

/-- The register instructions: data processing, compares, PSR transfers and branches. -/
theorem registerForm_effect {i : Instr} {s t : State} (hr : isRegisterForm i.form = true) (h : exec i s = .next t) :
    PcOk t ∧ CpsrEffect i s t ∧ RegisterEffect i s t := by
  cases hf : i.form with
  | dp op c sb rd rn o => exact dp_effect hf h
  | cmp op p c rn o => exact cmp_effect hf h
  | mrs c spsr rd =>
    obtain rfl := eq_mrs_of_form i c spsr rd hf
    obtain ⟨ok, e | ⟨v, e⟩⟩ := execMrs_shape c spsr rd s t h
    · exact ⟨ok, .of_cpsr_eq (by rw [e]), .of_pc e⟩
    · exact ⟨ok, .of_cpsr_eq (by rw [e]; simp), .register rd v rfl (by rw [e])⟩
  | msrReg c spsr mask rm =>
    obtain rfl := eq_msrReg_of_form i c spsr mask rm hf
    obtain ⟨e, ok⟩ | ⟨hrm, hw⟩ := execMsrReg_shape c spsr mask rm s t h
    · exact ⟨ok, .of_cpsr_eq (by rw [e]), .of_pc e⟩
    · exact msr_effect (.inl ⟨rm, rfl, hrm, rfl⟩) rfl hw
  | msrImm c spsr mask o =>
    obtain rfl := eq_msrImm_of_form i c spsr mask o hf
    obtain ⟨e, ok⟩ | hw := execMsrImm_shape c spsr mask o s t h
    · exact ⟨ok, .of_cpsr_eq (by rw [e]), .of_pc e⟩
    · exact msr_effect (.inr ⟨o, rfl, rfl⟩) rfl hw
  | branch l c off =>
    obtain ⟨ok, e | ⟨rfl, v, e⟩⟩ := branch_shape i l c off s t hf h
    · exact ⟨ok, .of_cpsr_eq (by rw [e]), .of_pc e⟩
    · exact ⟨ok, .of_cpsr_eq (by rw [e]; simp), .register 14 v (by rw [hf]; rfl) (by rw [e])⟩
  | _ => simp [hf, isRegisterForm] at hr

/-- The constructors that are no register instruction. -/
theorem isRegisterForm_or_block_or_trap (i : Instr) :
    isRegisterForm i.form = true ∨ (∃ c o, i = .ldm c o) ∨ (∃ c o, i = .stm c o) ∨
      (∃ c n, i = .swi c n) ∨ (∃ c, i = .imb c) ∨ (∃ c, i = .imbRange c) ∨ ∃ c a b, i = .undefined c a b := by
  cases i <;> simp [Instr.form, isRegisterForm]

/-- LDM leaves memory alone; its CPSR comes with R15 or from the Data Abort. -/
theorem ldm_effect {c : Cond} {o : BlockOp} {s t : State} (h : exec (.ldm c o) s = .next t) :
    PcOk t ∧ CpsrEffect (.ldm c o) s t ∧ SameMemory s t := by
  obtain ⟨ok, e | ⟨-, -, v, u, hu, h15⟩ | ⟨u, hu, rfl⟩⟩ := execLdm_shape c o s t h
  · exact ⟨ok, .of_cpsr_eq (by rw [e]), by rw [e]; constructor <;> rfl⟩
  · refine ⟨ok, .of_writeR15S _ (by rw [hu]) h15, ?_⟩
    rw [(writeR15S_shape v u t h15).1, hu]; constructor <;> rfl
  · refine ⟨ok, .of_enter _ _ (.inr (.inr rfl)) (by rw [hu]), ?_⟩
    rw [hu]; constructor <;> simp

/-- STM leaves the memory of its stores; its CPSR is kept or comes from the Data Abort. -/
theorem stm_effect {c : Cond} {o : BlockOp} {s t : State} (h : exec (.stm c o) s = .next t) :
    PcOk t ∧ CpsrEffect (.stm c o) s t ∧ ∃ u, MemorySource s u ∧ SameMemory u t := by
  obtain ⟨ok, e | ⟨u, hu, hs⟩⟩ := execStm_shape c o s t h
  · exact ⟨ok, .of_cpsr_eq (by rw [e]), s, .kept, by rw [e]; constructor <;> rfl⟩
  · have hc : u.cpsr = s.cpsr := by rw [hu, storeWords_eq]
    have hsrc : MemorySource s u := hu ▸ .stored _ _
    rcases hs with e | rfl
    · exact ⟨ok, .of_cpsr_eq (by rw [e]; simpa using hc), u, hsrc, by rw [e]; constructor <;> simp⟩
    · exact ⟨ok, .of_enter _ _ (.inr (.inr rfl)) (by simpa using hc), u, hsrc, by constructor <;> simp⟩

/-- Everything an instruction that answers a next state can do to the PC, the CPSR and the memory. -/
theorem exec_effect {i : Instr} {s t : State} (h : exec i s = .next t) :
    PcOk t ∧ CpsrEffect i s t ∧ ∃ u, MemorySource s u ∧ SameMemory u t := by
  rcases isRegisterForm_or_block_or_trap i with hr | ⟨c, o, rfl⟩ | ⟨c, o, rfl⟩ | htrap
  · obtain ⟨ok, hc, hreg⟩ := registerForm_effect hr h
    exact ⟨ok, hc, s, .kept, hreg.sameMemory⟩
  · obtain ⟨ok, hc, hmem⟩ := ldm_effect h
    exact ⟨ok, hc, s, .kept, hmem⟩
  · exact stm_effect h
  · obtain ⟨ok, e | ⟨e, l, u, he, rfl | rfl, rfl⟩⟩ := trap_shape i s t h htrap
    · exact ⟨ok, .of_cpsr_eq (by rw [e]), s, .kept, by rw [e]; constructor <;> rfl⟩
    all_goals have he' : e = .swi ∨ e = .undefined ∨ e = .dataAbort := he.imp_right .inl
    · exact ⟨ok, .of_enter i l he' rfl, u, .kept, by constructor <;> simp⟩
    · exact ⟨ok, .of_enter i l he' rfl, imbFlush s, .flushed, by constructor <;> simp⟩

/-! ### Leaving a 26-bit mode -/

/-- Settles O56: of the ways an instruction can write the mode, R33 keeps its width and an SPSR is loaded in a 32-bit mode
only, which leaves MSR and the exceptions. -/
theorem onlyMsrOrExceptionLeaves26BitModes : Obligations.OnlyMsrOrExceptionLeaves26BitModes := by
  unfold Obligations.OnlyMsrOrExceptionLeaves26BitModes
  intro i s t hmode h26 h h32
  obtain ⟨-, hc, -⟩ := exec_effect h
  cases hc with
  | kept hk => rw [hk.1, h26] at h32; cases h32
  | write26 _ v hw => rw [hw, (write26_mode s.cpsr v hmode h26).2] at h32; cases h32
  | fromSpsr h32s => rw [h26] at h32s; cases h32s
  | msr c mask v hi hmask hu => exact .inl ⟨c, mask, v, hi, hmask, hu⟩
  | exception e he hpc hc hs => exact .inr ⟨e, he, hpc, by rw [hc], hs⟩

/-! ### The frames of the register instructions -/

/-- Settles O52: from what each register instruction can change. -/
theorem registerInstructionFrame : Obligations.RegisterInstructionFrame := by
  unfold Obligations.RegisterInstructionFrame
  intro i s t hr h
  obtain ⟨-, -, hreg⟩ := registerForm_effect hr h
  refine ⟨fun a => by rw [hreg.sameMemory.mem], ?_⟩
  cases hreg with
  | status e =>
    rw [e]
    exact ⟨fun _ _ => rfl, fun b _ => by cases b <;> rfl, rfl, rfl, rfl, rfl, rfl, rfl⟩
  | register rd v hd e =>
    rw [e]
    exact ⟨fun p hp => writeReg_frame s (curBank s) rd v p (hp rd hd), fun b _ => by cases b <;> simp [getSpsr],
      by simp⟩
  | spsr hw p e =>
    rw [e]
    exact ⟨fun _ _ => by simp, fun b hb => getSpsr_setSpsr_other s (curBank s) b p (hb hw).symm, by simp⟩

/-- MSR to an SPSR leaves the CPSR (R211). -/
theorem cpsr_of_msr_spsr {mask : BitVec 4} {v : Word} {s t : State} (h : msr true mask v s = .next t) :
    t.cpsr = s.cpsr := by
  obtain ⟨-, ⟨hs, -⟩ | ⟨-, p, e⟩⟩ := msr_shape true mask v s t h
  · cases hs
  · rw [e]; simp

/-- The forms that write no status bit leave the CPSR (R30). -/
theorem cpsr_of_writesNoStatus {i : Instr} {s t : State} (h : exec i s = .next t) (hw : writesNoStatus i.form = true) :
    t.cpsr = s.cpsr := by
  cases hf : i.form with
  | dp op c sb rd rn o =>
    obtain rfl : sb = false := by simpa [hf, writesNoStatus] using hw
    rw [exec_dp i op c false rd rn o hf] at h
    obtain ⟨-, e | ⟨-, r, -, e⟩ | ⟨-, hs, -⟩⟩ := dataProc_shape op c false rd rn o s t h
    · rw [e]
    · rw [e]; rfl
    · cases hs
  | mrs c spsr rd =>
    obtain rfl := eq_mrs_of_form i c spsr rd hf
    obtain ⟨-, e | ⟨v, e⟩⟩ := execMrs_shape c spsr rd s t h <;> rw [e]
    simp
  | branch l c off =>
    obtain ⟨-, e | ⟨-, v, e⟩⟩ := branch_shape i l c off s t hf h <;> rw [e]
    simp
  | msrReg c spsr mask rm =>
    obtain rfl : spsr = true := by simpa [hf, writesNoStatus] using hw
    obtain rfl := eq_msrReg_of_form i c true mask rm hf
    obtain ⟨e, -⟩ | ⟨-, hm⟩ := execMsrReg_shape c true mask rm s t h
    · rw [e]
    · exact cpsr_of_msr_spsr hm
  | msrImm c spsr mask o =>
    obtain rfl : spsr = true := by simpa [hf, writesNoStatus] using hw
    obtain rfl := eq_msrImm_of_form i c true mask o hf
    obtain ⟨e, -⟩ | hm := execMsrImm_shape c true mask o s t h
    · rw [e]
    · exact cpsr_of_msr_spsr hm
  | _ => simp [hf, writesNoStatus] at hw

/-- I, F, M and the reserved bits are as in `p`, and V when `logical` holds: what the flag setting of R151 leaves. -/
def KeepsControl (logical : Prop) (p q : Psr) : Prop :=
  q.i = p.i ∧ q.f = p.f ∧ q.m = p.m ∧ q.reserved = p.reserved ∧ (logical → q.v = p.v)

theorem KeepsControl.of_eq {logical : Prop} {p q : Psr} (h : q = p) : KeepsControl logical p q := by
  subst h; exact ⟨rfl, rfl, rfl, rfl, fun _ => rfl⟩

theorem dpCompute_keepsControl (op : DpOp) (a b : Word) (p : Psr) (sc : Bool) :
    KeepsControl (op = .and ∨ op = .eor ∨ op = .orr ∨ op = .mov ∨ op = .bic ∨ op = .mvn) p (dpCompute op a b p sc).psr := by
  obtain ⟨hi, hf, hm, hr⟩ := dpCompute_keeps op a b p sc
  refine ⟨hi, hf, hm, hr, ?_⟩
  rintro (rfl | rfl | rfl | rfl | rfl | rfl) <;> rfl

theorem cmpCompute_keepsControl (op : CmpOp) (a b : Word) (p : Psr) (sc : Bool) :
    KeepsControl (op = .tst ∨ op = .teq) p (cmpCompute op a b p sc).psr := by
  obtain ⟨hi, hf, hm, hr⟩ := cmpCompute_keeps op a b p sc
  refine ⟨hi, hf, hm, hr, ?_⟩
  rintro (rfl | rfl) <;> rfl

/-- Settles O53: the forms without status by what they can do, data processing and compares by their flag setting. -/
theorem statusRegisterFrame : Obligations.StatusRegisterFrame := by
  unfold Obligations.StatusRegisterFrame
  intro i s t h
  refine ⟨cpsr_of_writesNoStatus h, fun op c sb rd rn o hf hrd => ?_, fun op c rn o hf => ?_⟩
  · rw [exec_dp i op c sb rd rn o hf] at h
    obtain ⟨-, e | ⟨-, r, rfl, e⟩ | ⟨h15, -⟩⟩ := dataProc_shape op c sb rd rn o s t h
    · exact KeepsControl.of_eq (by rw [e])
    · rw [e]
      cases sb
      · exact KeepsControl.of_eq rfl
      · exact dpCompute_keepsControl op _ _ _ _
    · exact absurd h15 hrd
  · rw [exec_cmp i op false c rn o hf] at h
    obtain ⟨-, e | e⟩ := compare_shape op c rn o s t h
    · exact KeepsControl.of_eq (by rw [e])
    · rw [e]; exact cmpCompute_keepsControl op _ _ _ _

end Sys2Proof.Machine

/-! PROOF. What one step can do, and the two invariants every step keeps: the legal state (spec/10_state.md R23, R24, R26,
R36, spec/20_memory.md R60) and the form of IHist (R35, log 6). Settles O57, O59, O58 and O60. -/

namespace Sys2Proof.Machine

/-! ### One step -/

/-- Everything a fetched word can do when the machine goes on: run as an instruction, or be skipped (R92). -/
theorem runWord_next {s t : State} {w : Word} (h : runWord w s = .next t) :
    (∃ i, exec i (clearHazard (tagExecuted s)) = .next t) ∨
      (PcOk t ∧ t = { clearHazard (tagExecuted s) with pc := t.pc }) := by
  unfold runWord at h
  split at h
  · cases h
  split at h
  · next i _ =>
    unfold runInstr at h
    split at h
    · cases h
    · exact .inl ⟨i, h⟩
  · exact .inr (runRejected_shape _ _ _ _ h)

/-- Everything a step can do when the machine goes on: take an asynchronous exception or a Prefetch Abort, or fetch a word
and run or skip it (R9). -/
theorem step_next {s t : State} (h : step s = .next t) :
    (∃ e, t = takeAsync e (popInput s)) ∨ t = takePrefetchAbort (popInput s) ∨
      ∃ w n, runWord w { popInput s with draws := n } = .next t := by
  unfold step stepRunning at h
  split at h
  · cases h
  split at h
  · next e _ => cases h; exact .inl ⟨e, rfl⟩
  split at h
  · cases h; exact .inr (.inl rfl)
  · next r hr => exact .inr (.inr ⟨r.1, r.2.draws, by rwa [← fetch_shape _ r.2 r.1 hr]⟩)

/-- An asynchronous exception is Reset, or an entry that keeps the rest (R259 to R261). -/
theorem takeAsync_cases (e : Exc) (s : State) : takeAsync e s = takeReset s ∨ takeAsync e s = enter e (r15pc s 4#32) s := by
  cases e
  case reset => exact .inl rfl
  all_goals exact .inr rfl

/-! ### The legal state -/

theorem exc_mode_isMode (e : Exc) : isMode e.mode = true := by cases e <;> decide

/-- A legal PC, a legal mode, and memory and Seen26 as in a legal state. -/
theorem Inv.of_sameMemory {s t : State} (hs : Inv s) (hpc : PcOk t) (hm : isMode t.cpsr.m = true) (h : SameMemory s t) :
    Inv t := by
  obtain ⟨-, -, -, hmem, hseen⟩ := hs
  exact ⟨hm, hpc.1, hpc.2, by rwa [h.mem], by rwa [h.exec26]⟩

theorem enter_inv {s : State} (e : Exc) (l : Word) (hs : Inv s) : Inv (enter e l s) :=
  hs.of_sameMemory (enter_pcOk e l s) (exc_mode_isMode e) (by constructor <;> simp)

theorem takeReset_inv {s : State} (hs : Inv s) : Inv (takeReset s) := by
  obtain ⟨-, -, -, hwf, -⟩ := hs
  obtain ⟨hpc, hm, -, -, hmem, -, hseen, -⟩ := takeReset_fields s
  exact ⟨by rw [hm]; decide, by rw [hpc]; decide, fun _ => by rw [hpc]; decide, by rwa [hmem], by rw [hseen]; rfl⟩

/-- An instruction that goes on writes one of the ten modes, or keeps the mode. -/
theorem CpsrEffect.isMode {i : Instr} {s t : State} (h : CpsrEffect i s t) (hs : isMode s.cpsr.m = true) :
    isMode t.cpsr.m = true := by
  cases h with
  | kept hk => rwa [hk.1]
  | write26 h26 v hw => rw [hw]; exact (write26_mode s.cpsr v hs h26).1
  | fromSpsr _ _ hm => exact hm
  | msr _ _ _ _ _ _ hm => exact hm
  | exception e _ _ hc => rw [hc]; exact exc_mode_isMode e

/-- Canonical memory and Seen26 inside the 26-bit space hold of every state whose memory an instruction can leave. -/
theorem MemorySource.wf {s u : State} (h : MemorySource s u) (hmem : Memory.wf s.mem = true)
    (hseen : (s.exec26.all fun e => decide (e.toNat < 2 ^ 24)) = true) :
    Memory.wf u.mem = true ∧ (u.exec26.all fun e => decide (e.toNat < 2 ^ 24)) = true := by
  cases h with
  | kept => exact ⟨hmem, hseen⟩
  | flushed => exact ⟨hmem, rfl⟩
  | stored l a => exact ⟨storeWords_wf s l a hmem, by rwa [storeWords_eq]⟩

theorem exec_inv {i : Instr} {s t : State} (hs : Inv s) (h : exec i s = .next t) : Inv t := by
  obtain ⟨hm, -, -, hmem, hseen⟩ := hs
  obtain ⟨hpc, hc, u, hu, hsame⟩ := exec_effect h
  obtain ⟨humem, huseen⟩ := hu.wf hmem hseen
  exact ⟨hc.isMode hm, hpc.1, hpc.2, by rwa [hsame.mem], by rwa [hsame.exec26]⟩

/-- An address of the 26-bit space, as a word address. -/
theorem wordAddr_lt_of_inside {p : Word} (h : outside26 p = false) : (wordAddr p).toNat < 2 ^ 24 := by
  have hp : p.extractLsb' 26 6 = 0#6 := by simpa [outside26] using h
  have hn := congrArg BitVec.toNat hp
  have hlt := p.isLt
  simp [BitVec.extractLsb'_toNat, Nat.shiftRight_eq_div_pow] at hn
  simp [wordAddr, BitVec.extractLsb'_toNat, Nat.shiftRight_eq_div_pow]
  omega

theorem mem_addExecuted {l : List WordAddr} {a e : WordAddr} (h : e ∈ addExecuted l a) : e = a ∨ e ∈ l := by
  unfold addExecuted at h
  split at h
  · exact .inr h
  · exact List.mem_cons.1 h

/-- The tag of an executed instruction lies in the 26-bit space in a 26-bit mode (R24, R36). -/
theorem tagExecuted_inv {s : State} (hs : Inv s) : Inv (tagExecuted s) := by
  obtain ⟨hm, hal, hin, hmem, hseen⟩ := hs
  refine ⟨by simpa using hm, by simpa using hal, by simpa using hin, by simpa using hmem, ?_⟩
  cases h26 : is26 s.cpsr.m with
  | false => simpa [tagExecuted, h26] using hseen
  | true =>
    simp only [List.all_eq_true, decide_eq_true_eq] at hseen ⊢
    intro e he
    obtain rfl | he := mem_addExecuted (by simpa [tagExecuted, h26] using he)
    · exact wordAddr_lt_of_inside (hin h26)
    · exact hseen e he

/-- Settles O57: an exception entry and a skipped word change the PC and the mode in a legal way, and an instruction keeps
the invariant from the tagged state. -/
theorem stepKeepsInvariant : Obligations.StepKeepsInvariant := by
  unfold Obligations.StepKeepsInvariant
  intro s t hs h
  have hpop : Inv (popInput s) := hs
  obtain ⟨e, rfl⟩ | rfl | ⟨w, n, hw⟩ := step_next h
  · obtain he | he := takeAsync_cases e (popInput s) <;> rw [he]
    · exact takeReset_inv hpop
    · exact enter_inv e _ hpop
  · exact enter_inv .prefetchAbort _ hpop
  · have htag : Inv (clearHazard (tagExecuted { popInput s with draws := n })) :=
      tagExecuted_inv (s := { popInput s with draws := n }) hpop
    obtain ⟨i, hi⟩ | ⟨hpc, e⟩ := runWord_next hw
    · exact exec_inv htag hi
    · exact htag.of_sameMemory hpc (by rw [e]; exact htag.1) (by rw [e]; constructor <;> rfl)

/-! ### The form of IHist -/

theorem staleWf_of_sameMemory {s t : State} (h : SameMemory s t) (hs : staleWf s = true) : staleWf t = true :=
  staleWf_congr s t h.stale h.mem h.platform hs

/-- No stale value at all is a form of IHist: after a flush or a reset (R74, R290). -/
theorem staleWf_of_nil {s : State} (h : s.stale = []) : staleWf s = true := by simp [staleWf, h]

theorem MemorySource.staleWf {s u : State} (h : MemorySource s u) (hmem : Memory.wf s.mem = true)
    (hs : staleWf s = true) : staleWf u = true := by
  cases h with
  | kept => exact hs
  | flushed => exact staleWf_of_nil rfl
  | stored l a => exact storeWords_staleWf s l a hmem hs

/-- Settles O59: only an instruction's stores and flushes touch IHist, and they keep its form; a reset empties it. -/
theorem stepKeepsHistoryWellFormed : Obligations.StepKeepsHistoryWellFormed := by
  unfold Obligations.StepKeepsHistoryWellFormed
  intro s t hmem hs h
  obtain ⟨e, rfl⟩ | rfl | ⟨w, n, hw⟩ := step_next h
  · obtain he | he := takeAsync_cases e (popInput s) <;> rw [he]
    · exact staleWf_of_nil rfl
    · exact staleWf_of_sameMemory (s := s) (by constructor <;> simp) hs
  · exact staleWf_of_sameMemory (s := s) (by constructor <;> simp [takePrefetchAbort]) hs
  · have htag : staleWf (clearHazard (tagExecuted { popInput s with draws := n })) = true :=
      staleWf_congr s _ (by simp) (by simp) (by simp) hs
    obtain ⟨i, hi⟩ | ⟨-, e⟩ := runWord_next hw
    · obtain ⟨-, -, u, hu, hsame⟩ := exec_effect hi
      exact staleWf_of_sameMemory hsame (hu.staleWf (by simpa using hmem) htag)
    · exact staleWf_of_sameMemory (by rw [e]; constructor <;> rfl) htag

/-! ### After reset -/

/-- Settles O58. -/
theorem resetMeetsInvariant : Obligations.ResetMeetsInvariant := by
  unfold Obligations.ResetMeetsInvariant
  exact ⟨by decide, by decide, by decide, rfl, rfl⟩

/-- Settles O60: reset leaves no stale value. -/
theorem resetHistoryWellFormed : Obligations.ResetHistoryWellFormed := staleWf_of_nil rfl

end Sys2Proof.Machine

/-! PROOF. The state read by instructions: the register banks (spec/10_state.md R21, R22, R26), R15 as an operand (R31, R32),
IHist after a data write (R35, R62), and the mode-width tags (R36, R296). Settles O20, O19, O39 and O13. -/

namespace Sys2Proof.Machine

open Sys2Proof.Stated

/-! ### Registers -/

/-- Two numbers below 15 are one physical register exactly when R21 and R22 say so. -/
theorem physReg_eq_iff_sameRegister {b b' : Bank} {i j : RegNo} (hi : i ≠ 15) (hj : j ≠ 15) :
    physReg b i = physReg b' j ↔ sameRegister b i b' j := physReg_eq_iff b b' i j hi hj

/-- A register is read back under every name of its physical register. -/
theorem readReg_writeReg_of_physReg_eq (s : State) {b b' : Bank} {i j : RegNo} (v : Word) (hi : i ≠ 15)
    (h : physReg b i = physReg b' j) : readReg (writeReg s b i v) b' j = v := by
  have hread : ∀ t, readReg t b' j = readReg t b i := fun t => by simp only [readReg, h]
  rw [hread, readReg_writeReg_same s b i v hi]

theorem writeReg_eq (s : State) (b : Bank) (i : RegNo) (v : Word) :
    writeReg s b i v = { s with regs := (writeReg s b i v).regs } := by
  unfold writeReg; split <;> rfl

/-- Settles O20: a write is read back through the same physical register and no other. -/
theorem bankedRegisters : Obligations.BankedRegisters := by
  unfold Obligations.BankedRegisters
  refine ⟨by decide, fun s b b' i j v hi hj => ⟨fun h => ?_, fun h => ?_, writeReg_eq s b i v, rfl, rfl⟩⟩
  · exact readReg_writeReg_of_physReg_eq s v hi ((physReg_eq_iff_sameRegister hi hj).2 h)
  · exact readReg_writeReg_frame s b b' i j v fun e => h ((physReg_eq_iff_sameRegister hi hj).1 e)

/-! ### R15 as an operand -/

theorem and_mask26 (v : Word) : v &&& 0x03FFFFFF#32 = (v.extractLsb' 0 26).zeroExtend 32 := by
  apply BitVec.eq_of_toNat_eq
  have h : v.toNat &&& (2 ^ 26 - 1) = v.toNat % 2 ^ 26 := Nat.and_two_pow_sub_one_eq_mod v.toNat 26
  simp [BitVec.extractLsb'_toNat] at h ⊢
  omega

theorem unaligned_eq_false_iff (p : Word) : unaligned p = false ↔ p.toNat % 4 = 0 := by
  simp [unaligned, ← BitVec.toNat_inj, BitVec.extractLsb'_toNat]

theorem unaligned_add {p k : Word} (hp : unaligned p = false) (hk : unaligned k = false) : unaligned (p + k) = false := by
  rw [unaligned_eq_false_iff] at *
  rw [BitVec.toNat_add]; omega

/-- R32 `R15pc`, as the statements write it. -/
theorem r15pc_eq_addressPlus (s : State) (k : Word) : r15pc s k = addressPlus s k := by
  simp only [r15pc, addressPlus, and_mask26]

/-- An aligned address of the 26-bit space leaves the six top and the two low positions empty. -/
theorem address26_of_aligned {q : Word} (h : unaligned q = false) :
    (q.extractLsb' 0 26).zeroExtend 32 = 0#6 ++ q.extractLsb' 2 24 ++ 0#2 := by
  have hlow : q.extractLsb' 0 2 = 0#2 := by simpa [unaligned] using h
  rw [← hlow]
  ext i hi
  simp only [BitVec.zeroExtend, BitVec.getElem_setWidth]
  grind

/-- The status bits fill the positions that the address leaves (R31). -/
theorem or_status_fields (flags : BitVec 6) (a : BitVec 24) (m : BitVec 2) :
    (0#6 ++ a ++ 0#2) ||| (flags ++ 0#24 ++ m) = flags ++ a ++ m := by
  rw [BitVec.or_append, BitVec.or_append]; simp

/-- R32 `R15full` of an aligned address, as the statements write it. -/
theorem r15full_eq_combinedPlus (s : State) (k : Word) (h : unaligned (s.pc + k) = false) :
    r15full s k = combinedPlus s k := by
  unfold r15full combinedPlus r15pc
  cases h26 : is26 s.cpsr.m with
  | false => rfl
  | true =>
    simp only [if_true, and_mask26, address26_of_aligned h]
    exact or_status_fields _ _ _

/-- Settles O19. -/
theorem operandRegisterReads : Obligations.OperandRegisterReads := by
  unfold Obligations.OperandRegisterReads
  intro s hal
  have hal8 : unaligned (s.pc + 8#32) = false := unaligned_add hal (by decide)
  exact ⟨r15pc_eq_addressPlus s 8#32, r15full_eq_combinedPlus s 8#32 hal8, fun r hr => ⟨if_neg hr, if_neg hr⟩⟩

/-! ### IHist after a data write -/

/-- The members of IHist after a store: those from before, and the new value in the word stored. -/
theorem mem_ihist_storeWord {s : State} (hm : Memory.wf s.mem = true) (hs : staleWf s = true) (d w : WordAddr) (v x : Word) :
    x ∈ ihist (storeWord s d v) w ↔ x ∈ ihist s w ∨ (w = d ∧ x = v) := by
  have hstale : staleOf (storeWord s d v).stale w = if w = d then (ihist s d).filter (· != v) else staleOf s.stale w :=
    staleOf_putStale s.stale d w _ (staleWf_keys s hs)
  by_cases hw : w = d
  · subst hw
    rw [ihist, hstale, if_pos rfl, readWord_storeWord_same s w v hm]
    by_cases hx : x = v <;> simp [hx]
  · rw [ihist, hstale, if_neg hw, readWord_storeWord_other s d w v hm hw]
    simp [ihist, hw]

/-- Settles O39: a data write that is not aborted is one store. -/
theorem storeExtendsHistory : Obligations.StoreExtendsHistory := by
  unfold Obligations.StoreExtendsHistory
  intro s t a v h hm hs w x
  obtain ⟨-, rfl⟩ := memWrite_cases s t a v h
  exact mem_ihist_storeWord hm hs _ w v x

/-! ### Code of the other width -/

/-- An IMB that passes is the one word exempt from R296. -/
theorem isImbPassed_eq_false {w : Word} {s : State}
    (h : ∀ c, decode w = .ok (.imb c) ∨ decode w = .ok (.imbRange c) → condPassed c s.cpsr = false) :
    isImbPassed w s = false := by
  unfold isImbPassed
  split
  · next c hd => exact h c (.inl hd)
  · next c hd => exact h c (.inr hd)
  · rfl

/-- A word near one executed in a 32-bit mode (R36). -/
theorem inSeen32_of_near {s : State} {a : WordAddr} (h : ∃ e ∈ s.exec32, (a - e).toNat ≤ s.platform.prefetchWords) :
    inSeen32 s a = true := by
  simpa [inSeen32] using h

/-- A word of the 26-bit space near one executed in a 26-bit mode (R36). -/
theorem inSeen26_of_near {s : State} {a : WordAddr} (ha : a.toNat < 2 ^ 24)
    (h : ∃ e ∈ s.exec26, (a - e).toNat % 2 ^ 24 ≤ s.platform.prefetchWords) : inSeen26 s a = true := by
  rw [inSeen26, decide_eq_true ha, Bool.true_and]; simpa using h

/-- Settles O13: the word is tagged for the other width, and no IMB that passes. -/
theorem sharedCodeRefusedWithoutImb : Obligations.SharedCodeRefusedWithoutImb := by
  unfold Obligations.SharedCodeRefusedWithoutImb
  intro s w hnear himb
  have hshared : sharedCode w s = true := by
    rw [sharedCode, isImbPassed_eq_false himb]
    obtain ⟨h26, hnear⟩ | ⟨h32, hpc, hnear⟩ := hnear
    · simp [h26, inSeen32_of_near hnear, wordAddr]
    · have ha : (wordAddr s.pc).toNat < 2 ^ 24 := by
        simp [wordAddr, BitVec.extractLsb'_toNat, Nat.shiftRight_eq_div_pow]; omega
      simp [h32, inSeen26_of_near ha hnear]
  simp [runWord, hshared]

end Sys2Proof.Machine

/-! PROOF. Memory as instructions use it: the fetch (spec/20_memory.md R72), the flush of an IMB (R74), the stores of an STM
with their frame and their Data Abort (R62, spec/42_block_transfer.md R181, R183, R190), and the protected vectors (R68).
Settles O6, O49, O37, O38 and O36. -/

namespace Sys2Proof.Machine

open Sys2Proof.Stated

/-! ### Fetch -/

/-- No fetch exactly when the access aborts. -/
theorem fetch_eq_none_iff (s : State) : fetch s = none ↔ aborts s .fetch (wordAddr s.pc) = true := by
  unfold fetch
  dsimp only
  split
  · next ha => simp [ha]
  · next ha => split <;> simp [ha]

/-- Whatever number the free choice is, it picks a member of IHist. -/
theorem ihist_getD_mem (s : State) (p : WordAddr) (n : Nat) (d : Word) :
    (ihist s p).getD (n % (ihist s p).length) d ∈ ihist s p := by
  have hlt : n % (ihist s p).length < (ihist s p).length := Nat.mod_lt _ (by simp [ihist])
  rw [← List.getElem_eq_getD (h := hlt)]
  exact List.getElem_mem hlt

/-- What a fetch can answer: the present word, or one drawn from IHist. -/
theorem fetch_next {s t : State} {w : Word} (h : fetch s = some (w, t)) :
    w ∈ ihist s (translate s (wordAddr s.pc)) ∧ (t = s ∨ t = { s with draws := s.draws + 1 }) := by
  unfold fetch at h
  dsimp only at h
  split at h
  · cases h
  split at h <;> cases h
  · exact ⟨List.mem_cons_self, .inl rfl⟩
  · exact ⟨ihist_getD_mem s _ _ _, .inr rfl⟩

/-- Settles O6. -/
theorem fetchReturnsHistoryMember : Obligations.FetchReturnsHistoryMember := by
  unfold Obligations.FetchReturnsHistoryMember
  exact fun s => ⟨fetch_eq_none_iff s, fun _ _ h => fetch_next h, fun hstale ha => fetch_present ha hstale⟩

/-! ### Exception entry, and the flush of an IMB -/

/-- Registers 0 to 14 are read from the physical registers alone. -/
theorem readReg_congr {s t : State} (h : t.regs = s.regs) (b : Bank) {i : RegNo} (hi : i ≠ 15) :
    readReg t b i = readReg s b i := by
  obtain ⟨p, hp⟩ := physReg_some b i hi
  simp only [readReg, hp, h]

theorem getSpsr_writeReg (s : State) (b b' : Bank) (i : RegNo) (v : Word) :
    getSpsr (writeReg s b i v) b' = getSpsr s b' := by
  cases b' <;> simp [getSpsr]

/-- The entry of an exception, as the statements write it (R252). -/
theorem enter_entered (e : Exc) (l : Word) (s : State) : Entered s (enter e l s) e l := by
  obtain ⟨hpc, hc, hspsr⟩ := enter_fields e l s
  have hf : (s.cpsr.f || e.setsF) = if e = .reset ∨ e = .fiq then true else s.cpsr.f := by
    cases e <;> simp [Exc.setsF]
  refine ⟨hpc, by rw [hc, hf], ?_, hspsr, fun p hp => ?_, fun b hb => ?_, by simp, by simp, by simp, by simp, by simp⟩
  · rw [readReg_congr (enter_regs s e l) _ (by decide), readReg_writeReg_same s _ 14 l (by decide)]
  · rw [enter_regs, writeReg_frame s _ 14 l p hp]
  · have hother := getSpsr_setSpsr_other (writeReg s (bankOf e.mode) 14 l) (bankOf e.mode) b s.cpsr hb.symm
    rw [getSpsr_writeReg] at hother
    rw [← hother]; cases b <;> rfl

/-- The words of memory depend on the bytes and the byte order alone. -/
theorem readWord_congr {s t : State} (hm : t.mem = s.mem) (hp : t.platform = s.platform) (w : WordAddr) :
    readWord t w = readWord s w := by
  unfold readWord; rw [hm, hp]

/-- With no stale value listed, IHist of every word is its present value (R74). -/
theorem ihist_of_stale_nil {s : State} (h : s.stale = []) (w : WordAddr) : ihist s w = [readWord s w] := by
  rw [ihist, h]; rfl

/-- IMB and IMBRange flush, then take the Software Interrupt (R232, R233). -/
theorem exec_imb_passed {i : Instr} {c : Cond} {s : State} (hi : i = .imb c ∨ i = .imbRange c)
    (hc : condPassed c s.cpsr = true) : exec i s = .next (enter .swi (r15pc s 4#32) (imbFlush s)) := by
  obtain rfl | rfl := hi <;> exact whenPassed_passed c s _ hc

/-- Settles O49. -/
theorem imbFlushesInstructionInformation : Obligations.ImbFlushesInstructionInformation := by
  unfold Obligations.ImbFlushesInstructionInformation
  intro i c s hi hc
  refine ⟨_, exec_imb_passed hi hc, ?_, fun w => ?_, by simp, by simp⟩
  · rw [← r15pc_eq_addressPlus]; exact enter_entered .swi _ (imbFlush s)
  · rw [ihist_of_stale_nil (by simp), readWord_congr (s := s) (by simp) (by simp)]

/-! ### Bytes that no store reaches -/

/-- A byte whose word is another one is none of the word's four bytes. -/
theorem ne_byteAddr_of_div_ne {x : Nat} {w : WordAddr} (h : x / 4 ≠ w.toNat) : ∀ k, k < 4 → x ≠ byteAddr w k := by
  intro k hk; unfold byteAddr; omega

/-- A byte that no store of the list can reach without an abort reads as before, whether or not a store aborts. -/
theorem read_storeWords_frame (s : State) (l : List Word) (a : Word) (x : Nat) (h : Memory.wf s.mem = true)
    (hx : ∀ k, k < l.length → writeAborts s (a + BitVec.ofNat 32 (4 * k)) = false →
      x / 4 ≠ (translate s (wordAddr (a + BitVec.ofNat 32 (4 * k)))).toNat) :
    Memory.read (storeWords s l a).1.mem x = Memory.read s.mem x := by
  refine (storeWords_induct (fun t => t.platform = s.platform ∧ t.cpsr = s.cpsr ∧ Memory.wf t.mem = true ∧
    Memory.read t.mem x = Memory.read s.mem x) l s a ?_ (fun _ _ hP => hP) ⟨rfl, rfl, h, rfl⟩).2.2.2
  intro s1 t k v hk ⟨hp, hc, hm, hr⟩ ht
  obtain ⟨hna, rfl⟩ := memWrite_cases s1 t _ v ht
  rw [writeAborts_congr s s1 _ hp hc] at hna
  have htr : translate s1 = translate s := by funext w; simp [translate, hp]
  refine ⟨hp, hc, storeWord_wf s1 _ v hm, ?_⟩
  rw [read_storeWord_frame s1 _ v x hm (ne_byteAddr_of_div_ne (by rw [htr]; exact hx k hk hna)), hr]

/-! ### The stores of an STM -/

/-- The address of the `k`-th transfer (R181), as the statements write it. -/
theorem blockStart_add (o : BlockOp) (base : Word) (k : Nat) :
    blockStart o base + BitVec.ofNat 32 (4 * k) = transferAddr o base k := by
  have hbytes : listBytes o.list = BitVec.ofNat 32 (4 * count o.list) := by rw [listBytes, listedRegs_length]; rfl
  unfold blockStart transferAddr
  cases o.p <;> cases o.u <;> simp only [hbytes]

/-- The write-back value (R181), as the statements write it. -/
theorem blockWriteBack_eq (o : BlockOp) (base : Word) : blockWriteBack o base = writeBackValue o base := by
  rw [blockWriteBack, listBytes, listedRegs_length]; rfl

/-- The value stored for a register (R183, R187, R188), as the statements write it. -/
theorem storedValue_eq_storedFor (o : BlockOp) {s : State} (hal : unaligned s.pc = false) (i : RegNo) :
    storedValue o s i = storedFor s o i := by
  unfold storedValue storedFor
  split
  · exact r15full_eq_combinedPlus s _ (by cases s.platform.storePcOffset <;> exact unaligned_add hal (by decide))
  · cases hs : o.s <;> simp [blockBank, userBankTransfer, hs]

/-- The state after the stores of an STM, and whether all were done (R183, R190). -/
def stmStores (s : State) (o : BlockOp) : State × Bool :=
  storeWords s ((listedRegs o.list).map (storedValue o s)) (blockStart o (getX s o.rn))

/-- An STM that runs: its stores, then the next instruction, or the Data Abort. -/
theorem exec_stm_passed {c : Cond} {o : BlockOp} {s : State} (hc : condPassed c s.cpsr = true)
    (hr : blockRefusal false o s.cpsr.m = none) :
    exec (.stm c o) s =
      if (stmStores s o).2 then advance s.cpsr.m (writeBack o (blockWriteBack o (getX s o.rn)) (stmStores s o).1)
      else .next (enter .dataAbort (r15pc s 8#32)
        (abortBase o (getX s o.rn) (blockWriteBack o (getX s o.rn)) (stmStores s o).1)) := by
  refine (whenPassed_passed c s _ hc).trans ?_
  rw [hr]; rfl

/-- The stores change memory, IHist and the counter of free values alone. -/
theorem stmStores_eq (s : State) (o : BlockOp) :
    (stmStores s o).1 = { s with
      mem := (stmStores s o).1.mem, stale := (stmStores s o).1.stale, draws := (stmStores s o).1.draws } :=
  storeWords_eq s _ _

@[simp] theorem stmStores_regs (s : State) (o : BlockOp) : (stmStores s o).1.regs = s.regs := by rw [stmStores_eq]
@[simp] theorem stmStores_cpsr (s : State) (o : BlockOp) : (stmStores s o).1.cpsr = s.cpsr := by rw [stmStores_eq]
@[simp] theorem stmStores_platform (s : State) (o : BlockOp) : (stmStores s o).1.platform = s.platform := by
  rw [stmStores_eq]
@[simp] theorem curBank_stmStores (s : State) (o : BlockOp) : curBank (stmStores s o).1 = curBank s := by simp [curBank]
@[simp] theorem getSpsr_stmStores (s : State) (o : BlockOp) (b : Bank) : getSpsr (stmStores s o).1 b = getSpsr s b := by
  rw [stmStores_eq]; cases b <;> rfl

/-- One value is stored for each listed register. -/
theorem length_storedValues (o : BlockOp) (s : State) :
    ((listedRegs o.list).map (storedValue o s)).length = count o.list := by
  rw [List.length_map, listedRegs_length]; rfl

/-- The abort of a store (R62, R68), as the statements write it. -/
theorem writeAborts_iff_storeAborts (s : State) (o : BlockOp) (k : Nat) :
    writeAborts s (blockStart o (getX s o.rn) + BitVec.ofNat 32 (4 * k)) = true ↔ storeAborts s o k := by
  rw [blockStart_add]
  simp only [writeAborts, vectorProtected, storeAborts, Bool.or_eq_true, Bool.and_eq_true, decide_eq_true_eq]
  unfold virtAt byteAddr
  tauto

/-- The memory word of the `k`-th store, as the statements write it. -/
theorem translate_blockStart_add (s : State) (o : BlockOp) (k : Nat) :
    translate s (wordAddr (blockStart o (getX s o.rn) + BitVec.ofNat 32 (4 * k))) = wordAt s o k := by
  rw [blockStart_add]; rfl

/-- A store that aborts is noticed. -/
theorem stmStores_abort {s : State} {o : BlockOp} {k : Nat} (hk : k < count o.list) (ha : storeAborts s o k) :
    (stmStores s o).2 = false :=
  storeWords_abort s _ _ k (by rwa [length_storedValues]) ((writeAborts_iff_storeAborts s o k).2 ha)

/-- A register with a lower number has no more listed registers below it. -/
theorem rank_mono (list : BitVec 16) {i j : Nat} (h : i ≤ j) : rank list i ≤ rank list j :=
  ((List.range_sublist.2 h).filter _).length_le

/-- A listed register's word holds its value after the stores, when no store up to it aborts and no later one reaches the
same word. -/
theorem readWord_stmStores {s : State} {o : BlockOp} {i : RegNo} (hwf : Memory.wf s.mem = true)
    (hal : unaligned s.pc = false) (hi : o.list.getLsbD i.val = true)
    (ha : ∀ j, j ≤ rank o.list i.val → ¬ storeAborts s o j)
    (hlast : ∀ j : RegNo, i < j → o.list.getLsbD j.val = true →
      wordAt s o (rank o.list j.val) ≠ wordAt s o (rank o.list i.val)) :
    readWord (stmStores s o).1 (wordAt s o (rank o.list i.val)) = storedFor s o i := by
  have hv : ((listedRegs o.list).map (storedValue o s))[rank o.list i.val]? = some (storedFor s o i) := by
    rw [List.getElem?_map, rank, ← listedBelow, listedRegs_getElem o.list i hi, Option.map_some,
      storedValue_eq_storedFor o hal]
  rw [← translate_blockStart_add]
  refine storeWords_read s _ _ _ _ hwf hv (fun j hj => ?_) (fun j hj hlen => ?_)
  · rw [← Bool.not_eq_true, writeAborts_iff_storeAborts]; exact ha j hj
  · rw [translate_blockStart_add, translate_blockStart_add]
    rw [List.length_map] at hlen
    obtain ⟨hbit, hrank⟩ := listedBelow_of_getElem o.list j _ (List.getElem?_eq_getElem hlen)
    have hlt : i < (listedRegs o.list)[j] := lt_of_not_ge fun hle =>
      absurd (rank_mono o.list hle) (Nat.not_le.2 (hj.trans_eq hrank.symm))
    exact hrank ▸ hlast _ hlt hbit

/-- The word whose store aborts keeps its value, when no other store reaches it. -/
theorem readWord_stmStores_aborted {s : State} {o : BlockOp} {k : Nat} (hwf : Memory.wf s.mem = true)
    (ha : storeAborts s o k) (hother : ∀ j, j < count o.list → j ≠ k → wordAt s o j ≠ wordAt s o k) :
    readWord (stmStores s o).1 (wordAt s o k) = readWord s (wordAt s o k) := by
  have h := storeWords_aborted s ((listedRegs o.list).map (storedValue o s)) (blockStart o (getX s o.rn)) k hwf
    ((writeAborts_iff_storeAborts s o k).2 ha)
  simp only [translate_blockStart_add, length_storedValues] at h
  exact h hother

/-- Settles O37: an STM that goes on leaves the memory of its stores. -/
theorem stmMemoryFrame : Obligations.StmMemoryFrame := by
  unfold Obligations.StmMemoryFrame
  intro c o s t h hwf a ha
  have hframe : Memory.read (stmStores s o).1.mem a = Memory.read s.mem a := by
    refine read_storeWords_frame s _ _ a hwf fun k hk _ => ?_
    rw [translate_blockStart_add]
    exact ha k (by rwa [length_storedValues] at hk)
  obtain ⟨-, e | ⟨u, (rfl : u = (stmStores s o).1), e | rfl⟩⟩ := execStm_shape c o s t h
  · rw [e]
  · rw [e]; simpa using hframe
  · simpa using hframe

/-! ### The protected vectors -/

/-- With R68's parameter, a write of a 26-bit mode that does not abort goes to a word above the vectors. -/
theorem wordAddr_above_vectors {s : State} {a : Word} (h26 : is26 s.cpsr.m = true)
    (hv : s.platform.vectorWriteAbort26 = true) (ha : writeAborts s a = false) : 8 ≤ (wordAddr a).toNat := by
  simp [writeAborts, vectorProtected, byteAddr, h26, hv] at ha
  omega

/-- Settles O38: only stores change memory, and each is checked at its own address, which is the physical one. -/
theorem protectedVectorsNeverWritten : Obligations.ProtectedVectorsNeverWritten := by
  unfold Obligations.ProtectedVectorsNeverWritten
  intro i s t h26 hv htr hwf h a ha
  obtain ⟨-, -, u, hu, hsame⟩ := exec_effect h
  rw [hsame.mem]
  cases hu with
  | kept => rfl
  | flushed => rfl
  | stored l b =>
    refine read_storeWords_frame s l b a hwf fun k _ hna => ?_
    have habove := wordAddr_above_vectors h26 hv hna
    rw [translate, htr, translateIn]
    omega

/-! ### The Data Abort of an STM -/

/-- The base register after a data abort (R190), as the statements write it. -/
theorem abortBase_eq_setX (o : BlockOp) {s u : State} (hp : u.platform = s.platform) :
    abortBase o (getX s o.rn) (blockWriteBack o (getX s o.rn)) u = setX u o.rn (abortedBase s o) := by
  rw [abortBase, abortedBase, blockWriteBack_eq, hp]
  simp

/-- A base of R15 is refused (R189). -/
theorem rn_ne_15_of_not_refused {load : Bool} {o : BlockOp} {m : ModeBits} (h : blockRefusal load o m = none) :
    o.rn ≠ 15 := by
  rintro h15
  unfold blockRefusal at h
  split at h
  · cases h
  · simp [h15] at h

/-- Settles O36: the stores stop at the first abort; then the base is set and the Data Abort entered. -/
theorem stmDataAbort : Obligations.StmDataAbort := by
  unfold Obligations.StmDataAbort
  intro c o s k hc hr hk ha hfirst hal hwf
  have hmem : ∀ w, readWord (setX (stmStores s o).1 o.rn (abortedBase s o)) w = readWord (stmStores s o).1 w :=
    readWord_congr (by simp) (by simp)
  refine ⟨setX (stmStores s o).1 o.rn (abortedBase s o), _, ?_, enter_entered .dataAbort (addressPlus s 8#32) _,
    by simp, fun b => ?_, ?_, fun p hp => ?_, fun i hi hik hlast => ?_, fun hother => ?_⟩
  · rw [exec_stm_passed hc hr, stmStores_abort hk ha, abortBase_eq_setX o (by simp), r15pc_eq_addressPlus]; rfl
  · rw [setX, getSpsr_writeReg, getSpsr_stmStores]
  · rw [setX, curBank_stmStores, readReg_writeReg_same _ _ _ _ (rn_ne_15_of_not_refused hr)]
  · rw [setX, curBank_stmStores, writeReg_frame _ _ _ _ _ hp, stmStores_regs]
  · rw [hmem, readWord_stmStores hwf hal hi (fun j hj => hfirst j (by omega)) hlast]
  · rw [hmem, readWord_stmStores_aborted hwf ha hother]

end Sys2Proof.Machine

/-! PROOF. Decoding the word of an instruction, format by format (spec/30_encoding.md R93 to R105), and the words outside the
opcode table (R106). Settles O2, O3, O4 and O1. -/

namespace Sys2Proof

open Sys2Proof.Stated

/-! ### Fields of a word put together from fields -/

/-- Two words joined from pieces of the same widths are equal piece by piece. -/
theorem append_eq_append_iff {m n : Nat} {a a' : BitVec m} {b b' : BitVec n} :
    a ++ b = a' ++ b' ↔ a = a' ∧ b = b' := by
  refine ⟨fun h => ⟨?_, ?_⟩, fun ⟨ha, hb⟩ => by rw [ha, hb]⟩
  · rw [← BitVec.extractLsb'_append_eq_left (a := a) (b := b), h, BitVec.extractLsb'_append_eq_left]
  · rw [← BitVec.extractLsb'_append_eq_right (a := a) (b := b), h, BitVec.extractLsb'_append_eq_right]

theorem getLsbD_fieldOf {w : Word} {lo n k : Nat} (h : k < n) : (fieldOf w lo n).getLsbD k = w.getLsbD (lo + k) := by
  simp [h]

/-- The class field is bits 27:26 and the I bit (R93, R94). -/
theorem fieldOf_25_3 (w : Word) : fieldOf w 25 3 = fieldOf w 26 2 ++ BitVec.ofBool (w.getLsbD 25) := by
  rw [ofBool_getLsbD]
  exact (fieldOf_append (hi := 26) (lo := 25) (n := 1) rfl).symm

theorem fields_of_fieldOf_25_3 {w : Word} {b : Bool} (h : fieldOf w 25 3 = 0b00#2 ++ BitVec.ofBool b) :
    fieldOf w 26 2 = 0b00#2 ∧ w.getLsbD 25 = b := by
  rw [fieldOf_25_3] at h
  exact (append_eq_append_iff.1 h).imp id BitVec.ofBool_eq_iff_eq.1

theorem fields_of_fieldOf_23_5 {w : Word} {b : BitVec 5} (h : fieldOf w 23 5 = b) :
    fieldOf w 25 3 = b.extractLsb' 2 3 ∧ fieldOf w 23 2 = b.extractLsb' 0 2 := by
  subst h
  exact ⟨(fieldOf_fieldOf (lo := 23) (n := 5) (k := 2) (by decide)).symm,
    (fieldOf_fieldOf (lo := 23) (n := 5) (k := 0) (by decide)).symm⟩

theorem fields_of_fieldOf_24_4 {w : Word} {b : BitVec 4} (h : fieldOf w 24 4 = b) :
    fieldOf w 25 3 = b.extractLsb' 1 3 ∧ w.getLsbD 24 = b.getLsbD 0 := by
  subst h
  exact ⟨(fieldOf_fieldOf (lo := 24) (n := 4) (k := 1) (by decide)).symm,
    (getLsbD_fieldOf (lo := 24) (n := 4) (k := 0) (by decide)).symm⟩

theorem bits_of_fieldOf_20_2 {w : Word} {b : BitVec 2} (h : fieldOf w 20 2 = b) :
    w.getLsbD 20 = b.getLsbD 0 ∧ w.getLsbD 21 = b.getLsbD 1 := by
  subst h
  exact ⟨(getLsbD_fieldOf (lo := 20) (n := 2) (k := 0) (by decide)).symm,
    (getLsbD_fieldOf (lo := 20) (n := 2) (k := 1) (by decide)).symm⟩

theorem fields_of_fieldOf_4_4 {w : Word} {b : BitVec 4} (h : fieldOf w 4 4 = b) :
    w.getLsbD 4 = b.getLsbD 0 ∧ w.getLsbD 7 = b.getLsbD 3 ∧ fieldOf w 5 2 = b.extractLsb' 1 2 := by
  subst h
  exact ⟨(getLsbD_fieldOf (lo := 4) (n := 4) (k := 0) (by decide)).symm,
    (getLsbD_fieldOf (lo := 4) (n := 4) (k := 3) (by decide)).symm,
    (fieldOf_fieldOf (lo := 4) (n := 4) (k := 1) (by decide)).symm⟩

/-! ### The class of a word, from its fields (R93) -/

theorem classify_psrReg {w : Word} (h23 : fieldOf w 23 5 = 0b00010#5) (h20 : w.getLsbD 20 = false)
    (h74 : w.getLsbD 7 = false ∨ w.getLsbD 4 = false) : classify w = .psrReg := by
  obtain ⟨hc, hop⟩ := fields_of_fieldOf_23_5 h23
  simp only [classify, hc, hop, h20, Bool.and_eq_false_iff.2 h74]
  rfl

theorem classify_psrImm {w : Word} (h23 : fieldOf w 23 5 = 0b00110#5) (h20 : fieldOf w 20 2 = 0b10#2) :
    classify w = .psrImm := by
  obtain ⟨hc, hop⟩ := fields_of_fieldOf_23_5 h23
  simp only [classify, hc, hop, h20]
  rfl

theorem classify_unallocated {w : Word} (h23 : fieldOf w 23 5 = 0b00110#5) (h20 : fieldOf w 20 2 = 0b00#2) :
    classify w = .unallocated := by
  obtain ⟨hc, hop⟩ := fields_of_fieldOf_23_5 h23
  simp only [classify, hc, hop, h20]
  rfl

theorem classify_block {w : Word} (h : fieldOf w 25 3 = 0b100#3) : classify w = .block := by
  simp only [classify, h]; rfl

theorem classify_branch {w : Word} (h : fieldOf w 25 3 = 0b101#3) : classify w = .branch := by
  simp only [classify, h]; rfl

theorem classify_undefinedSpace {w : Word} (h : fieldOf w 25 3 = 0b011#3) (h4 : w.getLsbD 4 = true) :
    classify w = .undefinedSpace := by
  simp only [classify, h, h4]; rfl

theorem classify_swi {w : Word} (h : fieldOf w 24 4 = 0b1111#4) : classify w = .swi := by
  obtain ⟨hc, h24⟩ := fields_of_fieldOf_24_4 h
  simp only [classify, hc, h24]; rfl

/-! ### Data processing -/

/-- The operand 2 of a data-processing word: its form by the I bit and bit 4 (R93, R94). -/
def operand2Of (w : Word) : Operand2 :=
  if w.getLsbD 25 then .imm (immOpOf w)
  else if w.getLsbD 4 then .regShift (regShiftOpOf w)
  else .immShift (immShiftOpOf w)

theorem class_of_isDataProcessingWord {w : Word} (h : isDataProcessingWord w) :
    fieldOf w 25 3 = if w.getLsbD 25 then 0b001#3 else 0b000#3 := by
  have h26 : fieldOf w 26 2 = 0b00#2 := h.1
  rw [fieldOf_25_3, h26]
  cases w.getLsbD 25 <;> rfl

/-- A compare opcode with S = 1 is no immediate PSR transfer and not the unallocated class. -/
theorem not_psr_of_compareSetsFlags {w : Word} (hs : compareSetsFlags w) {b : BitVec 2} (hb : b.getLsbD 0 = false) :
    (fieldOf w 23 2 == 0b10#2 && fieldOf w 20 2 == b) = false := by
  rw [Bool.eq_false_iff]
  intro h
  obtain ⟨hop, h20⟩ := by simpa only [Bool.and_eq_true, beq_iff_eq] using h
  have e : w.getLsbD 20 = b.getLsbD 0 := by rw [← h20, getLsbD_fieldOf (by decide)]
  rw [hb, hs hop] at e
  cases e

theorem classify_dpImm {w : Word} (h : fieldOf w 25 3 = 0b001#3) (hs : compareSetsFlags w) : classify w = .dpImm := by
  simp only [classify, h, not_psr_of_compareSetsFlags hs (b := 0b10#2) rfl,
    not_psr_of_compareSetsFlags hs (b := 0b00#2) rfl]
  rfl

theorem classify_dpReg {w : Word} (h : fieldOf w 25 3 = 0b000#3) (h74 : w.getLsbD 7 = false ∨ w.getLsbD 4 = false)
    (hs : compareSetsFlags w) : classify w = if w.getLsbD 4 then .dpRegShift else .dpImmShift := by
  have hs' : (fieldOf w 23 2 == 0b10#2 && !w.getLsbD 20) = false := by simpa [compareSetsFlags] using hs
  simp only [classify, h, Bool.and_eq_false_iff.2 h74, hs']
  rfl

/-- R93 lines 6, 7 and 10: one decoder for the three operand formats. -/
theorem decodeBody_dataProcessing {w : Word} (c : Cond) (hdp : isDataProcessingWord w) (hs : compareSetsFlags w) :
    decodeBody w c = decodeDp w c (operand2Of w) := by
  have hc := class_of_isDataProcessingWord hdp
  unfold operand2Of
  split
  · next h25 =>
    rw [if_pos h25] at hc
    simp only [decodeBody, classify_dpImm hc hs]
  · next h25 =>
    rw [if_neg h25] at hc
    have h74 := hdp.2.resolve_left h25
    rw [decodeBody, classify_dpReg hc h74 hs]
    cases w.getLsbD 4 <;> rfl

/-- Bits 11:0 of the word are the bits of its operand 2. -/
theorem operand2_bits_operand2Of {w : Word} (h : isDataProcessingWord w) : (operand2Of w).bits = fieldOf w 0 12 := by
  obtain ⟨-, h⟩ := h
  unfold operand2Of
  split
  · exact operand2_bits_immOpOf w
  · next h25 =>
    split
    · next h4 => exact operand2_bits_regShiftOpOf ((h.resolve_left h25).resolve_right (by rw [h4]; decide)) h4
    · next h4 => exact operand2_bits_immShiftOpOf (Bool.eq_false_iff.2 h4)

theorem isImm_operand2Of (w : Word) : (operand2Of w).isImm = w.getLsbD 25 := by
  unfold operand2Of
  split
  · next h => exact h.symm
  · next h =>
    have h25 : w.getLsbD 25 = false := Bool.eq_false_iff.2 h
    split <;> exact h25.symm

theorem shiftType_bits_inj {t t' : ShiftType} (h : t.bits = t'.bits) : t = t' := by
  rw [← shiftType_ofBits_bits t, h, shiftType_ofBits_bits]

theorem regBits_inj {r r' : RegNo} (h : regBits r = regBits r') : r = r' := by
  rw [← regOf_regBits r, h, regOf_regBits]

/-- The I bit and bits 11:0 determine operand 2; bit 4 tells the two register forms apart. -/
theorem operand2_bits_inj {o o' : Operand2} (hi : o.isImm = o'.isImm) (h : o.bits = o'.bits) : o = o' := by
  cases o with
  | imm o =>
    cases o' with
    | imm o' =>
      obtain ⟨hr, hv⟩ := append_eq_append_iff.1 h
      cases o; cases o'
      cases hr; cases hv; rfl
    | immShift | regShift => cases hi
  | immShift o =>
    cases o' with
    | imm => cases hi
    | immShift o' =>
      have h : o.amount ++ o.ty.bits ++ 0b0#1 ++ regBits o.rm = o'.amount ++ o'.ty.bits ++ 0b0#1 ++ regBits o'.rm := h
      obtain ⟨⟨⟨hn, ht⟩, -⟩, hm⟩ := by simpa only [append_eq_append_iff] using h
      cases o; cases o'
      cases hn; cases shiftType_bits_inj ht; cases regBits_inj hm; rfl
    | regShift o' =>
      exact absurd (append_eq_append_iff.1 (append_eq_append_iff.1 h).1).2 (by decide)
  | regShift o =>
    cases o' with
    | imm => cases hi
    | immShift o' =>
      exact absurd (append_eq_append_iff.1 (append_eq_append_iff.1 h).1).2 (by decide)
    | regShift o' =>
      have h : regBits o.rs ++ 0b0#1 ++ o.ty.bits ++ 0b1#1 ++ regBits o.rm =
        regBits o'.rs ++ 0b0#1 ++ o'.ty.bits ++ 0b1#1 ++ regBits o'.rm := h
      obtain ⟨⟨⟨⟨hr, -⟩, ht⟩, -⟩, hm⟩ := by simpa only [append_eq_append_iff] using h
      cases o; cases o'
      cases regBits_inj hr; cases shiftType_bits_inj ht; cases regBits_inj hm; rfl

theorem getLsbD_4_of_immShift {w : Word} {o : ImmShiftOp} (h : fieldOf w 0 12 = (Operand2.immShift o).bits) :
    w.getLsbD 4 = false := by
  have e : fieldOf w 7 5 ++ fieldOf w 5 2 ++ BitVec.ofBool (w.getLsbD 4) ++ fieldOf w 0 4 =
      o.amount ++ o.ty.bits ++ 0b0#1 ++ regBits o.rm := by
    simp only [ofBool_getLsbD, fieldOf_append]; exact h
  exact BitVec.ofBool_eq_iff_eq.1 (append_eq_append_iff.1 (append_eq_append_iff.1 e).1).2

theorem getLsbD_7_of_regShift {w : Word} {o : RegShiftOp} (h : fieldOf w 0 12 = (Operand2.regShift o).bits) :
    w.getLsbD 7 = false := by
  have e : fieldOf w 8 4 ++ BitVec.ofBool (w.getLsbD 7) ++ fieldOf w 5 2 ++ fieldOf w 4 1 ++ fieldOf w 0 4 =
      regBits o.rs ++ 0b0#1 ++ o.ty.bits ++ 0b1#1 ++ regBits o.rm := by
    simp only [ofBool_getLsbD, fieldOf_append]; exact h
  obtain ⟨⟨⟨⟨-, h7⟩, -⟩, -⟩, -⟩ := by simpa only [append_eq_append_iff] using e
  exact BitVec.ofBool_eq_iff_eq.1 h7

/-- Only the compares have opcode 10xx (R95). -/
theorem dp_opcode_hi (op : DpOp) : op.bits.extractLsb' 2 2 ≠ 0b10#2 := by cases op <;> decide

section
variable (c : Cond) (op : BitVec 4) (sb : Bool) (rn rd : RegNo) (o : Operand2)

theorem isDataProcessingWord_encodeDp : isDataProcessingWord (encodeDp c op sb rn rd o) := by
  have hcl := encodeDp_class c op sb rn rd o
  have ho := encodeDp_op2 c op sb rn rd o
  generalize encodeDp c op sb rn rd o = w at *
  obtain ⟨h26, h25⟩ := fields_of_fieldOf_25_3 hcl
  refine ⟨h26, ?_⟩
  cases o with
  | imm o => exact .inl h25
  | immShift o => exact .inr (.inr (getLsbD_4_of_immShift ho))
  | regShift o => exact .inr (.inl (getLsbD_7_of_regShift ho))

theorem operand2Of_encodeDp : operand2Of (encodeDp c op sb rn rd o) = o := by
  refine operand2_bits_inj ?_ ?_
  · rw [isImm_operand2Of]
    exact (fields_of_fieldOf_25_3 (encodeDp_class c op sb rn rd o)).2
  · rw [operand2_bits_operand2Of (isDataProcessingWord_encodeDp c op sb rn rd o), encodeDp_op2]

theorem decodeBody_encodeDp (h : op.extractLsb' 2 2 = 0b10#2 → sb = true) :
    decodeBody (encodeDp c op sb rn rd o) c = decodeDp (encodeDp c op sb rn rd o) c o := by
  have hs : compareSetsFlags (encodeDp c op sb rn rd o) := by
    rwa [compareSetsFlags, encodeDp_opcodeHi, encodeDp_s]
  rw [decodeBody_dataProcessing c (isDataProcessingWord_encodeDp c op sb rn rd o) hs, operand2Of_encodeDp]

end

/-! ### The data-processing formats (R94 to R100) -/

/-- Bits 31:28 give the condition, and the body the rest. -/
theorem decode_of_body {w : Word} {c : Cond} {f : Form} (h : fieldOf w 28 4 = c.bits) (hb : decodeBody w c = .ok f) :
    decode w = .ok f.instr := by
  have hc : condOf w = some c := by rw [condOf, h, cond_ofBits_bits]
  simp only [decode, hc, hb, Except.map]

theorem decode_encodeForm_dp (op : DpOp) (c : Cond) (sb : Bool) (rd rn : RegNo) (o : Operand2)
    (h : (Form.dp op c sb rd rn o).movOk = true) :
    decode (encodeForm (.dp op c sb rd rn o)) = .ok (Form.dp op c sb rd rn o).instr := by
  have hrn : (op.hasNoRn && rn != 0) = false := by simpa [Form.movOk, imp_iff_not_or] using h
  refine decode_of_body (encodeDp_cond ..) ?_
  rw [encodeForm, decodeBody_encodeDp _ _ _ _ _ _ fun e => absurd e (dp_opcode_hi op)]
  simp only [decodeDp, encodeDp_opcode, encodeDp_rn, encodeDp_rd, encodeDp_s, opcode_ofBits_dp, regOf_regBits, hrn]
  rfl

theorem decode_encodeForm_cmp (op : CmpOp) (p : Bool) (c : Cond) (rn : RegNo) (o : Operand2) :
    decode (encodeForm (.cmp op p c rn o)) = .ok (Form.cmp op p c rn o).instr := by
  refine decode_of_body (encodeDp_cond ..) ?_
  rw [encodeForm, decodeBody_encodeDp _ _ _ _ _ _ fun _ => rfl]
  simp only [decodeDp, encodeDp_opcode, encodeDp_rn, encodeDp_rd, opcode_ofBits_cmp, regOf_regBits]
  cases p <;> rfl

/-! ### The other formats (R101 to R107): the word of a form has the form's fields, and they decide -/

theorem decode_encodeForm_mrs (c : Cond) (p : Bool) (rd : RegNo) :
    decode (encodeForm (.mrs c p rd)) = .ok (Form.mrs c p rd).instr := by
  generalize hw : encodeForm (.mrs c p rd) = w
  have e : fieldOf w 28 4 ++ fieldOf w 23 5 ++ BitVec.ofBool (w.getLsbD 22) ++ fieldOf w 20 2 ++ fieldOf w 16 4 ++
      fieldOf w 12 4 ++ fieldOf w 0 12 = encodeForm (.mrs c p rd) := by
    simp only [ofBool_getLsbD, fieldOf_append, hw]
    exact BitVec.extractLsb'_eq_self
  simp only [encodeForm, append_eq_append_iff, BitVec.ofBool_eq_iff_eq] at e
  obtain ⟨⟨⟨⟨⟨⟨h28, h23⟩, h22⟩, h20⟩, h16⟩, h12⟩, h0⟩ := e
  obtain ⟨hb20, hb21⟩ := bits_of_fieldOf_20_2 h20
  have hb4 : w.getLsbD 4 = false := by rw [← getLsbD_fieldOf (lo := 0) (n := 12) (k := 4) (by decide), h0]; rfl
  refine decode_of_body h28 ?_
  simp only [decodeBody, classify_psrReg h23 hb20 (.inr hb4), decodePsrReg, hb21, h22, h16, h12, h0, regOf_regBits]
  rfl

theorem decode_encodeForm_msrReg (c : Cond) (p : Bool) (m : BitVec 4) (rm : RegNo) :
    decode (encodeForm (.msrReg c p m rm)) = .ok (Form.msrReg c p m rm).instr := by
  generalize hw : encodeForm (.msrReg c p m rm) = w
  have e : fieldOf w 28 4 ++ fieldOf w 23 5 ++ BitVec.ofBool (w.getLsbD 22) ++ fieldOf w 20 2 ++ fieldOf w 16 4 ++
      fieldOf w 12 4 ++ fieldOf w 4 8 ++ fieldOf w 0 4 = encodeForm (.msrReg c p m rm) := by
    simp only [ofBool_getLsbD, fieldOf_append, hw]
    exact BitVec.extractLsb'_eq_self
  simp only [encodeForm, append_eq_append_iff, BitVec.ofBool_eq_iff_eq] at e
  obtain ⟨⟨⟨⟨⟨⟨⟨h28, h23⟩, h22⟩, h20⟩, h16⟩, h12⟩, h4⟩, h0⟩ := e
  obtain ⟨hb20, hb21⟩ := bits_of_fieldOf_20_2 h20
  have hb4 : w.getLsbD 4 = false := by rw [← getLsbD_fieldOf (lo := 4) (n := 8) (k := 0) (by decide), h4]; rfl
  refine decode_of_body h28 ?_
  simp only [decodeBody, classify_psrReg h23 hb20 (.inr hb4), decodePsrReg, hb21, h22, h16, h12, h4, h0, regOf_regBits]
  rfl

theorem decode_encodeForm_msrImm (c : Cond) (p : Bool) (m : BitVec 4) (o : ImmOp) :
    decode (encodeForm (.msrImm c p m o)) = .ok (Form.msrImm c p m o).instr := by
  generalize hw : encodeForm (.msrImm c p m o) = w
  have e : fieldOf w 28 4 ++ fieldOf w 23 5 ++ BitVec.ofBool (w.getLsbD 22) ++ fieldOf w 20 2 ++ fieldOf w 16 4 ++
      fieldOf w 12 4 ++ fieldOf w 8 4 ++ fieldOf w 0 8 = encodeForm (.msrImm c p m o) := by
    simp only [ofBool_getLsbD, fieldOf_append, hw]
    exact BitVec.extractLsb'_eq_self
  simp only [encodeForm, append_eq_append_iff, BitVec.ofBool_eq_iff_eq] at e
  obtain ⟨⟨⟨⟨⟨⟨⟨h28, h23⟩, h22⟩, h20⟩, h16⟩, h12⟩, h8⟩, h0⟩ := e
  refine decode_of_body h28 ?_
  simp only [decodeBody, classify_psrImm h23 h20, decodePsrImm, immOpOf, h22, h16, h12, h8, h0]
  rfl

theorem decode_encodeForm_block (l : Bool) (c : Cond) (o : BlockOp) :
    decode (encodeForm (.block l c o)) = .ok (Form.block l c o).instr := by
  generalize hw : encodeForm (.block l c o) = w
  have e : fieldOf w 28 4 ++ fieldOf w 25 3 ++ BitVec.ofBool (w.getLsbD 24) ++ BitVec.ofBool (w.getLsbD 23) ++
      BitVec.ofBool (w.getLsbD 22) ++ BitVec.ofBool (w.getLsbD 21) ++ BitVec.ofBool (w.getLsbD 20) ++ fieldOf w 16 4 ++
      fieldOf w 0 16 = encodeForm (.block l c o) := by
    simp only [ofBool_getLsbD, fieldOf_append, hw]
    exact BitVec.extractLsb'_eq_self
  simp only [encodeForm, append_eq_append_iff, BitVec.ofBool_eq_iff_eq] at e
  obtain ⟨⟨⟨⟨⟨⟨⟨⟨h28, h25⟩, h24⟩, h23⟩, h22⟩, h21⟩, h20⟩, h16⟩, h0⟩ := e
  refine decode_of_body h28 ?_
  simp only [decodeBody, classify_block h25, blockOpOf, h24, h23, h22, h21, h20, h16, h0, regOf_regBits]

theorem decode_encodeForm_branch (l : Bool) (c : Cond) (off : BitVec 24) :
    decode (encodeForm (.branch l c off)) = .ok (Form.branch l c off).instr := by
  generalize hw : encodeForm (.branch l c off) = w
  have e : fieldOf w 28 4 ++ fieldOf w 25 3 ++ BitVec.ofBool (w.getLsbD 24) ++ fieldOf w 0 24 =
      encodeForm (.branch l c off) := by
    simp only [ofBool_getLsbD, fieldOf_append, hw]
    exact BitVec.extractLsb'_eq_self
  simp only [encodeForm, append_eq_append_iff, BitVec.ofBool_eq_iff_eq] at e
  obtain ⟨⟨⟨h28, h25⟩, h24⟩, h0⟩ := e
  refine decode_of_body h28 ?_
  simp only [decodeBody, classify_branch h25, h24, h0]

theorem decode_encodeForm_undefined (c : Cond) (hi : BitVec 20) (lo : BitVec 4) :
    decode (encodeForm (.undefined c hi lo)) = .ok (Form.undefined c hi lo).instr := by
  generalize hw : encodeForm (.undefined c hi lo) = w
  have e : fieldOf w 28 4 ++ fieldOf w 25 3 ++ fieldOf w 5 20 ++ BitVec.ofBool (w.getLsbD 4) ++ fieldOf w 0 4 =
      encodeForm (.undefined c hi lo) := by
    simp only [ofBool_getLsbD, fieldOf_append, hw]
    exact BitVec.extractLsb'_eq_self
  simp only [encodeForm, append_eq_append_iff] at e
  obtain ⟨⟨⟨⟨h28, h25⟩, h5⟩, h4⟩, h0⟩ := e
  refine decode_of_body h28 ?_
  simp only [decodeBody, classify_undefinedSpace h25 (BitVec.ofBool_eq_iff_eq.1 h4), h5, h0]

/-- The three SWI rows (R104, R105): the comment field decides. -/
theorem decode_encodeForm_swi (c : Cond) (n : BitVec 24) :
    decode (encodeForm (.swi c n)) =
      .ok (if n == imbComment then Form.imb c else if n == imbRangeComment then .imbRange c else .swi c n).instr := by
  generalize hw : encodeForm (.swi c n) = w
  have e : fieldOf w 28 4 ++ fieldOf w 24 4 ++ fieldOf w 0 24 = encodeForm (.swi c n) := by
    simp only [fieldOf_append, hw]
    exact BitVec.extractLsb'_eq_self
  simp only [encodeForm, append_eq_append_iff] at e
  obtain ⟨⟨h28, h24⟩, h0⟩ := e
  refine decode_of_body h28 ?_
  simp only [decodeBody, classify_swi h24, decodeSwi, h0]

/-- Decoding the word of an encodable form gives the form's instruction. -/
theorem decode_encodeForm {f : Form} (h : f.encodable = true) : decode (encodeForm f) = .ok f.instr := by
  obtain ⟨hswi, hmov⟩ := by simpa only [Form.encodable, Bool.and_eq_true] using h
  cases f with
  | dp op c sb rd rn o => exact decode_encodeForm_dp op c sb rd rn o hmov
  | cmp op p c rn o => exact decode_encodeForm_cmp op p c rn o
  | mrs c p rd => exact decode_encodeForm_mrs c p rd
  | msrReg c p m rm => exact decode_encodeForm_msrReg c p m rm
  | msrImm c p m o => exact decode_encodeForm_msrImm c p m o
  | block l c o => exact decode_encodeForm_block l c o
  | branch l c off => exact decode_encodeForm_branch l c off
  | imb c => exact decode_encodeForm_swi c imbComment
  | imbRange c => exact decode_encodeForm_swi c imbRangeComment
  | swi c n =>
    obtain ⟨h0, h1⟩ := by simpa [Form.swiOk] using hswi
    exact (decode_encodeForm_swi c n).trans (by simp [h0, h1])
  | undefined c hi lo => exact decode_encodeForm_undefined c hi lo

/-- The constructor of an instruction's form is the instruction's own. -/
theorem form_instr_form (i : Instr) : i.form.instr = i := by cases i <;> rfl

/-- Settles O2: the word of each format has the fields of its form, which decide the class and the operands. -/
theorem decodeAfterEncode : Obligations.DecodeAfterEncode := by
  unfold Obligations.DecodeAfterEncode
  intro i h
  rw [encode, decode_encodeForm h, form_instr_form]

/-- Settles O3. -/
theorem encodeAfterDecode : Obligations.EncodeAfterDecode := by
  unfold Obligations.EncodeAfterDecode
  exact fun w i h => encode_of_decode h

/-- Settles O1: the decoder runs on each of the twenty words. -/
theorem exampleWordsDecode : Obligations.ExampleWordsDecode := by
  unfold Obligations.ExampleWordsDecode
  decide

/-! ### Words outside the table (R106) -/

theorem decode_of_body_error {w : Word} {r : Reject} (h : fieldOf w 28 4 ≠ 0b1111#4)
    (hb : ∀ c, decodeBody w c = .error r) : decode w = .error r := by
  obtain ⟨c, hc⟩ := Option.ne_none_iff_exists'.1 (mt (cond_ofBits_none _).1 h)
  have hc : condOf w = some c := hc
  simp only [decode, hc, hb c, Except.map]

theorem decodeBody_multiply {w : Word} (h25 : fieldOf w 25 3 = 0b000#3) (h44 : fieldOf w 4 4 = 0b1001#4)
    (h24 : w.getLsbD 24 = false) (c : Cond) : decodeBody w c = .error .multiply := by
  obtain ⟨h4, h7, h5⟩ := fields_of_fieldOf_4_4 h44
  have h23 : fieldOf w 23 2 = 0b0#1 ++ BitVec.ofBool (w.getLsbD 23) := by
    rw [← fieldOf_append (hi := 24) (m := 1) (n := 1) rfl, ← ofBool_getLsbD, ← ofBool_getLsbD, h24]; rfl
  simp only [decodeBody, classify, h25, h4, h7, h5, h23]
  cases w.getLsbD 23 <;> rfl

theorem decodeBody_swap {w : Word} (h25 : fieldOf w 25 3 = 0b000#3) (h44 : fieldOf w 4 4 = 0b1001#4)
    (h23 : fieldOf w 23 2 = 0b10#2) (c : Cond) : decodeBody w c = .error .swap := by
  obtain ⟨h4, h7, h5⟩ := fields_of_fieldOf_4_4 h44
  simp only [decodeBody, classify, h25, h4, h7, h5, h23]
  rfl

theorem decodeBody_halfword {w : Word} (h25 : fieldOf w 25 3 = 0b000#3) (h7 : w.getLsbD 7 = true) (h4 : w.getLsbD 4 = true)
    (h : fieldOf w 5 2 ≠ 0b00#2 ∨ fieldOf w 23 2 = 0b11#2) (c : Cond) : decodeBody w c = .error .halfword := by
  have hk : classify w = .halfword := by
    rcases h with h5 | h23
    · simp only [classify, h25, h4, h7, beq_eq_false_iff_ne.2 h5]; rfl
    · simp only [classify, h25, h4, h7, h23]; exact ite_self _
  simp only [decodeBody, hk]

theorem decodeBody_unallocated {w : Word} (h23 : fieldOf w 23 5 = 0b00110#5) (h20 : fieldOf w 20 2 = 0b00#2) (c : Cond) :
    decodeBody w c = .error .reservedEncoding := by
  simp only [decodeBody, classify_unallocated h23 h20]

theorem decodeBody_mrs_reserved {w : Word} (h23 : fieldOf w 23 5 = 0b00010#5) (h20 : fieldOf w 20 2 = 0b00#2)
    (h74 : w.getLsbD 7 = false ∨ w.getLsbD 4 = false) (h : fieldOf w 16 4 ≠ 0b1111#4 ∨ fieldOf w 0 12 ≠ 0#12)
    (c : Cond) : decodeBody w c = .error .reservedEncoding := by
  obtain ⟨hb20, hb21⟩ := bits_of_fieldOf_20_2 h20
  have hf : (fieldOf w 16 4 == 0b1111#4 && fieldOf w 0 12 == 0#12) = false :=
    Bool.and_eq_false_iff.2 (h.imp beq_eq_false_iff_ne.2 beq_eq_false_iff_ne.2)
  simp only [decodeBody, classify_psrReg h23 hb20 h74, decodePsrReg, hb21, hf]
  rfl

theorem decodeBody_msrReg_reserved {w : Word} (h23 : fieldOf w 23 5 = 0b00010#5) (h20 : fieldOf w 20 2 = 0b10#2)
    (h74 : w.getLsbD 7 = false ∨ w.getLsbD 4 = false) (h : fieldOf w 12 4 ≠ 0b1111#4 ∨ fieldOf w 4 8 ≠ 0#8)
    (c : Cond) : decodeBody w c = .error .reservedEncoding := by
  obtain ⟨hb20, hb21⟩ := bits_of_fieldOf_20_2 h20
  have hf : (fieldOf w 12 4 == 0b1111#4 && fieldOf w 4 8 == 0#8) = false :=
    Bool.and_eq_false_iff.2 (h.imp beq_eq_false_iff_ne.2 beq_eq_false_iff_ne.2)
  simp only [decodeBody, classify_psrReg h23 hb20 h74, decodePsrReg, hb21, hf]
  rfl

theorem decodeBody_msrImm_reserved {w : Word} (h23 : fieldOf w 23 5 = 0b00110#5) (h20 : fieldOf w 20 2 = 0b10#2)
    (h12 : fieldOf w 12 4 ≠ 0b1111#4) (c : Cond) : decodeBody w c = .error .reservedEncoding := by
  simp only [decodeBody, classify_psrImm h23 h20, decodePsrImm, beq_eq_false_iff_ne.2 h12]
  rfl

theorem decodeBody_singleTransfer {w : Word} (h26 : fieldOf w 26 2 = 0b01#2)
    (h : w.getLsbD 25 = false ∨ w.getLsbD 4 = false) (c : Cond) : decodeBody w c = .error .singleTransfer := by
  have h25 := fieldOf_25_3 w
  cases hb : w.getLsbD 25 with
  | false => simp only [decodeBody, classify, h25, h26, hb]; rfl
  | true =>
    have h4 := h.resolve_left (by rw [hb]; decide)
    simp only [decodeBody, classify, h25, h26, hb, h4]; rfl

theorem decodeBody_coprocessor {w : Word} (h : fieldOf w 25 3 = 0b110#3 ∨ fieldOf w 24 4 = 0b1110#4) (c : Cond) :
    decodeBody w c = .error .coprocessor := by
  rcases h with h25 | h24
  · simp only [decodeBody, classify, h25]; rfl
  · obtain ⟨h25, hb24⟩ := fields_of_fieldOf_24_4 h24
    simp only [decodeBody, classify, h25, hb24]; rfl

theorem regOf_inj {a b : BitVec 4} (h : regOf a = regOf b) : a = b := by
  rw [← regBits_regOf a, h, regBits_regOf]

theorem decodeBody_compareRd {w : Word} (hdp : isDataProcessingWord w) (h23 : fieldOf w 23 2 = 0b10#2)
    (h20 : w.getLsbD 20 = true) (h0 : fieldOf w 12 4 ≠ 0b0000#4) (h15 : fieldOf w 12 4 ≠ 0b1111#4) (c : Cond) :
    decodeBody w c = .error .compareRd := by
  rw [decodeBody_dataProcessing c hdp fun _ => h20]
  simp only [decodeDp]
  split
  · next op hop =>
    refine absurd ?_ (dp_opcode_hi op)
    rw [opcode_dp_bits hop, fieldOf_fieldOf (by decide)]; exact h23
  · have hne0 : (regOf (fieldOf w 12 4) == 0) = false := beq_eq_false_iff_ne.2 fun e => h0 (regOf_inj e)
    have hne15 : (regOf (fieldOf w 12 4) == 15) = false := beq_eq_false_iff_ne.2 fun e => h15 (regOf_inj e)
    rw [hne0, hne15]; rfl

theorem decodeBody_movRn {w : Word} (hdp : isDataProcessingWord w)
    (hop : fieldOf w 21 4 = 0b1101#4 ∨ fieldOf w 21 4 = 0b1111#4) (h16 : fieldOf w 16 4 ≠ 0b0000#4) (c : Cond) :
    decodeBody w c = .error .movRn := by
  have hs : compareSetsFlags w := by
    intro h23
    rw [← fieldOf_fieldOf (lo := 21) (n := 4) (k := 2) (by decide)] at h23
    rcases hop with e | e <;> rw [e] at h23 <;> cases h23
  have hrn : (regOf (fieldOf w 16 4) != 0) = true := bne_iff_ne.2 fun e => h16 (regOf_inj e)
  rw [decodeBody_dataProcessing c hdp hs]
  rcases hop with e | e <;> simp only [decodeDp, e, hrn] <;> rfl

/-- Settles O4: one lemma for each class of words, whatever the condition. -/
theorem outOfTableWordsRejected : Obligations.OutOfTableWordsRejected := by
  unfold Obligations.OutOfTableWordsRejected
  intro w
  refine ⟨fun hnv => Machine.decode_condNv ((cond_ofBits_none _).2 hnv), fun hc => ?_⟩
  have reject {r : Reject} (hb : ∀ c, decodeBody w c = .error r) : decode w = .error r := decode_of_body_error hc hb
  refine ⟨?_, ?_, ?_, ?_, ?_, ?_, ?_, ?_, ?_, ?_, ?_⟩
  · rintro ⟨h25, h44, h24⟩; exact reject (decodeBody_multiply h25 h44 h24)
  · rintro ⟨h25, h44, h23⟩; exact reject (decodeBody_swap h25 h44 h23)
  · rintro ⟨h25, h7, h4, h⟩; exact reject (decodeBody_halfword h25 h7 h4 h)
  · rintro ⟨h23, h20⟩; exact reject (decodeBody_unallocated h23 h20)
  · rintro ⟨h23, h20, h74, h⟩; exact reject (decodeBody_mrs_reserved h23 h20 h74 h)
  · rintro ⟨h23, h20, h74, h⟩; exact reject (decodeBody_msrReg_reserved h23 h20 h74 h)
  · rintro ⟨h23, h20, h12⟩; exact reject (decodeBody_msrImm_reserved h23 h20 h12)
  · rintro ⟨h26, h⟩; exact reject (decodeBody_singleTransfer h26 h)
  · exact fun h => reject (decodeBody_coprocessor h)
  · rintro ⟨hdp, h23, h20, h0, h15⟩; exact reject (decodeBody_compareRd hdp h23 h20 h0 h15)
  · rintro ⟨hdp, hop, h16⟩; exact reject (decodeBody_movRn hdp hop h16)

end Sys2Proof

/-! PROOF. The conditions (spec/30_encoding.md R91, R92) and operand 2: the immediate, the shift tables and the refusal of R15
(R96 to R98). Settles O8, O9, O16, O17, O18 and O25. -/

namespace Sys2Proof.Machine

open Sys2Proof.Stated

/-! ### Conditions -/

/-- Settles O8. -/
theorem conditionTable : Obligations.ConditionTable := by
  unfold Obligations.ConditionTable
  refine ⟨rfl, fun p => ?_⟩
  simp [condPassed]

/-- Settles O9. -/
theorem failedConditionOnlyAdvances : Obligations.FailedConditionOnlyAdvances := by
  unfold Obligations.FailedConditionOnlyAdvances
  intro i s hc hs
  rw [exec_failed i s hc]
  exact advance_sequential s s hs rfl rfl

/-! ### The immediate operand -/

/-- A bit of the immediate operand (R96). -/
theorem getLsbD_immValue (o : ImmOp) {k : Nat} (hk : k < 32) :
    (immValue o).getLsbD k =
      (decide ((k + 2 * o.rotate.toNat) % 32 < 8) && o.imm8.getLsbD ((k + 2 * o.rotate.toNat) % 32)) := by
  have hr : 2 * o.rotate.toNat < 32 := by have := o.rotate.isLt; omega
  rw [immValue, getLsbD_rotateRight_mod _ _ _ hr hk, BitVec.getLsbD_setWidth]
  by_cases h8 : (k + 2 * o.rotate.toNat) % 32 < 8
  · simp [h8, Nat.mod_lt]
  · simp only [h8, decide_false, BitVec.getLsbD_of_ge _ _ (Nat.le_of_not_lt h8), Bool.and_false]

/-- Settles O16. -/
theorem immediateOperandRotation : Obligations.ImmediateOperandRotation := by
  unfold Obligations.ImmediateOperandRotation
  intro o s
  exact ⟨fun k hk => getLsbD_immValue o hk, by simp [operand2, immOperand]⟩

/-! ### Shifts: for a nonzero amount, one equation for each type covers 1 to 31, 32 and above (R98) -/

theorem rotateRight_zero (m : Word) : m.rotateRight 0 = m :=
  BitVec.eq_of_getLsbD_eq fun i hi => by
    rw [getLsbD_rotateRight_mod m 0 i (by decide) hi, Nat.add_zero, Nat.mod_eq_of_lt hi]

/-- An arithmetic shift by 32 or more leaves copies of the sign. -/
theorem sshiftRight_of_32_le (m : Word) {n : Nat} (hn : 32 ≤ n) :
    m.sshiftRight n = if m.getLsbD 31 then 0xFFFFFFFF#32 else 0#32 := by
  have hmsb : m.msb = m.getLsbD 31 := BitVec.msb_eq_getLsbD_last m
  refine BitVec.eq_of_getLsbD_eq fun i hi => ?_
  rw [BitVec.getLsbD_sshiftRight, if_neg (by omega), hmsb, decide_eq_false (by omega)]
  cases m.getLsbD 31
  · simp
  · exact ((BitVec.getLsbD_allOnes (v := 32)).trans (decide_eq_true hi)).symm

theorem shiftByReg_lsl {n : Nat} (h : 0 < n) (m : Word) (cIn : Bool) :
    shiftByReg .lsl n m cIn = ⟨m <<< n, decide (n ≤ 32) && m.getLsbD (32 - n)⟩ := by
  rw [shiftByReg, if_neg (Nat.ne_of_gt h)]
  split
  · next hlt => rw [decide_eq_true (by omega), Bool.true_and]
  · next hge =>
    rw [BitVec.shiftLeft_eq_zero (by omega)]
    split
    · next h32 => rw [h32]; rfl
    · next hne => rw [decide_eq_false (by omega), Bool.false_and]

theorem shiftByReg_lsr {n : Nat} (h : 0 < n) (m : Word) (cIn : Bool) :
    shiftByReg .lsr n m cIn = ⟨m >>> n, decide (n ≤ 32) && m.getLsbD (n - 1)⟩ := by
  rw [shiftByReg, if_neg (Nat.ne_of_gt h)]
  split
  · next hlt => rw [decide_eq_true (by omega), Bool.true_and]
  · next hge =>
    rw [BitVec.ushiftRight_eq_zero (by omega)]
    split
    · next h32 => rw [h32]; rfl
    · next hne => rw [decide_eq_false (by omega), Bool.false_and]

theorem shiftByReg_asr {n : Nat} (h : 0 < n) (m : Word) (cIn : Bool) :
    shiftByReg .asr n m cIn = ⟨m.sshiftRight n, m.getLsbD (min (n - 1) 31)⟩ := by
  rw [shiftByReg, if_neg (Nat.ne_of_gt h)]
  split
  · next hlt => rw [min_eq_left (by omega)]
  · next hge => rw [min_eq_right (by omega), sshiftRight_of_32_le m (by omega)]

theorem shiftByReg_ror {n : Nat} (h : 0 < n) (m : Word) (cIn : Bool) :
    shiftByReg .ror n m cIn = ⟨m.rotateRight (n % 32), m.getLsbD ((n + 31) % 32)⟩ := by
  rw [shiftByReg, if_neg (Nat.ne_of_gt h)]
  split
  · next h0 => rw [h0, rotateRight_zero, show (n + 31) % 32 = 31 by omega]
  · next hne => rw [show (n + 31) % 32 = n % 32 - 1 by omega]

/-- From 1 to 31 the tables of R97 and R98 agree. -/
theorem shiftByImm_eq_shiftByReg (ty : ShiftType) {n : Nat} (h0 : 0 < n) (hn : n < 32) (m : Word) (cIn : Bool) :
    shiftByImm ty n m cIn = shiftByReg ty n m cIn := by
  cases ty <;> simp [shiftByImm, shiftByReg, Nat.ne_of_gt h0, hn, Nat.mod_eq_of_lt hn]

theorem toNat_shiftLeft_eq (m : Word) (n : Nat) : (m <<< n).toNat = m.toNat * 2 ^ n % 2 ^ 32 := by
  rw [BitVec.toNat_shiftLeft, Nat.shiftLeft_eq]

theorem toNat_ushiftRight_eq (m : Word) (n : Nat) : (m >>> n).toNat = m.toNat / 2 ^ n := by
  rw [BitVec.toNat_ushiftRight, Nat.shiftRight_eq_div_pow]

theorem toInt_sshiftRight_eq (m : Word) (n : Nat) : (m.sshiftRight n).toInt = m.toInt / 2 ^ n := by
  rw [BitVec.toInt_sshiftRight, Int.shiftRight_eq_div_pow]; norm_cast

/-- A rotation counts modulo 32. -/
theorem getLsbD_ror (m : Word) (n : Nat) {k : Nat} (hk : k < 32) :
    (m.rotateRight (n % 32)).getLsbD k = m.getLsbD ((k + n) % 32) := by
  rw [getLsbD_rotateRight_mod m _ k (Nat.mod_lt n (by decide)) hk, Nat.add_mod_mod]

/-- Settles O18: by the equation of each shift type, in plain arithmetic. -/
theorem registerShiftTable : Obligations.RegisterShiftTable := by
  unfold Obligations.RegisterShiftTable
  intro o s _ _ m n r
  have hr : r = shiftByReg o.ty n m s.cpsr.c := rfl
  clear_value r m n
  subst hr
  refine ⟨fun h0 => ?_, fun h0 ht => ?_, fun h0 ht => ?_, fun h0 ht => ?_, fun h0 ht => ?_⟩
  · unfold shiftByReg; exact if_pos h0
  · rw [ht, shiftByReg_lsl h0]
    exact ⟨toNat_shiftLeft_eq m n, rfl⟩
  · rw [ht, shiftByReg_lsr h0]
    exact ⟨toNat_ushiftRight_eq m n, rfl⟩
  · rw [ht, shiftByReg_asr h0]
    exact ⟨toInt_sshiftRight_eq m n, rfl⟩
  · rw [ht, shiftByReg_ror h0]
    exact ⟨fun k hk => getLsbD_ror m n hk, rfl⟩

/-- R32, R99: the value of Rm, as the statements write it. -/
theorem readRm_eq {s : State} (hal : unaligned s.pc = false) (r : RegNo) :
    readRm s r = if r = 15 then combinedPlus s 8#32 else readReg s (bankOf s.cpsr.m) r := by
  obtain ⟨-, h15, hr⟩ := operandRegisterReads s hal
  split
  · next h => rw [h, h15]
  · next h => exact (hr r h).2

/-- RRX (R97): the carry comes in at bit 31. -/
theorem getLsbD_rrx (b : Bool) (m : Word) :
    (∀ k, k < 31 → (BitVec.ofBool b ++ m.extractLsb' 1 31).getLsbD k = m.getLsbD (k + 1)) ∧
      (BitVec.ofBool b ++ m.extractLsb' 1 31).getLsbD 31 = b := by
  constructor
  · intro k hk
    rw [BitVec.getLsbD_append, if_pos hk, BitVec.getLsbD_extractLsb', decide_eq_true hk, Bool.true_and, Nat.add_comm]
  · rw [BitVec.getLsbD_append]
    simp

/-- Settles O17: amount 0 is the table's own row; from 1 to 31 the amounts are those of R98. -/
theorem immediateShiftTable : Obligations.ImmediateShiftTable := by
  unfold Obligations.ImmediateShiftTable
  intro o s hal m n r
  have hr : r = shiftByImm o.ty n m s.cpsr.c := by
    show shiftByImm _ _ (readRm s o.rm) _ = _
    rw [readRm_eq hal]
  have hn : n < 32 := o.amount.isLt
  clear_value r m n
  subst hr
  have h32 : decide (n ≤ 32) = true := decide_eq_true (by omega)
  refine ⟨fun ht h0 => ?_, fun ht h0 => ?_, fun ht h0 => ?_, fun ht h0 => ?_, fun ht h0 => ?_, fun ht h0 => ?_,
    fun ht h0 => ?_, fun ht h0 => ?_⟩
  · rw [ht, h0]; rfl
  · rw [ht, shiftByImm_eq_shiftByReg _ h0 hn, shiftByReg_lsl h0, h32, Bool.true_and]
    exact ⟨toNat_shiftLeft_eq m n, rfl⟩
  · rw [ht, h0]; rfl
  · rw [ht, shiftByImm_eq_shiftByReg _ h0 hn, shiftByReg_lsr h0, h32, Bool.true_and]
    exact ⟨toNat_ushiftRight_eq m n, rfl⟩
  · rw [ht, h0]; rfl
  · rw [ht, shiftByImm_eq_shiftByReg _ h0 hn, shiftByReg_asr h0, min_eq_left (by omega)]
    exact ⟨toInt_sshiftRight_eq m n, rfl⟩
  · rw [ht, h0]
    exact ⟨(getLsbD_rrx s.cpsr.c m).1, (getLsbD_rrx s.cpsr.c m).2, rfl⟩
  · rw [ht, shiftByImm_eq_shiftByReg _ h0 hn, shiftByReg_ror h0, show (n + 31) % 32 = n - 1 by omega]
    exact ⟨fun k hk => getLsbD_ror m n hk, rfl⟩

/-! ### R15 with a register-specified shift -/

theorem r15WithRegShift_of_field {o : RegShiftOp} {fields : List RegNo}
    (h : o.rm = 15 ∨ o.rs = 15 ∨ 15 ∈ fields) : r15WithRegShift (.regShift o) fields = true := by
  simpa [r15WithRegShift, or_assoc] using h

theorem dataProc_r15WithRegShift {op : DpOp} {c : Cond} {sb : Bool} {rd rn : RegNo} {o : Operand2} {s : State}
    (hc : condPassed c s.cpsr = true) (h : r15WithRegShift o [rd, rn] = true) :
    dataProc op c sb rd rn o s = .refused .r15WithRegisterShift := by
  rw [dataProc, whenPassed_passed c s _ hc, if_pos h]

theorem compare_r15WithRegShift {op : CmpOp} {c : Cond} {rn : RegNo} {o : Operand2} {s : State}
    (hc : condPassed c s.cpsr = true) (h : r15WithRegShift o [rn] = true) :
    compare op c rn o s = .refused .r15WithRegisterShift := by
  rw [compare, whenPassed_passed c s _ hc, if_pos h]

theorem compareP_r15WithRegShift {op : CmpOp} {c : Cond} {rn : RegNo} {o : Operand2} {s : State}
    (hc : condPassed c s.cpsr = true) (h : r15WithRegShift o [15, rn] = true) :
    compareP op c rn o s = .refused .r15WithRegisterShift := by
  rw [compareP, whenPassed_passed c s _ hc, if_pos h]

/-- Settles O25: the check of R15 comes first in each of the three families; the Rd field of a P form is R15 itself. -/
theorem registerShiftWithR15Refused : Obligations.RegisterShiftWithR15Refused := by
  unfold Obligations.RegisterShiftWithR15Refused
  intro i c o s hc
  refine ⟨fun op sb rd rn hi hr => ?_, fun op rn hi hr => ?_, fun op rn hi => ?_⟩
  · rw [exec_dp i op c sb rd rn _ hi s]
    exact dataProc_r15WithRegShift hc (r15WithRegShift_of_field (by simp only [List.mem_cons]; tauto))
  · rw [exec_cmp i op false c rn _ hi s]
    exact compare_r15WithRegShift hc (r15WithRegShift_of_field (by simp only [List.mem_cons]; tauto))
  · rw [exec_cmp i op true c rn _ hi s]
    exact compareP_r15WithRegShift hc (r15WithRegShift_of_field (by simp))

end Sys2Proof.Machine

/-! PROOF. Compares and their P forms (spec/40_compare_p.md R131 to R141): the model's adder against plain arithmetic, the
PSR that R33 writes in a 26-bit mode, and the BankHazard that R298 leaves. Settles O26, O27 and O28. -/

namespace Sys2Proof.Machine

open Sys2Proof.Stated

/-! ### The result and the flags of a compare -/

theorem cmpCompute_value (op : CmpOp) (a b : Word) (p : Psr) (sc : Bool) :
    (cmpCompute op a b p sc).value = cmpValue op a b := by
  cases op with
  | tst | teq => rfl
  | cmp => simp [cmpCompute, arith, cmpValue, addWithCarry_not_value]
  | cmn => simp [cmpCompute, arith, cmpValue, addWithCarry_value]

theorem cmpCompute_psr (op : CmpOp) (a b : Word) (p : Psr) (sc : Bool) :
    (cmpCompute op a b p sc).psr = cmpFlags op a b p sc := by
  cases op with
  | tst | teq => rfl
  | cmp =>
    simp [cmpCompute, arith, setArithFlags, cmpFlags, cmpValue, signedOverflow, addWithCarry_not_value,
      addWithCarry_not_carry, addWithCarry_not_ovf]
  | cmn =>
    have carry : (addWithCarry a b false).carry = decide (2 ^ 32 ≤ a.toNat + b.toNat) := rfl
    simp [cmpCompute, arith, setArithFlags, cmpFlags, cmpValue, signedOverflow, addWithCarry_value, carry,
      addWithCarry_ovf]

/-- Settles O26: the compare is not refused, its flags are those of plain arithmetic, and the PC advances. -/
theorem compareResult : Obligations.CompareResult := by
  unfold Obligations.CompareResult
  intro i op c rn o s hi hc hr hs
  have hrun : exec i s = advance s.cpsr.m
      { s with cpsr := cmpFlags op (readRn s rn) (operand2 s o).value s.cpsr (operand2 s o).carry } := by
    simp [exec_cmp i op false c rn o hi, compare, whenPassed_passed, hc, hr, cmpCompute_psr]
  rw [hrun]
  exact advance_sequential s _ hs rfl rfl

/-! ### The P forms -/

theorem r15WithRegShift_of_ne_regShift {o : Operand2} (h : ∀ r, o ≠ .regShift r) (fields : List RegNo) :
    r15WithRegShift o fields = false := by
  cases o with
  | imm | immShift => rfl
  | regShift r => exact absurd rfl (h r)

/-- In a 26-bit mode the user mode is mode 0 and M[4:2] is zero, so that R33 writes what the statement's PSR holds. -/
theorem write26_eq_psrFrom26 {p : Psr} (v : Word) (h26 : is26 p.m = true) (hm : isMode p.m = true) :
    p.write26 v = psrFrom26 p v := by
  have hmode : isUser p.m = decide (p.m = 0b00000#5) ∧ p.m.extractLsb' 2 3 = 0b000#3 := by
    generalize p.m = m at *
    revert m; decide
  obtain ⟨huser, hhigh⟩ := hmode
  rw [Psr.write26, psrFrom26, huser, hhigh]
  by_cases h0 : p.m = 0b00000#5 <;> simp [h0, Psr.withFlags]

/-- R298 for an instruction that has written the CPSR and nothing else. -/
theorem noteModeChange_eq_hazardAfter (s : State) (q : Psr) :
    noteModeChange s.cpsr.m { s with cpsr := q } = { s with cpsr := q, bankHazard := hazardAfter s q.m } := by
  by_cases hb : bankOf s.cpsr.m = bankOf q.m <;> by_cases hp : s.platform.modeChangeBankHazard = true <;>
    simp [noteModeChange, hazardAfter, curBank, hb, hp]

/-- Settles O27: R33 keeps the width of the mode, so the PC advances. -/
theorem pFormResult : Obligations.PFormResult := by
  unfold Obligations.PFormResult
  intro i op c rn o s hi ho hc hs h26 hm v
  have hrun : exec i s = advance s.cpsr.m
      { s with cpsr := psrFrom26 s.cpsr v, bankHazard := hazardAfter s (psrFrom26 s.cpsr v).m } := by
    simp [exec_cmp i op true c rn o hi, compareP, whenPassed_passed, hc, r15WithRegShift_of_ne_regShift ho, h26,
      cmpCompute_value, write26_eq_psrFrom26 _ h26 hm, noteModeChange_eq_hazardAfter, v]
  have hwidth : is26 (psrFrom26 s.cpsr v).m = is26 s.cpsr.m := by
    rw [← write26_eq_psrFrom26 v h26 hm, (write26_mode s.cpsr v hm h26).2, h26]
  rw [hrun]
  exact advance_sequential s _ hs rfl hwidth

/-- Settles O28: with no register-specified shift, a P form is refused by its check of the mode. -/
theorem pFormRefusedIn32BitMode : Obligations.PFormRefusedIn32BitMode := by
  unfold Obligations.PFormRefusedIn32BitMode
  intro i op c rn o s hi ho hc h32
  simp [exec_cmp i op true c rn o hi, compareP, whenPassed_passed, hc, r15WithRegShift_of_ne_regShift ho, h32]

end Sys2Proof.Machine

/-! PROOF. Data processing (spec/41_data_processing_r15.md R150 to R167): the result and the flags in plain arithmetic, R15 as
the destination in both widths of mode (R152 to R154), and the return from a trap (R265). Settles O21, O22, O23, O24 and O51. -/

namespace Sys2Proof.Machine

open Sys2Proof.Stated

/-! ### The result and the flags -/

/-- R155 to R167: the model's adder gives the results and the flags of plain arithmetic. -/
theorem dpCompute_eq (op : DpOp) (a b : Word) (p : Psr) (sc : Bool) :
    dpCompute op a b p sc = { value := dpValue op a b p.c, psr := dpFlags op a b p sc } := by
  cases op with
  | and | eor | orr | mov | bic | mvn => rfl
  | sub | rsb | sbc | rsc =>
    simp [dpCompute, arith, setArithFlags, dpFlags, dpValue, dpCarry, dpOverflow, signedOverflow, addWithCarry_not_value,
      addWithCarry_not_carry, addWithCarry_not_ovf]
  | add | adc =>
    have hcarry : ∀ c, (addWithCarry a b c).carry = decide (2 ^ 32 ≤ a.toNat + b.toNat + c.toNat) := fun _ => rfl
    simp [dpCompute, arith, setArithFlags, dpFlags, dpValue, dpCarry, dpOverflow, signedOverflow, addWithCarry_value,
      hcarry, addWithCarry_ovf]

/-- A data-processing instruction that runs writes the result and the flags of plain arithmetic (R150). -/
theorem exec_dp_passed {i : Instr} {op : DpOp} {c : Cond} {sb : Bool} {rd rn : RegNo} {o : Operand2} {s : State}
    (hi : i.form = .dp op c sb rd rn o) (hc : condPassed c s.cpsr = true) (hr : r15WithRegShift o [rd, rn] = false) :
    exec i s = writeResult sb rd
      { value := dpValue op (readRn s rn) (operand2 s o).value s.cpsr.c
        psr := dpFlags op (readRn s rn) (operand2 s o).value s.cpsr (operand2 s o).carry } s := by
  rw [exec_dp i op c sb rd rn o hi, dataProc, whenPassed_passed c s _ hc, hr, ← dpCompute_eq]
  rfl

/-- Settles O21: the destination is no R15, so the PC advances, and the flag setting keeps the mode. -/
theorem dataProcessingResult : Obligations.DataProcessingResult := by
  unfold Obligations.DataProcessingResult
  intro i op c sb rd rn o s hi hc hrd hr hs
  rw [exec_dp_passed hi hc hr, writeResult, if_neg hrd]
  exact advance_sequential s _ hs (setX_pc s rd _) (by cases sb <;> rfl)

/-! ### The PC as a destination -/

/-- R24, R25: an instruction of a 26-bit mode writes a word address of the 26-bit space. -/
theorem jump_from26 {m : ModeBits} (v : Word) (s : State) (hm : is26 m = true) :
    jump m v s = .next { s with pc := trunc26 v } := by
  simp [jump, hm]

/-- R25: an instruction of a 32-bit mode writes an aligned address, and enters a 26-bit mode inside the 26-bit space only. -/
theorem jump_from32 {m : ModeBits} (v : Word) (s : State) (hm : is26 m = false) :
    jump m v s =
      if is26 s.cpsr.m && (outside26 v || outside26 s.pc) then .refused .enter26Outside26bitSpace
      else if unaligned v then .refused .pcUnaligned32
      else .next { s with pc := v } := by
  cases h : is26 s.cpsr.m <;> simp [jump, hm, h]

/-- The bits that a 26-bit mode drops from an address (R33), as fields. -/
theorem trunc26_eq_fields (v : Word) : trunc26 v = 0#6 ++ v.extractLsb' 2 24 ++ 0#2 := by
  refine BitVec.eq_of_getLsbD_eq fun k hk => ?_
  rw [trunc26, BitVec.getLsbD_and, getLsbD_mask26 k hk]
  simp only [BitVec.getLsbD_append, BitVec.getLsbD_extractLsb', BitVec.getLsbD_zero]
  grind

theorem pcFrom_of_26 {s : State} (v : Word) (h26 : is26 s.cpsr.m = true) : pcFrom s v = trunc26 v := by
  rw [pcFrom, if_pos h26, trunc26_eq_fields]

theorem pcFrom_of_32 {s : State} (v : Word) (h32 : is26 s.cpsr.m = false) : pcFrom s v = v := by
  rw [pcFrom, h32]; rfl

/-- Settles O22: a jump within the width of the mode. -/
theorem dataProcessingToPc : Obligations.DataProcessingToPc := by
  unfold Obligations.DataProcessingToPc
  intro i op c rn o s hi hc hr v
  have hrun : exec i s = jump s.cpsr.m v s := exec_dp_passed hi hc hr
  rw [hrun]
  cases hw : is26 s.cpsr.m with
  | true => exact ⟨fun _ => by rw [jump_from26 v s hw, pcFrom_of_26 v hw], nofun⟩
  | false =>
    rw [jump_from32 v s hw, pcFrom_of_32 v hw]
    refine ⟨fun h => ?_, fun _ h => ?_⟩
    · have hal : v.extractLsb' 0 2 = 0#2 := by simpa using h
      simp [hw, unaligned, hal]
    · simp [hw, unaligned, h]

/-- Settles O23: R33 writes the PSR, and the jump starts in a 26-bit mode. -/
theorem dataProcessingToPcAndPsr26 : Obligations.DataProcessingToPcAndPsr26 := by
  unfold Obligations.DataProcessingToPcAndPsr26
  intro i op c rn o s hi hc hr h26 hm v
  have hrun : exec i s = writeR15S v s := exec_dp_passed hi hc hr
  rw [hrun, writeR15S, if_pos h26, jump_from26 v _ h26, write26_eq_psrFrom26 v h26 hm, pcFrom_of_26 v h26]

/-! ### The exception return -/

/-- A mode with an SPSR is no user mode, so that the return is decided by the SPSR's mode number (R154). -/
theorem exceptionReturn_of_spsr {s : State} {p : Psr} (v : Word) (hp : getSpsr s (curBank s) = some p) :
    exceptionReturn v s =
      if isMode p.m then jump s.cpsr.m v { s with cpsr := p } else .refused .illegalModeValue := by
  have hu : isUser s.cpsr.m = false := by
    by_contra hu
    have hbank : curBank s = .usr := by
      unfold curBank
      generalize s.cpsr.m = m at hu
      revert m; decide
    rw [hbank] at hp
    cases hp
  rw [exceptionReturn, hu, hp]
  rfl

/-- Settles O24: the check of User32, then the SPSR's mode number, then the checks of R25. -/
theorem dataProcessingExceptionReturn : Obligations.DataProcessingExceptionReturn := by
  unfold Obligations.DataProcessingExceptionReturn
  intro i op c rn o s hi hc hr h32 _ v
  have hrun : exec i s = exceptionReturn v s := by
    have hwrite : exec i s = writeR15S v s := exec_dp_passed hi hc hr
    rw [hwrite, writeR15S, h32]; rfl
  rw [hrun]
  refine ⟨fun hu => ?_, fun p hp => ?_⟩
  · rw [exceptionReturn, hu]; rfl
  rw [exceptionReturn_of_spsr v hp]
  refine ⟨fun hm => ?_, fun hm h26 hout => ?_, fun hm hin => ?_⟩
  · rw [hm]; rfl
  · rw [if_pos hm, jump_from32 v _ h32]
    simp [h26, outside26, hout]
  · have hspace : (is26 p.m && (outside26 v || outside26 s.pc)) = false := by
      cases hw : is26 p.m with
      | false => rfl
      | true => simp [outside26, hin hw]
    rw [if_pos hm, jump_from32 v _ h32, hspace]
    exact ⟨fun hal => by simp [unaligned, hal], fun hal => by simp [unaligned, hal]⟩

/-! ### The return from a trap -/

/-- A SWI, IMB, IMBRange or undefined instruction that runs enters its exception with the address after it as the link (R253),
the IMBs after the flush. -/
theorem exec_trap_passed {i : Instr} {s : State}
    (hi : ∃ c, (∃ n, i = .swi c n) ∨ i = .imb c ∨ i = .imbRange c ∨ ∃ hi lo, i = .undefined c hi lo)
    (hc : condPassed i.form.cond s.cpsr = true) :
    ∃ e u, (u = s ∨ u = imbFlush s) ∧ exec i s = .next (enter e (addressPlus s 4#32) u) := by
  rw [← r15pc_eq_addressPlus]
  obtain ⟨c, ⟨n, rfl⟩ | rfl | rfl | ⟨hi, lo, rfl⟩⟩ := hi
  · refine ⟨.swi, if n == imbComment || n == imbRangeComment then imbFlush s else s, ?_, ?_⟩
    · split
      · exact .inr rfl
      · exact .inl rfl
    · refine (whenPassed_passed c s _ hc).trans ?_
      split <;> rfl
  · exact ⟨.swi, imbFlush s, .inr rfl, exec_imb_passed (.inl rfl) hc⟩
  · exact ⟨.swi, imbFlush s, .inr rfl, exec_imb_passed (.inr rfl) hc⟩
  · exact ⟨.undefined, s, .inl rfl, whenPassed_passed c s _ hc⟩

/-- The address after the instruction is one that R25 lets an exception return reach: aligned, and inside the 26-bit space
when the instruction ran in a 26-bit mode. -/
theorem addressPlus_four_legal {s : State} (h : unaligned s.pc = false) :
    unaligned (addressPlus s 4#32) = false ∧ (is26 s.cpsr.m = true → outside26 (addressPlus s 4#32) = false) := by
  have hal : unaligned (s.pc + 4#32) = false := unaligned_add h (by decide)
  cases hw : is26 s.cpsr.m with
  | true =>
    have htrunc : addressPlus s 4#32 = trunc26 (s.pc + 4#32) := by
      rw [addressPlus, if_pos hw, address26_of_aligned hal, trunc26_eq_fields]
    simp [htrunc]
  | false =>
    have hplain : addressPlus s 4#32 = s.pc + 4#32 := by rw [addressPlus, hw]; rfl
    exact ⟨by rwa [hplain], nofun⟩

theorem exc_mode_is32 (e : Exc) : is26 e.mode = false := by cases e <;> decide

theorem exc_vector_inside (e : Exc) : outside26 e.vector = false := by cases e <;> decide

/-- `MOVS PC, R14` in a 32-bit mode with the saved CPSR in its SPSR and a legal address in R14 (R265). -/
theorem exec_movsPcR14 {t : State} {p : Psr} {v : Word} (h32 : is26 t.cpsr.m = false) (hmode : isMode t.cpsr.m = true)
    (hp : getSpsr t (bankOf t.cpsr.m) = some p) (hpm : isMode p.m = true) (hv : getX t 14 = v)
    (hal : unaligned v = false) (hin : is26 p.m = true → outside26 v = false ∧ outside26 t.pc = false) :
    exec (.movImmShift .al true 15 ⟨0#5, .lsl, 14⟩) t = .next { t with cpsr := p, pc := v } := by
  obtain ⟨-, hret⟩ := dataProcessingExceptionReturn (.movImmShift .al true 15 ⟨0#5, .lsl, 14⟩) .mov .al 0
    (.immShift ⟨0#5, .lsl, 14⟩) t rfl rfl rfl h32 hmode
  obtain ⟨-, -, hret⟩ := hret p hp
  have hal' : v.extractLsb' 0 2 = 0#2 := by simpa [unaligned] using hal
  have hin' : is26 p.m = true → v.extractLsb' 26 6 = 0#6 ∧ t.pc.extractLsb' 26 6 = 0#6 := by simpa [outside26] using hin
  subst hv
  exact (hret hpm hin').1 hal'

/-- Settles O51: the entry leaves the old CPSR in the SPSR and the address after the instruction in R14 of the entered mode,
from where the exception return takes them. -/
theorem exceptionReturnRestores : Obligations.ExceptionReturnRestores := by
  unfold Obligations.ExceptionReturnRestores
  intro i s t hs hc hi ht
  obtain ⟨hmode, hal, -⟩ := hs
  obtain ⟨e, u, hu, hrun⟩ := exec_trap_passed hi hc
  obtain rfl : enter e (addressPlus s 4#32) u = t := by rw [hrun] at ht; exact Host.Outcome.next.inj ht
  have hcpsr : u.cpsr = s.cpsr := by obtain rfl | rfl := hu <;> rfl
  obtain ⟨-, -, hlink, hspsr, -⟩ := enter_entered e (addressPlus s 4#32) u
  obtain ⟨hal4, hin4⟩ := addressPlus_four_legal hal
  rw [hcpsr] at hspsr
  exact exec_movsPcR14 (exc_mode_is32 e) (exc_mode_isMode e) hspsr hmode hlink hal4
    fun h26 => ⟨hin4 h26, exc_vector_inside e⟩

end Sys2Proof.Machine

/-! PROOF. Block transfers (spec/42_block_transfer.md R180 to R190): the refused forms (R187, R189), the registers after the
loads of an LDM and after its Data Abort, the ways an LDM writes R15 (R184 to R186), an STM whose stores all complete, and
the frame of both. Settles O29, O30, O31, O32, O33, O34, O35 and O54. -/

namespace Sys2Proof.Machine

open Sys2Proof.Stated

/-! ### The refused forms -/

theorem isUser_iff (m : ModeBits) : isUser m = true ↔ m = 0b00000#5 ∨ m = 0b10000#5 := by simp [isUser]

theorem userBankTransfer_iff (l : Bool) (o : BlockOp) :
    userBankTransfer l o = true ↔ o.s = true ∧ ¬(l = true ∧ o.list.getLsbD 15 = true) := by
  cases l <;> simp [userBankTransfer]

/-- A listed register stands below the base exactly when the base's place in the list is not the first. -/
theorem lowerListed_iff (o : BlockOp) : lowerListed o = true ↔ rank o.list o.rn.val ≠ 0 := by
  simp only [lowerListed, List.any_eq_true, mem_listedRegs, decide_eq_true_eq, rank, ne_eq, List.length_eq_zero_iff,
    List.filter_eq_nil_iff, List.mem_range, not_forall, not_not]
  constructor
  · rintro ⟨i, hi, hlt⟩
    exact ⟨i.val, hlt, hi⟩
  · rintro ⟨j, hlt, hj⟩
    exact ⟨⟨j, by omega⟩, hj, hlt⟩

/-- The check of R189 with its conditions as the statements write them. -/
theorem blockRefusal_eq (l : Bool) (o : BlockOp) (m : ModeBits) :
    blockRefusal l o m =
      if o.list = 0#16 then some .ldmStmEmptyList
      else if o.rn = 15 then some .ldmStmBaseR15
      else if l = true ∧ o.w = true ∧ o.list.getLsbD o.rn.val = true then some .ldmBaseInListWriteback
      else if l = false ∧ o.w = true ∧ o.list.getLsbD o.rn.val = true ∧ rank o.list o.rn.val ≠ 0 then
        some .stmBaseInListWriteback
      else if (o.s = true ∧ ¬(l = true ∧ o.list.getLsbD 15 = true)) ∧ (m = 0b00000#5 ∨ m = 0b10000#5) then
        some .userBankTransferInUserMode
      else if (o.s = true ∧ ¬(l = true ∧ o.list.getLsbD 15 = true)) ∧ o.w = true then
        some .userBankTransferWithWriteback
      else if l = true ∧ o.s = true ∧ o.list.getLsbD 15 = true ∧ m = 0b10000#5 then some .noSpsrInUser32
      else none := by
  simp only [blockRefusal, Bool.and_eq_true, Bool.not_eq_true', beq_iff_eq, and_assoc, userBankTransfer_iff,
    lowerListed_iff, isUser_iff]

/-- A refused form is refused when its condition passes. -/
theorem exec_block_refused {l : Bool} {c : Cond} {o : BlockOp} {s : State} {r : Refusal}
    (hc : condPassed c s.cpsr = true) (hr : blockRefusal l o s.cpsr.m = some r) :
    exec (if l then .ldm c o else .stm c o) s = .refused r := by
  cases l
  all_goals
    refine (whenPassed_passed c s _ hc).trans ?_
    rw [hr]

/-- Settles O29: the check answers the statement's chain, and its answer is the instruction's. -/
theorem blockTransferRefusals : Obligations.BlockTransferRefusals := by
  unfold Obligations.BlockTransferRefusals
  intro l c o s hc i userBank user
  have hrun : ∀ r, blockRefusal l o s.cpsr.m = some r → exec i s = .refused r := fun r => exec_block_refused hc
  rw [blockRefusal_eq] at hrun ⊢
  split_ifs at hrun ⊢
  case neg => rfl
  all_goals exact hrun _ rfl

/-! ### What a form that is not refused has -/

/-- The base of an LDM that is written back is not listed. -/
theorem base_not_listed_of_not_refused {o : BlockOp} {m : ModeBits} (h : blockRefusal true o m = none) (hw : o.w = true) :
    o.list.getLsbD o.rn.val = false := by
  by_contra hl
  rw [blockRefusal_eq] at h
  split_ifs at h with _ _ hldm
  exact hldm ⟨rfl, hw, by simpa using hl⟩

/-- A transfer with write-back uses the bank of the current mode. -/
theorem blockBank_of_writeBack {load : Bool} {o : BlockOp} {s : State} (h : blockRefusal load o s.cpsr.m = none)
    (hw : o.w = true) : blockBank load o s = curBank s := by
  rw [blockRefusal_eq] at h
  split_ifs at h with _ _ _ _ _ huser
  rw [blockBank, if_neg fun hu => huser ⟨(userBankTransfer_iff load o).1 hu, hw⟩]

/-- With R15 listed an LDM loads the bank of the current mode. -/
theorem blockBank_ldm_of_r15 {o : BlockOp} (s : State) (h15 : o.list.getLsbD 15 = true) :
    blockBank true o s = curBank s := by
  rw [blockBank, userBankTransfer, h15]; simp

/-! ### Write-back -/

/-- The base after a write-back. -/
theorem readReg_writeBack {o : BlockOp} (wb : Word) (s : State) (hw : o.w = true) (hrn : o.rn ≠ 15) :
    readReg (writeBack o wb s) (curBank s) o.rn = wb := by
  rw [writeBack, if_pos hw, setX, readReg_writeReg_same _ _ _ _ hrn]

/-- Another register of the bank after a write-back, and any register where there is none. -/
theorem readReg_writeBack_other {o : BlockOp} {b : Bank} {i : RegNo} {wb : Word} {s : State}
    (h : o.w = true → o.rn ≠ i ∧ b = curBank s) : readReg (writeBack o wb s) b i = readReg s b i := by
  unfold writeBack
  split
  · next hw =>
    obtain ⟨hne, rfl⟩ := h hw
    exact readReg_writeReg_other s _ _ _ _ hne
  · rfl

/-- A physical register that no write-back reaches keeps its value. -/
theorem writeBack_frame {o : BlockOp} {p : PhysReg} (wb : Word) (s : State)
    (h : o.w = true → physReg (curBank s) o.rn ≠ some p) : (writeBack o wb s).regs[p] = s.regs[p] := by
  unfold writeBack
  split
  · next hw => exact writeReg_frame s _ _ _ p (h hw)
  · rfl

/-! ### The words that an LDM reads -/

/-- The words of an LDM, up to the first read that aborts (R182). -/
def ldmWords (s : State) (o : BlockOp) : List Word :=
  loadWords s (listedRegs o.list).length (blockStart o (getX s o.rn))

/-- The registers that an LDM loads, each with its word. -/
def ldmLoads (s : State) (o : BlockOp) : List (RegNo × Word) := (listedRegs o.list).zip (ldmWords s o)

theorem listedRegs_length_eq_count (list : BitVec 16) : (listedRegs list).length = count list := listedRegs_length list

/-- The place of a listed register is one of the list's. -/
theorem rank_lt_count {list : BitVec 16} {i : RegNo} (h : list.getLsbD i.val = true) : rank list i.val < count list := by
  rw [← listedRegs_length_eq_count]
  exact (List.getElem?_eq_some_iff.1 (listedRegs_getElem list i h)).1

/-- The virtual word of the `k`-th read, as the statements write it. -/
theorem wordAddr_blockStart_add (s : State) (o : BlockOp) (k : Nat) :
    wordAddr (blockStart o (getX s o.rn) + BitVec.ofNat 32 (4 * k)) = virtAt s o k := by
  rw [blockStart_add]; rfl

theorem ldmWords_length_of_reach {s : State} {o : BlockOp} (h : readsReach s o) :
    (ldmWords s o).length = count o.list := by
  rw [← listedRegs_length_eq_count]
  refine loadWords_complete s _ _ fun k hk => ?_
  rw [wordAddr_blockStart_add]
  exact h k (by rwa [← listedRegs_length_eq_count])

theorem ldmWords_length_of_abort {s : State} {o : BlockOp} {k : Nat} (hk : k < count o.list)
    (ha : aborts s .dataRead (virtAt s o k) = true) (hfirst : ∀ j, j < k → aborts s .dataRead (virtAt s o j) = false) :
    (ldmWords s o).length = k := by
  refine loadWords_abort s _ k _ (by rwa [listedRegs_length_eq_count]) (fun j hj => ?_) ?_
  · rw [wordAddr_blockStart_add]; exact hfirst j hj
  · rw [wordAddr_blockStart_add]; exact ha

theorem ldmWords_getElem? {s : State} {o : BlockOp} {k : Nat} (h : k < (ldmWords s o).length) :
    (ldmWords s o)[k]? = some (readWord s (wordAt s o k)) := by
  rw [← translate_blockStart_add]
  exact loadWords_getElem s _ _ k h

/-- A listed register is loaded with the word of its address, when the reads come that far, and no other register is. -/
theorem mem_ldmLoads_iff {s : State} {o : BlockOp} {i : RegNo} {v : Word} :
    (i, v) ∈ ldmLoads s o ↔
      o.list.getLsbD i.val = true ∧ rank o.list i.val < (ldmWords s o).length ∧ v = loadedFor s o i.val := by
  simp only [ldmLoads, List.mem_iff_getElem?, List.getElem?_zip_eq_some]
  constructor
  · rintro ⟨k, hi, hv⟩
    obtain ⟨hbit, hrank : rank o.list i.val = k⟩ := listedBelow_of_getElem o.list k i hi
    have hk : k < (ldmWords s o).length := (List.getElem?_eq_some_iff.1 hv).1
    rw [ldmWords_getElem? hk, Option.some.injEq] at hv
    exact ⟨hbit, hrank ▸ hk, by rw [← hv, loadedFor, hrank]⟩
  · rintro ⟨hbit, hk, rfl⟩
    exact ⟨rank o.list i.val, listedRegs_getElem o.list i hbit, ldmWords_getElem? hk⟩

/-- No register is loaded twice. -/
theorem ldmLoads_nodup (s : State) (o : BlockOp) : ((ldmLoads s o).map Prod.fst).Nodup := by
  rw [ldmLoads, List.zip_eq_zip_take_min, List.map_fst_zip (by simp)]
  exact (listedRegs_nodup o.list).sublist (List.take_sublist _ _)

/-- R15 is the last register of the list, so that its word is the last one read. -/
theorem ldmWords_getLastD {s : State} {o : BlockOp} (h15 : o.list.getLsbD 15 = true) (h : readsReach s o) :
    (ldmWords s o).getLastD 0#32 = loadedFor s o 15 := by
  have hlast : count o.list = rank o.list 15 + 1 := by
    simp [count, rank, List.range_succ (n := 15), List.filter_append, h15]
  have hlen := ldmWords_length_of_reach h
  rw [List.getLastD_eq_getLast?, List.getLast?_eq_getElem?, ldmWords_getElem? (by omega), loadedFor, hlen, hlast]
  rfl

/-! ### The state after the loads -/

/-- The state after the loads and the write-back of an LDM (R182). -/
def ldmLoaded (s : State) (o : BlockOp) : State :=
  writeBack o (blockWriteBack o (getX s o.rn)) (loadRegs (blockBank true o s) s (ldmLoads s o))

/-- The state of an LDM that aborts, before the exception entry (R190). -/
def ldmAborted (s : State) (o : BlockOp) : State :=
  setX (drawLoads (blockBank true o s) s (ldmLoads s o)) o.rn (abortedBase s o)

/-- An LDM that runs: R15 or the next instruction after its loads, or the Data Abort. -/
theorem exec_ldm_passed {c : Cond} {o : BlockOp} {s : State} (hc : condPassed c s.cpsr = true)
    (hr : blockRefusal true o s.cpsr.m = none) :
    exec (.ldm c o) s =
      if (ldmWords s o).length < count o.list then .next (enter .dataAbort (addressPlus s 8#32) (ldmAborted s o))
      else ldmFinish o ((ldmWords s o).getLastD 0#32) (ldmLoaded s o) := by
  rw [ldmAborted, ← abortBase_eq_setX o (s := s) (by rw [drawLoads_eq]), ← listedRegs_length_eq_count,
    ← r15pc_eq_addressPlus]
  refine (whenPassed_passed c s _ hc).trans ?_
  rw [hr]; rfl

theorem exec_ldm_of_reach {c : Cond} {o : BlockOp} {s : State} (hc : condPassed c s.cpsr = true)
    (hr : blockRefusal true o s.cpsr.m = none) (h : readsReach s o) :
    exec (.ldm c o) s = ldmFinish o ((ldmWords s o).getLastD 0#32) (ldmLoaded s o) := by
  rw [exec_ldm_passed hc hr, ldmWords_length_of_reach h, if_neg (lt_irrefl _)]

/-- With R15 listed an LDM ends with the write of R15 (R184 to R186). -/
theorem exec_ldm_r15 {c : Cond} {o : BlockOp} {s : State} (hc : condPassed c s.cpsr = true)
    (hr : blockRefusal true o s.cpsr.m = none) (h15 : o.list.getLsbD 15 = true) (h : readsReach s o) :
    exec (.ldm c o) s =
      if o.s then writeR15S (loadedFor s o 15) (ldmLoaded s o)
      else jump (ldmLoaded s o).cpsr.m (loadedFor s o 15) (ldmLoaded s o) := by
  rw [exec_ldm_of_reach hc hr h, ldmWords_getLastD h15 h, ldmFinish, if_pos h15]

/-- The loads and the write-back change registers alone. -/
theorem ldmLoaded_eq (s : State) (o : BlockOp) : ldmLoaded s o = { s with regs := (ldmLoaded s o).regs } := by
  rw [ldmLoaded, writeBack_eq, loadRegs_eq]

@[simp] theorem ldmLoaded_pc (s : State) (o : BlockOp) : (ldmLoaded s o).pc = s.pc := by rw [ldmLoaded_eq]
@[simp] theorem ldmLoaded_cpsr (s : State) (o : BlockOp) : (ldmLoaded s o).cpsr = s.cpsr := by rw [ldmLoaded_eq]
@[simp] theorem ldmLoaded_mem (s : State) (o : BlockOp) : (ldmLoaded s o).mem = s.mem := by rw [ldmLoaded_eq]
@[simp] theorem ldmLoaded_bankHazard (s : State) (o : BlockOp) : (ldmLoaded s o).bankHazard = s.bankHazard := by
  rw [ldmLoaded_eq]
@[simp] theorem curBank_ldmLoaded (s : State) (o : BlockOp) : curBank (ldmLoaded s o) = curBank s := by simp [curBank]
@[simp] theorem getSpsr_ldmLoaded (s : State) (o : BlockOp) (b : Bank) : getSpsr (ldmLoaded s o) b = getSpsr s b := by
  rw [ldmLoaded_eq]; cases b <;> rfl

/-- A loaded register has its word before the write-back. -/
theorem readReg_ldm_loadRegs {s : State} {o : BlockOp} {i : RegNo} (h : readsReach s o) (hi : i ≠ 15)
    (hbit : o.list.getLsbD i.val = true) (b : Bank) :
    readReg (loadRegs b s (ldmLoads s o)) b i = loadedFor s o i.val := by
  refine loadRegs_read b _ s i _ hi (ldmLoads_nodup s o) (mem_ldmLoads_iff.2 ⟨hbit, ?_, rfl⟩)
  rw [ldmWords_length_of_reach h]
  exact rank_lt_count hbit

/-- The registers after an LDM that completes (R182): its write-back, in the bank of the loads, reaches none of them. -/
theorem blockLoaded_of_regs_eq {s t : State} {o : BlockOp} (hr : blockRefusal true o s.cpsr.m = none) (h : readsReach s o)
    (e : t.regs = (ldmLoaded s o).regs) : BlockLoaded s t o (blockBank true o s) := by
  have hrn := rn_ne_15_of_not_refused hr
  have hbank : curBank (loadRegs (blockBank true o s) s (ldmLoads s o)) = curBank s := by rw [loadRegs_eq]; rfl
  refine ⟨fun i hi hbit => ?_, fun hw => ?_, fun p hp hpw => ?_⟩
  · rw [readReg_congr e _ hi, ldmLoaded, readReg_writeBack_other, readReg_ldm_loadRegs h hi hbit]
    intro hw
    refine ⟨?_, hbank ▸ blockBank_of_writeBack hr hw⟩
    rintro rfl
    rw [base_not_listed_of_not_refused hr hw] at hbit
    cases hbit
  · rw [readReg_congr e _ hrn, ldmLoaded, ← hbank, readReg_writeBack _ _ hw hrn, blockWriteBack_eq]
  · have hload : ∀ x ∈ ldmLoads s o, physReg (blockBank true o s) x.1 ≠ some p := fun ⟨i, _⟩ hx =>
      hp i (mem_ldmLoads_iff.1 hx).1
    simp only [e, ldmLoaded]
    rw [writeBack_frame _ _ (hbank ▸ hpw), loadRegs_frame _ _ s p hload]

/-- With R15 listed, in the bank of the mode the LDM began in. -/
theorem blockLoaded_of_r15 {s t : State} {o : BlockOp} (hr : blockRefusal true o s.cpsr.m = none)
    (h15 : o.list.getLsbD 15 = true) (h : readsReach s o) (e : t.regs = (ldmLoaded s o).regs) :
    BlockLoaded s t o (curBank s) :=
  blockBank_ldm_of_r15 s h15 ▸ blockLoaded_of_regs_eq hr h e

/-! ### LDM that completes -/

/-- Settles O30: after the loads the PC advances, and a user-bank LDM leaves its hazard. -/
theorem ldmLoadsListedRegisters : Obligations.LdmLoadsListedRegisters := by
  unfold Obligations.LdmLoadsListedRegisters
  intro c o s hc hr h15 hreach hs
  have hbank : blockBank true o s = if o.s then .usr else curBank s := by rw [blockBank, userBankTransfer, h15]; simp
  rw [exec_ldm_of_reach hc hr hreach, ldmFinish, h15, ldmLoaded_cpsr, ← hbank]
  refine ⟨_, advance_sequential s _ hs ?_ ?_, blockLoaded_of_regs_eq hr hreach ?_, rfl, ?_⟩
  all_goals cases o.s <;> simp

/-- Settles O31: a jump within the width of the mode, after the loads. -/
theorem ldmLoadsPc : Obligations.LdmLoadsPc := by
  unfold Obligations.LdmLoadsPc
  intro c o s hc hr h15 hS hreach
  rw [exec_ldm_r15 hc hr h15 hreach, hS, ldmLoaded_cpsr]
  cases hw : is26 s.cpsr.m with
  | true =>
    refine ⟨fun _ => ⟨_, jump_from26 _ _ hw, blockLoaded_of_r15 hr h15 hreach rfl, ?_, by simp, by simp⟩, nofun⟩
    rw [pcFrom_of_26 _ hw]
  | false =>
    rw [pcFrom_of_32 _ hw]
    have hjump := jump_from32 (loadedFor s o 15) (ldmLoaded s o) hw
    refine ⟨fun h => ?_, fun _ h => ?_⟩
    · have hal : (loadedFor s o 15).extractLsb' 0 2 = 0#2 := by simpa using h
      exact ⟨{ ldmLoaded s o with pc := loadedFor s o 15 }, by simpa [hw, unaligned, hal] using hjump,
        blockLoaded_of_r15 hr h15 hreach rfl, rfl, by simp, by simp⟩
    · simpa [hw, unaligned, h] using hjump

/-- Settles O32: R33 writes the PSR after the loads, and the jump starts in a 26-bit mode. -/
theorem ldmLoadsPcAndPsr26 : Obligations.LdmLoadsPcAndPsr26 := by
  unfold Obligations.LdmLoadsPcAndPsr26
  intro c o s hc hr h15 hS h26 hm hreach
  rw [exec_ldm_r15 hc hr h15 hreach, if_pos hS, writeR15S, ldmLoaded_cpsr, if_pos h26]
  refine ⟨_, jump_from26 _ _ h26, blockLoaded_of_r15 hr h15 hreach rfl, ?_, ?_, by simp⟩
  · rw [pcFrom_of_26 _ h26]
  · exact write26_eq_psrFrom26 _ h26 hm

/-! ### LDM as an exception return -/

/-- An LDM with R15 and S is no user-bank transfer, so that beside the base only User32 is refused (R186). -/
theorem blockRefusal_ldm_r15S {o : BlockOp} (m : ModeBits) (hrn : o.rn ≠ 15)
    (hw : o.w = true → o.list.getLsbD o.rn.val = false) (h15 : o.list.getLsbD 15 = true) (hS : o.s = true) :
    blockRefusal true o m = if m = 0b10000#5 then some .noSpsrInUser32 else none := by
  have hlist : o.list ≠ 0#16 := by
    intro h
    rw [h] at h15
    cases h15
  have hbase : ¬(o.w = true ∧ o.list.getLsbD o.rn.val = true) := fun ⟨h, hl⟩ => by rw [hw h] at hl; cases hl
  simp only [blockRefusal_eq, hlist, hrn, hbase, h15, hS, if_false, and_false, not_true, false_and, true_and, and_true,
    reduceCtorEq]

/-- Settles O33: the check of User32 comes with the form, then the SPSR's mode number and the checks of R25 after the loads. -/
theorem ldmExceptionReturn : Obligations.LdmExceptionReturn := by
  unfold Obligations.LdmExceptionReturn
  intro c o s hc hrn hw h15 hS h32 _ v
  have href := blockRefusal_ldm_r15S s.cpsr.m hrn hw h15 hS
  refine ⟨fun hu => exec_block_refused (l := true) hc (by rw [href, if_pos hu]), fun p hp hreach => ?_⟩
  have hr : blockRefusal true o s.cpsr.m = none := by
    rw [href, if_neg]
    intro hu
    rw [curBank, hu] at hp
    cases hp
  have hrun : exec (.ldm c o) s =
      if isMode p.m then jump s.cpsr.m v { ldmLoaded s o with cpsr := p } else .refused .illegalModeValue := by
    rw [exec_ldm_r15 hc hr h15 hreach, if_pos hS, writeR15S, ldmLoaded_cpsr, h32,
      exceptionReturn_of_spsr v (s := ldmLoaded s o) (by simpa using hp), ldmLoaded_cpsr]
    rfl
  rw [hrun, jump_from32 v _ h32]
  refine ⟨fun hm => ?_, fun hm h26 hout => ?_, fun hm hin => ?_⟩
  · rw [hm]; rfl
  · simp [hm, h26, outside26, hout]
  · have hspace : (is26 p.m && (outside26 v || outside26 s.pc)) = false := by
      cases h26 : is26 p.m with
      | false => rfl
      | true => simp [outside26, hin h26]
    rw [if_pos hm, ldmLoaded_pc, hspace]
    refine ⟨fun hal => by simp [unaligned, hal], fun hal => ?_⟩
    exact ⟨{ ldmLoaded s o with cpsr := p, pc := v }, by simp [unaligned, hal], blockLoaded_of_r15 hr h15 hreach rfl, rfl, rfl,
      by simp⟩

/-! ### The Data Abort of an LDM -/

/-- Settles O34: the words before the first abort are drawn into their registers; then the base is set and the Data Abort
entered. -/
theorem ldmDataAbort : Obligations.LdmDataAbort := by
  unfold Obligations.LdmDataAbort
  intro c o s k hc hr hk ha hfirst
  have hlen := ldmWords_length_of_abort hk ha hfirst
  have hdraw := drawLoads_eq (blockBank true o s) (ldmLoads s o) s
  have hbank : curBank (drawLoads (blockBank true o s) s (ldmLoads s o)) = curBank s := by rw [hdraw]; rfl
  refine ⟨ldmAborted s o, _, ?_, enter_entered .dataAbort (addressPlus s 8#32) _, ?_, ?_, fun b => ?_, ?_,
    fun i hi hbit hik hne => ?_, fun p hp hpl => ?_⟩
  · rw [exec_ldm_passed hc hr, hlen, if_pos hk]
  · rw [ldmAborted, setX_cpsr, hdraw]
  · rw [ldmAborted, setX_mem, hdraw]
  · rw [ldmAborted, setX, getSpsr_writeReg, hdraw]; cases b <;> rfl
  · rw [ldmAborted, setX, hbank, readReg_writeReg_same _ _ _ _ (rn_ne_15_of_not_refused hr)]
  · rw [ldmAborted, setX, hbank, readReg_writeReg_frame _ _ _ _ _ _ hne.symm]
    exact drawLoads_read _ _ s i _ hi (ldmLoads_nodup s o) (mem_ldmLoads_iff.2 ⟨hbit, hlen ▸ hik, rfl⟩)
  · rw [ldmAborted, setX, hbank, writeReg_frame _ _ _ _ p hp]
    refine drawLoads_frame _ _ s p fun ⟨i, v⟩ he => ?_
    obtain ⟨hbit, hik, -⟩ := mem_ldmLoads_iff.1 he
    exact hpl i hbit (hlen ▸ hik)

/-! ### STM that completes -/

theorem stmStores_complete {s : State} {o : BlockOp} (h : ∀ k, k < count o.list → ¬ storeAborts s o k) :
    (stmStores s o).2 = true := by
  refine storeWords_complete s _ _ fun k hk => ?_
  rw [← Bool.not_eq_true, writeAborts_iff_storeAborts]
  exact h k (by rwa [length_storedValues] at hk)

@[simp] theorem stmStores_pc (s : State) (o : BlockOp) : (stmStores s o).1.pc = s.pc := by rw [stmStores_eq]

/-- Settles O35: every store is done; then the base is written back and the PC advances. -/
theorem stmStoresListedRegisters : Obligations.StmStoresListedRegisters := by
  unfold Obligations.StmStoresListedRegisters
  intro c o s hc hr ha hs hwf
  have hal : unaligned s.pc = false := hs.1
  rw [exec_stm_passed hc hr, if_pos (stmStores_complete ha), blockWriteBack_eq]
  refine ⟨_, advance_sequential s _ hs (by simp) (by simp), rfl, by simp, fun i hi hlast => ?_, fun hw => ?_,
    fun p hp => ?_⟩
  · rw [readWord_congr (s := (stmStores s o).1) (by simp) (by simp)]
    refine readWord_stmStores hwf hal hi (fun j hj => ha j ?_) hlast
    exact hj.trans_lt (rank_lt_count hi)
  · have hrn := rn_ne_15_of_not_refused hr
    refine (readReg_congr (s := writeBack o _ (stmStores s o).1) (by rfl) _ hrn).trans ?_
    rw [← curBank_stmStores s o]
    exact readReg_writeBack _ _ hw hrn
  · exact (writeBack_frame _ _ (by simpa using hp)).trans (by simp)

/-! ### The frame -/

/-- What a block transfer that goes on leaves whichever way it ends: Seen26, Seen32, the parameters of R6 and the inputs;
and unless it took the Data Abort, the SPSRs. -/
structure BlockKeeps (s t : State) : Prop where
  spsr : t.pc ≠ 0x10#32 → ∀ b, getSpsr t b = getSpsr s b
  rest : t.exec26 = s.exec26 ∧ t.exec32 = s.exec32 ∧ t.platform = s.platform ∧ t.inputs = s.inputs ∧ t.steps = s.steps

/-- An LDM keeps the CPSR unless it took the Data Abort or wrote R15 with S (R182). -/
theorem ldm_keeps {c : Cond} {o : BlockOp} {s t : State} (h : exec (.ldm c o) s = .next t) :
    BlockKeeps s t ∧ (t.pc ≠ 0x10#32 → (o.s = false ∨ o.list.getLsbD 15 = false) → t.cpsr = s.cpsr) := by
  obtain ⟨-, e | ⟨hS, h15, v, u, hu, hw⟩ | ⟨u, hu, rfl⟩⟩ := execLdm_shape c o s t h
  · rw [e]
    exact ⟨⟨fun _ b => by cases b <;> rfl, rfl, rfl, rfl, rfl, rfl⟩, fun _ _ => rfl⟩
  · rw [(writeR15S_shape v u t hw).1, hu]
    refine ⟨⟨fun _ b => by cases b <;> rfl, rfl, rfl, rfl, rfl, rfl⟩, fun _ hno => ?_⟩
    rw [hS, h15] at hno
    simp at hno
  · refine ⟨⟨fun hpc => absurd rfl hpc, ?_⟩, fun hpc => absurd rfl hpc⟩
    rw [hu]; simp

/-- An STM keeps the CPSR unless it took the Data Abort (R183). -/
theorem stm_keeps {c : Cond} {o : BlockOp} {s t : State} (h : exec (.stm c o) s = .next t) :
    BlockKeeps s t ∧ (t.pc ≠ 0x10#32 → t.cpsr = s.cpsr) := by
  obtain ⟨-, e | ⟨u, hu, hend⟩⟩ := execStm_shape c o s t h
  · rw [e]
    exact ⟨⟨fun _ b => by cases b <;> rfl, rfl, rfl, rfl, rfl, rfl⟩, fun _ => rfl⟩
  rw [storeWords_eq] at hu
  obtain e | rfl := hend
  · rw [e, writeBack_eq, hu]
    exact ⟨⟨fun _ b => by cases b <;> rfl, rfl, rfl, rfl, rfl, rfl⟩, fun _ => rfl⟩
  · refine ⟨⟨fun hpc => absurd rfl hpc, ?_⟩, fun hpc => absurd rfl hpc⟩
    rw [hu]; simp

/-- Settles O54: by what LDM and STM can do when they go on. -/
theorem blockTransferFrame : Obligations.BlockTransferFrame := by
  unfold Obligations.BlockTransferFrame
  intro l c o s t h
  cases l with
  | true =>
    obtain ⟨-, -, hmem⟩ := ldm_effect h
    obtain ⟨hkeeps, hcpsr⟩ := ldm_keeps h
    exact ⟨fun _ => ⟨fun a => by rw [hmem.mem], hmem.stale⟩, hkeeps.spsr,
      fun hpc hno => hcpsr hpc (hno.resolve_left nofun), hkeeps.rest⟩
  | false =>
    obtain ⟨hkeeps, hcpsr⟩ := stm_keeps h
    exact ⟨nofun, hkeeps.spsr, fun hpc _ => hcpsr hpc, hkeeps.rest⟩

end Sys2Proof.Machine

/-! PROOF. B and BL (spec/43_branch.md R200 to R202): the target in integers modulo the width of the program space, and the
jump to it after the link is written. Settles O40 and O41. -/

namespace Sys2Proof.Machine

open Sys2Proof.Stated

/-! ### The target -/

/-- R200: the offset field, sign-extended and shifted left by 2, is four times the signed offset. -/
theorem signExtend_shiftLeft_two (offset : BitVec 24) :
    offset.signExtend 32 <<< 2 = BitVec.ofInt 32 (4 * offset.toInt) := by
  rw [BitVec.shiftLeft_eq_mul_twoPow, BitVec.ofInt_mul, BitVec.mul_comm]
  rfl

/-- The target before R25 cuts it to the width of the mode: the sum of R200 modulo 2^32. -/
theorem toNat_branchTarget (s : State) (offset : BitVec 24) :
    ((branchTarget s offset).toNat : Int) = ((r15pc s 8#32).toNat + 4 * offset.toInt) % 2 ^ 32 := by
  rw [branchTarget, signExtend_shiftLeft_two, BitVec.toNat_add, BitVec.toNat_ofInt]
  omega

/-- The address that R200 adds to: the instruction's own plus 8, modulo the width of the program space (R32). -/
theorem toNat_r15pc_eight (s : State) :
    (r15pc s 8#32).toNat = (s.pc.toNat + 8) % (if is26 s.cpsr.m then 2 ^ 26 else 2 ^ 32) := by
  rw [r15pc_eq_addressPlus, addressPlus]
  cases is26 s.cpsr.m with
  | true =>
    simp [BitVec.extractLsb'_toNat]
    omega
  | false => exact BitVec.toNat_add _ _

/-- R25: an aligned address is written to R15 modulo the width of the program space. -/
theorem toNat_pcFrom {s : State} {v : Word} (hv : unaligned v = false) :
    (pcFrom s v).toNat = v.toNat % (if is26 s.cpsr.m then 2 ^ 26 else 2 ^ 32) := by
  cases hw : is26 s.cpsr.m with
  | true =>
    rw [pcFrom, if_pos hw, ← address26_of_aligned hv]
    simp [BitVec.extractLsb'_toNat]
    omega
  | false => rw [pcFrom_of_32 v hw]; exact (Nat.mod_eq_of_lt v.isLt).symm

/-- A branch from an aligned address goes to an aligned address. -/
theorem unaligned_branchTarget {s : State} (offset : BitVec 24) (hal : unaligned s.pc = false) :
    unaligned (branchTarget s offset) = false := by
  have htarget := toNat_branchTarget s offset
  have hpc := toNat_r15pc_eight s
  rw [unaligned_eq_false_iff] at hal ⊢
  split at hpc <;> omega

/-- R200, R202: the target as written to R15 is the sum of R200 modulo the width of the program space. -/
theorem pcFrom_branchTarget {s : State} (offset : BitVec 24) (hal : unaligned s.pc = false) :
    pcFrom s (branchTarget s offset) = branchTo s offset := by
  have htarget := toNat_branchTarget s offset
  have hpc := toNat_r15pc_eight s
  apply BitVec.eq_of_toNat_eq
  rw [toNat_pcFrom (unaligned_branchTarget offset hal), branchTo, BitVec.toNat_ofInt]
  split_ifs at hpc ⊢ <;> omega

/-! ### The jump -/

/-- R25: a jump that keeps the mode writes its target to R15, when a 32-bit mode gets it aligned. -/
theorem jump_of_cpsr_eq {s u : State} {v : Word} (hu : u.cpsr = s.cpsr) (hv : unaligned v = false) :
    jump s.cpsr.m v u = .next { u with pc := pcFrom s v } := by
  cases hw : is26 s.cpsr.m with
  | true => rw [jump_from26 v u hw, pcFrom_of_26 v hw]
  | false => simp [jump_from32 v u hw, pcFrom_of_32 v hw, hu, hw, hv]

/-- The jump of B and BL, from a state in which at most the link has been written (R200, R201). -/
theorem jump_branchTarget {s u : State} (offset : BitVec 24) (hu : u.cpsr = s.cpsr) (hal : unaligned s.pc = false) :
    jump s.cpsr.m (branchTarget s offset) u = .next { u with pc := branchTo s offset } := by
  rw [jump_of_cpsr_eq hu (unaligned_branchTarget offset hal), pcFrom_branchTarget offset hal]

/-- Settles O40: nothing is written before the jump. (The theorem's own namespace keeps it apart from the model's
`branchTarget`.) -/
theorem Branch.branchTarget : Obligations.BranchTarget := by
  unfold Obligations.BranchTarget
  intro c offset s hc hal
  exact (whenPassed_passed c s _ hc).trans (jump_branchTarget offset rfl hal)

/-- Settles O41: the link is the combined PC and PSR of R31 with the next address, written before the jump. -/
theorem branchWithLinkSavesReturn : Obligations.BranchWithLinkSavesReturn := by
  unfold Obligations.BranchWithLinkSavesReturn
  intro c offset s hc hal
  have hnext : unaligned (s.pc + 4#32) = false := unaligned_add hal (by decide)
  rw [← r15full_eq_combinedPlus s 4#32 hnext]
  exact (whenPassed_passed c s _ hc).trans (jump_branchTarget offset (setX_cpsr s 14 _) hal)

end Sys2Proof.Machine

/-! PROOF. MRS and MSR (spec/44_psr_transfer.md R210 to R214): the word that MRS reads, the PSR that MSR writes, sequential
execution across a change of the mode's width (R294), and what a user mode can change (R213). Settles O55, O42, O43, O44
and O45. -/

namespace Sys2Proof.Machine

open Sys2Proof.Stated

/-! ### A user mode -/

/-- Settles O55: of the ways an instruction can write the mode, I and F, R33 leaves them in a user mode, an SPSR and MSR write
them in a privileged mode only, and the three exceptions leave F. -/
theorem userModeCannotChangeModeOrMasks : Obligations.UserModeCannotChangeModeOrMasks := by
  unfold Obligations.UserModeCannotChangeModeOrMasks
  intro i s t huser h
  obtain ⟨-, hc, -⟩ := exec_effect h
  cases hc with
  | kept hk => exact .inl hk
  | write26 _ v hw => rw [hw, write26_user s.cpsr v huser]; exact .inl ⟨rfl, rfl, rfl⟩
  | fromSpsr _ hu => rw [huser] at hu; cases hu
  | msr _ _ _ _ _ hu => rw [huser] at hu; cases hu
  | exception e he hpc hc hs =>
    have hf : e.setsF = false := by obtain rfl | rfl | rfl := he <;> rfl
    exact .inr ⟨e, he, hpc, by rw [hc], by rw [hc], by simp [hc, hf], hs⟩

/-! ### The word that MRS reads -/

/-- R210: MRS puts the eleven named bits in their positions of R27, whatever the free bits are. -/
theorem read_named_bits (p : Psr) (free : BitVec 21) :
    (p.read free).getLsbD 31 = p.n ∧ (p.read free).getLsbD 30 = p.z ∧ (p.read free).getLsbD 29 = p.c ∧
      (p.read free).getLsbD 28 = p.v ∧ (p.read free).getLsbD 7 = p.i ∧ (p.read free).getLsbD 6 = p.f ∧
      (p.read free).extractLsb' 0 5 = p.m := by
  have hm : (p.read free).extractLsb' 0 5 = p.m := BitVec.extractLsb'_append_eq_right
  rw [hm]
  simp only [Psr.read, BitVec.getLsbD_append, BitVec.getLsbD_ofBool]
  simp

/-- An MRS that is not refused writes the word it reads to Rd, draws one free value, and the PC advances (R210). -/
theorem exec_mrs_passed {c : Cond} {spsr : Bool} {rd : RegNo} {s : State} {p : Psr} (hc : condPassed c s.cpsr = true)
    (hrd : rd ≠ 15) (hp : selectedPsr spsr s = some p) :
    exec (.mrs c spsr rd) s = advance s.cpsr.m
      { setX s rd (p.read ((Config.freeWord s.draws).extractLsb' 0 21)) with draws := s.draws + 1 } := by
  refine (whenPassed_passed c s _ hc).trans ?_
  rw [if_neg hrd, hp]
  simp only [drawWord, setX, writeReg, curBank]
  cases physReg (bankOf s.cpsr.m) rd <;> rfl

/-- Settles O42: the checks of R210 in their order, then the named bits of the word read, and the PC advances. -/
theorem mrsReadsNamedBits : Obligations.MrsReadsNamedBits := by
  unfold Obligations.MrsReadsNamedBits
  intro c spsr rd s hc
  refine ⟨?_, ?_, fun p hrd hs hp => ⟨_, ?_, read_named_bits p ((Config.freeWord s.draws).extractLsb' 0 21)⟩⟩
  · rintro rfl
    exact whenPassed_passed c s _ hc
  · rintro hrd rfl hbank
    refine (whenPassed_passed c s _ hc).trans ?_
    rw [if_neg hrd, selectedPsr, curBank, hbank]
    rfl
  · rw [exec_mrs_passed hc hrd hp]
    exact advance_sequential s _ hs (by simp) (by simp)

/-! ### Sequential execution across a change of width -/

/-- An address with the next word inside the 26-bit space is inside it, unless it is the last word of all. -/
theorem inside26_of_next_inside {p : Word} (hal : unaligned p = false) (hlast : p ≠ 0xFFFFFFFC#32)
    (h : outside26 (p + 4#32) = false) : outside26 p = false := by
  rw [unaligned_eq_false_iff] at hal
  have hlast' : p.toNat ≠ 0xFFFFFFFC := fun e => hlast (BitVec.eq_of_toNat_eq e)
  simp [outside26, ← BitVec.toNat_inj, BitVec.extractLsb'_toNat, Nat.shiftRight_eq_div_pow] at h ⊢
  omega

/-- R25, R294: where sequential execution is allowed, `advance` goes to PC + 4 in a mode of either width, when a 26-bit mode
has PC + 4 inside the 26-bit space. -/
theorem advance_to_next {s t : State} (hs : Sequential s) (hpc : t.pc = s.pc)
    (h26 : is26 t.cpsr.m = true → outside26 (s.pc + 4#32) = false) :
    advance s.cpsr.m t = .next { t with pc := s.pc + 4#32 } := by
  obtain ⟨hal, hs26, hs32⟩ := hs
  cases hw : is26 s.cpsr.m with
  | true =>
    obtain ⟨hin, hlast⟩ := hs26 hw
    simp [advance, hw, hpc, hlast, jump_from26, trunc26_next s.pc hal hin hlast]
  | false =>
    have hlast := hs32 hw
    have hnext : unaligned (s.pc + 4#32) = false := unaligned_add hal (by decide)
    have hspace : (is26 t.cpsr.m && (outside26 (s.pc + 4#32) || outside26 s.pc)) = false := by
      cases ht : is26 t.cpsr.m with
      | false => rfl
      | true => simp [h26 ht, inside26_of_next_inside hal hlast (h26 ht)]
    simp [advance, hw, hpc, hlast, jump_from32, hspace, hnext]

/-- R294: a 32-bit mode that enters a 26-bit mode with PC + 4 outside the 26-bit space is refused. -/
theorem advance_enter26_outside {m : ModeBits} {t : State} (h32 : is26 m = false) (h26 : is26 t.cpsr.m = true)
    (hlast : t.pc ≠ 0xFFFFFFFC#32) (hout : outside26 (t.pc + 4#32) = true) :
    advance m t = .refused .enter26Outside26bitSpace := by
  simp [advance, h32, hlast, jump_from32, h26, hout]

/-! ### The PSR that MSR writes -/

/-- The PSR of the statements, when the control field is written (R211). -/
theorem msrPsr_of_control {p : Psr} {mask : BitVec 4} {v : Word} {user : Bool} (h : (mask.getLsbD 0 && !user) = true) :
    msrPsr p mask v user = (if mask.getLsbD 3 then p.withFlags v else p).withControl v := by
  rw [msrPsr, h]
  cases mask.getLsbD 3 <;> rfl

/-- The PSR of the statements, when the control field is not selected or is ignored (R211, R213). -/
theorem msrPsr_of_no_control {p : Psr} {mask : BitVec 4} {v : Word} {user : Bool}
    (h : (mask.getLsbD 0 && !user) = false) : msrPsr p mask v user = if mask.getLsbD 3 then p.withFlags v else p := by
  rw [msrPsr, h]
  cases mask.getLsbD 3 <;> rfl

theorem msrPsr_mode_of_control {p : Psr} {mask : BitVec 4} {v : Word} {user : Bool}
    (h : (mask.getLsbD 0 && !user) = true) : (msrPsr p mask v user).m = v.extractLsb' 0 5 := if_pos h

theorem msrPsr_mode_of_no_control {p : Psr} {mask : BitVec 4} {v : Word} {user : Bool}
    (h : (mask.getLsbD 0 && !user) = false) : (msrPsr p mask v user).m = p.m := by rw [msrPsr, h]; rfl

/-- R298: an instruction that leaves the mode leaves BankHazard. -/
theorem hazardAfter_same_mode (s : State) : hazardAfter s s.cpsr.m = s.bankHazard := by simp [hazardAfter]

/-- An MSR of the value `v` whose condition passes is the write of `v` (R211). -/
theorem exec_msr_passed {i : Instr} {c : Cond} {spsr : Bool} {mask : BitVec 4} {v : Word} {s : State}
    (hi : isMsr i c spsr mask v s) (hc : condPassed c s.cpsr = true) : exec i s = msr spsr mask v s := by
  obtain ⟨rm, rfl, hrm, rfl⟩ | ⟨o, rfl, rfl⟩ := hi
  · exact (whenPassed_passed c s _ hc).trans (if_neg hrm)
  · exact whenPassed_passed c s _ hc

/-- R211, R214: a legal write of the CPSR leaves the hazard of R298, and the PC advances. A control field that a user mode
ignores leaves the mode, and so no hazard. -/
theorem msrCpsr_legal {mask : BitVec 4} {v : Word} {s : State}
    (h : (mask.getLsbD 0 && !isUser s.cpsr.m) = true → isMode (v.extractLsb' 0 5) = true) :
    msrCpsr mask v s = advance s.cpsr.m
      { s with
        cpsr := msrPsr s.cpsr mask v (isUser s.cpsr.m)
        bankHazard := hazardAfter s (msrPsr s.cpsr mask v (isUser s.cpsr.m)).m } := by
  cases hctl : mask.getLsbD 0 && !isUser s.cpsr.m with
  | true =>
    rw [msrCpsr, hctl, h hctl, ← noteModeChange_eq_hazardAfter, msrPsr_of_control hctl]
    rfl
  | false =>
    rw [msrCpsr, hctl, msrPsr_mode_of_no_control hctl, hazardAfter_same_mode, msrPsr_of_no_control hctl]
    rfl

/-- R214: a control field with a mode number outside the ten is refused in a privileged mode. -/
theorem msrCpsr_illegal {mask : BitVec 4} {v : Word} {s : State} (h0 : mask.getLsbD 0 = true)
    (hu : isUser s.cpsr.m = false) (hm : isMode (v.extractLsb' 0 5) = false) :
    msrCpsr mask v s = .refused .illegalModeValue := by
  rw [msrCpsr, h0, hu, hm]
  rfl

/-- R211: the write of the current mode's SPSR; its mode number is not checked (R214). -/
theorem msrSpsr_of_spsr {mask : BitVec 4} {v : Word} {s : State} {p : Psr} (hp : getSpsr s (curBank s) = some p) :
    msrSpsr mask v s = advance s.cpsr.m (setSpsr s (curBank s) (msrPsr p mask v false)) := by
  rw [msrSpsr, hp]
  cases hctl : mask.getLsbD 0 with
  | true => rw [msrPsr_of_control (by rw [hctl]; rfl)]; rfl
  | false => rw [msrPsr_of_no_control (by rw [hctl]; rfl)]; rfl

/-! ### MSR -/

/-- Settles O43: the mode number is legal where the control field is written, and PC + 4 is where the new mode can run. -/
theorem msrWritesCpsr : Obligations.MsrWritesCpsr := by
  unfold Obligations.MsrWritesCpsr
  intro i c mask v s hi hc hs new hmode hspace
  have hlegal : (mask.getLsbD 0 && !isUser s.cpsr.m) = true → isMode (v.extractLsb' 0 5) = true := fun hctl => by
    obtain hm | hn := hmode
    · rwa [msrPsr_mode_of_control hctl] at hm
    · rw [hctl] at hn; cases hn
  have hrun : exec i s = msrCpsr mask v s := exec_msr_passed hi hc
  rw [hrun, msrCpsr_legal hlegal]
  exact advance_to_next hs rfl fun h26 => by simpa [outside26] using hspace h26

/-- Settles O44: the checks of R211 in their order, and for a legal mode number the check of R294 at PC + 4. -/
theorem msrRefusals : Obligations.MsrRefusals := by
  unfold Obligations.MsrRefusals
  intro c mask s hc
  refine ⟨fun spsr => whenPassed_passed c s _ hc, fun i v hi hbank => ?_, fun i v hi h0 hu => ?_⟩
  · have hrun : exec i s = msrSpsr mask v s := exec_msr_passed hi hc
    rw [hrun, msrSpsr, curBank, hbank]
    rfl
  · have hrun : exec i s = msrCpsr mask v s := exec_msr_passed hi hc
    rw [hrun]
    refine ⟨msrCpsr_illegal h0 hu, fun hm h32 h26 hlast hout => ?_⟩
    rw [msrCpsr_legal fun _ => hm]
    have hnew : (msrPsr s.cpsr mask v (isUser s.cpsr.m)).m = v.extractLsb' 0 5 := msrPsr_mode_of_control (by simp [h0, hu])
    exact advance_enter26_outside h32 (by rw [hnew]; exact h26) hlast (by simpa [outside26] using hout)

/-- Settles O45: the SPSR is written and the PC advances in the same mode. -/
theorem msrWritesSpsr : Obligations.MsrWritesSpsr := by
  unfold Obligations.MsrWritesSpsr
  intro i c mask v s p hi hc hs hp
  have hrun : exec i s = msrSpsr mask v s := exec_msr_passed hi hc
  rw [hrun, msrSpsr_of_spsr hp]
  exact advance_sequential s _ hs (by simp) (by simp)

end Sys2Proof.Machine

/-! PROOF. Exceptions (spec/60_exceptions.md R251 to R262): the entry, the traps SWI and undefined instruction, and the steps
that take an exception in place of an instruction. Settles O46, O47, O48, O50, O12 and O11. -/

namespace Sys2Proof.Machine

open Sys2Proof.Stated

/-! ### The entry -/

/-- Settles O47. -/
theorem exceptionEntry : Obligations.ExceptionEntry := enter_entered

/-- R251: the address 0x14 is no vector. -/
theorem exc_vector_ne_0x14 (e : Exc) : e.vector ≠ 0x14#32 := by cases e <;> decide

/-- Settles O46: the table row by row, and the PC and the CPSR as the entry leaves them. -/
theorem exceptionVectorTable : Obligations.ExceptionVectorTable := by
  unfold Obligations.ExceptionVectorTable
  refine ⟨⟨rfl, rfl⟩, ⟨rfl, rfl⟩, ⟨rfl, rfl⟩, ⟨rfl, rfl⟩, ⟨rfl, rfl⟩, ⟨rfl, rfl⟩, ⟨rfl, rfl⟩, fun e link s => ?_⟩
  obtain ⟨hpc, hcpsr, -⟩ := enter_entered e link s
  rw [hcpsr]
  exact ⟨exc_vector_ne_0x14 e, exc_mode_is32 e, hpc, rfl, rfl, rfl⟩

/-- The entry with the link of R253, as the statements write it. -/
theorem enter_next_entered (e : Exc) (s : State) :
    Entered s (enter e (r15pc s 4#32) s) e (addressPlus s 4#32) := by
  rw [← r15pc_eq_addressPlus]; exact enter_entered e _ s

/-! ### SWI and the undefined instruction -/

/-- A SWI whose comment is no IMB number does nothing but enter its exception (R230). -/
theorem exec_swi_passed {c : Cond} {n : BitVec 24} {s : State} (hc : condPassed c s.cpsr = true)
    (himb : n ≠ imbComment) (hrange : n ≠ imbRangeComment) :
    exec (.swi c n) s = .next (enter .swi (r15pc s 4#32) s) := by
  have hn : (n == imbComment || n == imbRangeComment) = false := by simp [himb, hrange]
  refine (whenPassed_passed c s _ hc).trans ?_
  rw [hn]; rfl

/-- Settles O48. -/
theorem swiTakesSoftwareInterrupt : Obligations.SwiTakesSoftwareInterrupt := by
  unfold Obligations.SwiTakesSoftwareInterrupt
  intro c n s hc himb hrange
  exact ⟨_, exec_swi_passed hc himb hrange, enter_next_entered .swi s, enter_stale .., enter_exec26 .., enter_exec32 ..⟩

/-- Settles O50. -/
theorem undefinedInstructionTrap : Obligations.UndefinedInstructionTrap := by
  unfold Obligations.UndefinedInstructionTrap
  intro c hi lo s hc
  have hrun : exec (.undefined c hi lo) s = .next (enter .undefined (r15pc s 4#32) s) := whenPassed_passed c s _ hc
  exact ⟨_, hrun, enter_next_entered .undefined s, enter_stale .., enter_exec26 .., enter_exec32 ..⟩

/-! ### Steps that take an exception -/

/-- A pending exception is taken in place of an instruction (R262). -/
theorem step_async {s : State} {e : Exc} (hh : s.platform.haltAddr ≠ some s.pc) (hp : pendingExc s = some e) :
    step s = .next (takeAsync e (popInput s)) := by
  simp [step, atHalt, hh, stepRunning, hp]

/-- An aborted fetch is taken in place of an instruction, whatever the word is (R256). -/
theorem step_fetchAborted {s : State} (hh : s.platform.haltAddr ≠ some s.pc) (hp : pendingExc s = none)
    (ha : aborts s .fetch (wordAddr s.pc) = true) : step s = .next (takePrefetchAbort (popInput s)) := by
  have hf : fetch (popInput s) = none := (fetch_eq_none_iff (popInput s)).2 ha
  simp [step, atHalt, hh, stepRunning, hp, hf]

/-- Settles O12. -/
theorem prefetchAbortTaken : Obligations.PrefetchAbortTaken := by
  unfold Obligations.PrefetchAbortTaken
  intro s hh hp ha
  exact ⟨_, step_fetchAborted hh hp ha, enter_next_entered .prefetchAbort (popInput s)⟩

/-- Reset comes first (R262). -/
theorem pendingExc_reset {s : State} (hr : (nextInput s).reset = true) : pendingExc s = some .reset := by
  simp [pendingExc, hr]

/-- FIQ comes after Reset, where F is 0 (R262). -/
theorem pendingExc_fiq {s : State} (hr : (nextInput s).reset = false) (hf : s.cpsr.f = false)
    (hfiq : (nextInput s).fiq = true) : pendingExc s = some .fiq := by
  simp [pendingExc, hr, hf, hfiq]

/-- IRQ comes last, where I is 0 (R262). -/
theorem pendingExc_irq {s : State} (hr : (nextInput s).reset = false)
    (hnofiq : ¬(s.cpsr.f = false ∧ (nextInput s).fiq = true)) (hi : s.cpsr.i = false) (hirq : (nextInput s).irq = true) :
    pendingExc s = some .irq := by
  have hnofiq' : (!s.cpsr.f && (nextInput s).fiq) = false := by simpa using hnofiq
  simp [pendingExc, hr, hnofiq', hi, hirq]

/-- Settles O11: each input that is taken is the pending exception, and Reset has its own entry (R259, R290). -/
theorem interruptsTakenByPriority : Obligations.InterruptsTakenByPriority := by
  unfold Obligations.InterruptsTakenByPriority
  intro s hh
  refine ⟨fun hr => ?_, fun hr hf hfiq => ?_, fun hr hnofiq hi hirq => ?_⟩
  · exact ⟨_, step_async hh (pendingExc_reset hr), takeReset_fields (popInput s)⟩
  · exact ⟨_, step_async hh (pendingExc_fiq hr hf hfiq), enter_next_entered .fiq (popInput s)⟩
  · exact ⟨_, step_async hh (pendingExc_irq hr hnofiq hi hirq), enter_next_entered .irq (popInput s)⟩

end Sys2Proof.Machine

/-! PROOF. Reset and the end of the program space (spec/70_reset_and_hazards.md R290, R295): what the spec fixes of the state
after reset, and the refusal of sequential execution at the last word. Settles O10 and O15. -/

namespace Sys2Proof.Machine

open Sys2Proof.Stated

/-! ### Reset -/

/-- A state with no stale values has each present word alone in IHist (R35). -/
theorem ihist_of_no_stale {s : State} (h : s.stale = []) (w : WordAddr) : ihist s w = [readWord s w] := by
  rw [ihist, h, staleOf]

/-- Settles O15. -/
theorem resetStateValues : Obligations.ResetStateValues := by
  unfold Obligations.ResetStateValues
  exact ⟨rfl, rfl, rfl, rfl, ihist_of_no_stale rfl, rfl, rfl, rfl⟩

/-! ### The last word of the program space -/

/-- R295: in a 26-bit mode `advance` is refused at the last word of the 26-bit space. -/
theorem advance_last26 {m : ModeBits} {t : State} (h26 : is26 m = true) (hpc : t.pc = 0x03FFFFFC#32) :
    advance m t = .refused .sequentialWrap26 := by
  simp [advance, h26, hpc]

/-- R295: in a 32-bit mode `advance` is refused at the last word of memory. -/
theorem advance_last32 {m : ModeBits} {t : State} (h32 : is26 m = false) (hpc : t.pc = 0xFFFFFFFC#32) :
    advance m t = .refused .sequentialWrap32 := by
  simp [advance, h32, hpc]

/-- An instruction ends with `pc <- PC + 4` when it advances, by the mode it started in, from a state at its own address. -/
def EndsWithAdvance (i : Instr) (s : State) : Prop := ∃ t : State, t.pc = s.pc ∧ exec i s = advance s.cpsr.m t

/-- R211, R214: an MSR that is not refused advances, also when it enters a mode of the other width. -/
theorem msr_endsWithAdvance {i : Instr} {c : Cond} {spsr : Bool} {mask : BitVec 4} {v : Word} {s : State}
    (hi : isMsr i c spsr mask v s) (hc : condPassed c s.cpsr = true) (h : msrAllowed s spsr mask v) :
    EndsWithAdvance i s := by
  have hrun : exec i s = msr spsr mask v s := exec_msr_passed hi hc
  cases spsr with
  | true =>
    obtain ⟨p, hp⟩ := Option.ne_none_iff_exists'.1 h
    exact ⟨_, setSpsr_pc .., hrun.trans (msrSpsr_of_spsr hp)⟩
  | false =>
    have hlegal : (mask.getLsbD 0 && !isUser s.cpsr.m) = true → isMode (v.extractLsb' 0 5) = true := fun hctl => by
      obtain ⟨h0, hu⟩ := Bool.and_eq_true_iff.1 hctl
      exact h h0 (by simpa using hu)
    exact ⟨_, by rfl, hrun.trans (msrCpsr_legal hlegal)⟩

/-- R210: the PSR that an MRS which is not refused reads. -/
theorem selectedPsr_of_allowed {spsr : Bool} {s : State} (h : spsr = true → getSpsr s (bankOf s.cpsr.m) ≠ none) :
    ∃ p, selectedPsr spsr s = some p := by
  cases spsr with
  | true => exact Option.ne_none_iff_exists'.1 (h rfl)
  | false => exact ⟨s.cpsr, rfl⟩

/-- A compare or a P form that is not refused advances (R131 to R136). -/
theorem cmp_endsWithAdvance {i : Instr} {op : CmpOp} {p : Bool} {c : Cond} {rn : RegNo} {o : Operand2} {s : State}
    (hi : i.form = .cmp op p c rn o) (h : completesSequentially (.cmp op p c rn o) s) (hc : condPassed c s.cpsr = true) :
    EndsWithAdvance i s := by
  cases p with
  | false =>
    have hr : r15WithRegShift o [rn] = false := h
    refine ⟨{ s with cpsr := cmpFlags op (readRn s rn) (operand2 s o).value s.cpsr (operand2 s o).carry }, rfl, ?_⟩
    simp [exec_cmp i op false c rn o hi, compare, whenPassed_passed, hc, hr, cmpCompute_psr]
  | true =>
    obtain ⟨h26, ho⟩ := h
    refine ⟨noteModeChange s.cpsr.m
      { s with cpsr := s.cpsr.write26 (cmpValue op (readRn s rn) (operand2 s o).value) }, noteModeChange_pc .., ?_⟩
    simp [exec_cmp i op true c rn o hi, compareP, whenPassed_passed, hc, r15WithRegShift_of_ne_regShift ho, h26,
      cmpCompute_value]

/-- An LDM without R15 whose reads reach, and an STM whose writes do, advance (R182, R183). -/
theorem block_endsWithAdvance {i : Instr} {load : Bool} {c : Cond} {o : BlockOp} {s : State}
    (hi : i.form = .block load c o) (h : completesSequentially (.block load c o) s) (hc : condPassed c s.cpsr = true) :
    EndsWithAdvance i s := by
  obtain rfl := eq_block_of_form i load c o hi
  cases load with
  | true =>
    obtain ⟨hr, h15, hreach⟩ := h
    refine ⟨if o.s then { ldmLoaded s o with bankHazard := .userBankLdm } else ldmLoaded s o, ?_, ?_⟩
    · split <;> simp
    · rw [← ldmLoaded_cpsr s o]
      exact (exec_ldm_of_reach hc hr hreach).trans (if_neg (Bool.eq_false_iff.1 h15))
  | false =>
    obtain ⟨hr, hreach⟩ := h
    refine ⟨_, ?_, (exec_stm_passed hc hr).trans (if_pos (stmStores_complete hreach))⟩
    simp

/-- Every instruction that completes sequentially ends with `pc <- PC + 4` (R295). -/
theorem endsWithAdvance_of_completes {i : Instr} {s : State} (h : completesSequentially i.form s)
    (hc : condPassed i.form.cond s.cpsr = true) : EndsWithAdvance i s := by
  generalize hi : i.form = f at h hc
  cases f with
  | dp op c sb rd rn o =>
    obtain ⟨hrd, hr⟩ := h
    rw [EndsWithAdvance, exec_dp_passed hi hc hr, writeResult, if_neg hrd]
    refine ⟨_, ?_, rfl⟩
    exact setX_pc s rd _
  | cmp op p c rn o => exact cmp_endsWithAdvance hi h hc
  | mrs c spsr rd =>
    obtain rfl := eq_mrs_of_form i c spsr rd hi
    obtain ⟨hrd, hp⟩ := h
    obtain ⟨p, hp⟩ := selectedPsr_of_allowed hp
    refine ⟨_, ?_, exec_mrs_passed hc hrd hp⟩
    exact setX_pc s rd _
  | msrReg c spsr mask rm =>
    obtain rfl := eq_msrReg_of_form i c spsr mask rm hi
    obtain ⟨hrm, hv⟩ := h
    exact msr_endsWithAdvance (.inl ⟨rm, rfl, hrm, rfl⟩) hc hv
  | msrImm c spsr mask o =>
    obtain rfl := eq_msrImm_of_form i c spsr mask o hi
    exact msr_endsWithAdvance (.inr ⟨o, rfl, rfl⟩) hc h
  | block load c o => exact block_endsWithAdvance hi h hc
  | branch | imb | imbRange | swi | undefined => exact h.elim

/-- Settles O10: whether the condition passes or fails, the instruction ends with the advance, which R295 refuses there. -/
theorem sequentialWrapRefused : Obligations.SequentialWrapRefused := by
  unfold Obligations.SequentialWrapRefused
  intro i s h
  have hend : EndsWithAdvance i s := by
    cases hc : condPassed i.form.cond s.cpsr with
    | true => exact endsWithAdvance_of_completes (h.resolve_right (by simp [hc])) hc
    | false => exact ⟨s, rfl, exec_failed i s hc⟩
  obtain ⟨t, hpc, hrun⟩ := hend
  rw [hrun]
  exact ⟨fun h26 hlast => advance_last26 h26 (hpc.trans hlast), fun h32 hlast => advance_last32 h32 (hpc.trans hlast)⟩

end Sys2Proof.Machine
